-- ==== Sys2Proof/Word.lean ====
section
/-! DEFINITION. The words of ost-ddmd: the widths its latches, buffers and processor registers have (spec/00_scope.md R8,
spec/10_state.md R25 to R38). Every value is unsigned (R8). -/

namespace Sys2Proof

/-- A byte of a buffer or of linear memory. -/
abbrev Byte := BitVec 8

/-- A selector or a table limit. -/
abbrev U16 := BitVec 16

/-- An operation selector, a length, an MSR address, an MSR half. -/
abbrev U32 := BitVec 32

/-- An MSR value, a linear address, half a wide descriptor entry. -/
abbrev U64 := BitVec 64

end Sys2Proof
end

