-- ==== Sys2Proof/Config.lean ====
section
/-! DEFINITION. What an implementation of ost-ddmd fixes (spec/00_scope.md R7): the constants with a value, and, as opaque
constants that no proof can see into, the OPEN parameters and the environment's first contents (R292) and the free draw of
a logical processor (R40). -/

namespace Sys2Proof.Config

/-- OPC_READ_MSR (R7, R91). -/
def opcReadMsr : U32 := 0x00000001#32

/-- OPC_WRITE_MSR (R7, R91). -/
def opcWriteMsr : U32 := 0x00000002#32

/-- OPC_QUERY_SEGMENT (R7, R91). -/
def opcQuerySegment : U32 := 0x00000003#32

/-- RDMSR_IN_MIN (R7, R92). -/
def readMsrInMin : Nat := 4

/-- RDMSR_OUT_SIZE (R7, R95). -/
def readMsrOutSize : Nat := 8

/-- WRMSR_IN_MIN (R7, R93, conflict C3). -/
def writeMsrInMin : Nat := 12

/-- WRMSR_OUT_SIZE (R7, R96). -/
def writeMsrOutSize : Nat := 0

/-- QS_IN_MIN (R7, R94). -/
def querySegmentInMin : Nat := 2

/-- QS_OUT_SIZE (R7, R97). -/
def querySegmentOutSize : Nat := 40

/-- LEN_WIDTH (R7, D6): the width of the declared sizes. -/
def lenWidth : Nat := 32

/-- The six segment registers (R36). -/
inductive SegReg where
  | cs | ss | ds | es | fs | gs
deriving DecidableEq, Repr

/-- The registers SEG_MAP maps onto (R232). -/
def segRegs : List SegReg := [.cs, .ss, .ds, .es, .fs, .gs]

/-- The default SEG_MAP (R7, R232, D11): the source's listing order. -/
def segMapDefault : Vector SegReg 6 := #v[.cs, .ss, .ds, .es, .fs, .gs]

/-- The default RESOLVE_DESCRIPTOR (R7, D13). -/
def resolveDescriptorDefault : Bool := true

/-- The default LONG_MODE (R7, D14). -/
def longModeDefault : Bool := true

/-- OPEN: NUM_LP - 1 (R7, D17), so that NUM_LP is at least 1. Log 2. -/
opaque extraLps : Nat

/-- OPEN: MsrValid and MsrInit (R7, R37, D26): the valid MSR addresses of a processor with their first contents. Log 2, 11. -/
opaque msrInit : Nat → List (U32 × U64)

/-- OPEN: where MsrWriteOk fails although the address is valid (R7, R121, D27). Log 2, 12. -/
opaque msrRejects : Nat → List (U32 × U64)

/-- The environment's first segment registers (R292). Log 2. -/
opaque segInit : Nat → SegReg → U16

/-- The environment's first GDTR limit (R292). Log 2. -/
opaque gdtrLimitInit : Nat → U16

/-- The environment's first GDTR base (R292). Log 2. -/
opaque gdtrBaseInit : Nat → U64

/-- The environment's first linear memory: the bytes mapped before the first step (R292, I3). Log 3. -/
opaque memInit : Nat → List (U64 × Byte)

/-- The free draw of the processor that serves a primitive (R40), one for each count of draws made so far. Log 5. -/
opaque lpDraw : Nat → Nat

end Sys2Proof.Config
end

