-- ==== Sys2Proof/Syntax.lean ====
section
/-! DEFINITION. The instructions of ost-ddmd: one constructor for each row of spec/opcode_table.json. An instruction is a
request of the one format REQ (spec/30_encoding.md R90) whose selector names a handler; it carries the declared sizes. The
operands are memory operands: the dispatcher reads them from the input buffer when it latches them (R186). -/

namespace Sys2Proof

/-- A request whose `op` names a handler (R91), with `in_len` and `out_cap`. -/
inductive Instr where
  /-- READ_MSR (spec/43_msr_commands.md R210). -/
  | readMsr (inLen outCap : Nat)
  /-- WRITE_MSR (spec/43_msr_commands.md R212). -/
  | writeMsr (inLen outCap : Nat)
  /-- QUERY_SEGMENT (spec/44_query_segment.md R230). -/
  | querySegment (inLen outCap : Nat)
deriving DecidableEq, Repr

/-- `in_len` of a request. -/
def Instr.inLen : Instr → Nat
  | .readMsr n _ => n
  | .writeMsr n _ => n
  | .querySegment n _ => n

/-- `out_cap` of a request. -/
def Instr.outCap : Instr → Nat
  | .readMsr _ n => n
  | .writeMsr _ n => n
  | .querySegment _ n => n

end Sys2Proof
end

