-- ==== Sys2Proof/WellFormed.lean ====
section
/-! DEFINITION. Which instructions have an encoding: both declared sizes fit their LEN_WIDTH-bit fields
(spec/30_encoding.md R90). Every pair of sizes that fits is legal (R90, R100); a short one is a request that the size
gate turns away, not an ill-formed one. -/

namespace Sys2Proof

/-- A declared size fits its field (R90: 0 to 2^32 - 1). -/
def sizeFits (n : Nat) : Bool := Nat.blt n (2 ^ Config.lenWidth)

/-- An instruction with an encoding. -/
def Instr.wf (i : Instr) : Bool := sizeFits i.inLen && sizeFits i.outCap

end Sys2Proof
end

