-- ==== Sys2Proof/Decode.lean ====
section
/-! DEFINITION. The request header and its decoder. A header is the three u32 fields of REQ that stand outside the buffers,
in the order of spec/30_encoding.md R90: `op`, `in_len`, `out_cap` (log 10). `op` is compared with all 32 bits (R91); every
value that names no handler is rejected by name (R101, R103). The encoder is written from the same table. -/

namespace Sys2Proof

/-- Why a header names no instruction. -/
inductive DecodeError where
  /-- `op` names no handler (R101): the request ends with UNSUPPORTED_OPERATION (R184). -/
  | unsupportedOperation (op : U32)
  /-- Not three words, so not a REQ header (R90). The dispatcher never builds one. -/
  | notARequest
deriving DecidableEq, Repr

/-- The operation lookup over a header (R91, R103): a match over the closed set of three selectors. -/
def decode : List U32 → Except DecodeError Instr
  | [op, inLen, outCap] =>
    if op = Config.opcReadMsr then .ok (.readMsr inLen.toNat outCap.toNat)
    else if op = Config.opcWriteMsr then .ok (.writeMsr inLen.toNat outCap.toNat)
    else if op = Config.opcQuerySegment then .ok (.querySegment inLen.toNat outCap.toNat)
    else .error (.unsupportedOperation op)
  | _ => .error .notARequest

/-- The selector of an instruction (R91). -/
def Instr.op : Instr → U32
  | .readMsr _ _ => Config.opcReadMsr
  | .writeMsr _ _ => Config.opcWriteMsr
  | .querySegment _ _ => Config.opcQuerySegment

/-- The header of an instruction (R90). -/
def encode (i : Instr) : List U32 :=
  [i.op, BitVec.ofNat 32 i.inLen, BitVec.ofNat 32 i.outCap]

/-- Word `k` of a header given as one number, the first word in the low bits. -/
def tableWord (nbits w k : Nat) : U32 := BitVec.ofNat 32 ((w % 2 ^ nbits) / 2 ^ (32 * k))

/-- The header whose first `nbits` bits are `w`, every other bit 0. -/
def tableHeader (nbits w : Nat) : List U32 := [tableWord nbits w 0, tableWord nbits w 1, tableWord nbits w 2]

/-- What the decoder reads from the header whose first `nbits` bits are `w`. -/
def decodeTableWord (nbits w : Nat) : Option Instr :=
  match decode (tableHeader nbits w) with
  | .ok i => some i
  | .error _ => none

end Sys2Proof
end

