-- ==== Sys2Proof/Machine/Memory.lean ====
section
/-! DEFINITION. Byte-addressed memories and the operations over them. -/

namespace Sys2Proof.Machine

/-- A byte-addressed memory: (address, byte) pairs, addresses strictly rising. An address that is not listed holds no
byte: in linear memory its translation faults (R124), in the caller's memory the host provides no byte there (R294). -/
abbrev Memory := List Host.Cell

/-- The byte at an address, if there is one. -/
def Memory.read : Memory → Nat → Option Byte
  | [], _ => none
  | c :: m, k => if c.1 = k then some c.2 else Memory.read m k

/-- Put a byte at an address, in address order. -/
def Memory.write : Memory → Nat → Byte → Memory
  | [], k, v => [(k, v)]
  | c :: m, k, v =>
    if k < c.1 then (k, v) :: c :: m
    else if k = c.1 then (k, v) :: m
    else c :: Memory.write m k v

/-- The memory that holds the given bytes, in canonical form; the first of two bytes given for one address counts. -/
def Memory.ofBytes : List (U64 × Byte) → Memory
  | [] => []
  | c :: cs => Memory.write (Memory.ofBytes cs) c.1.toNat c.2

/-- Take the byte at an address away. -/
def Memory.erase : Memory → Nat → Memory
  | [], _ => []
  | c :: m, k => if c.1 = k then Memory.erase m k else c :: Memory.erase m k

/-- Put or take away a byte. -/
def Memory.update (m : Memory) (k : Nat) : Option Byte → Memory
  | some v => m.write k v
  | none => m.erase k

/-- The canonical form: addresses strictly rising. An unlisted address holds no byte, so no entry can equal it. -/
def Memory.wf : Memory → Bool
  | [] => true
  | [_] => true
  | c :: d :: m => Nat.blt c.1 d.1 && Memory.wf (d :: m)

/-- The `n` bytes from an address on, lowest first; none where one of them is not there. -/
def Memory.readBytes (m : Memory) (k : Nat) : Nat → Option (List Byte)
  | 0 => some []
  | n + 1 =>
    match m.read k, m.readBytes (k + 1) n with
    | some b, some bs => some (b :: bs)
    | _, _ => none

/-- The first address from `k` on, among `n`, that holds no byte. -/
def Memory.firstMissing (m : Memory) (k : Nat) : Nat → Nat
  | 0 => k
  | n + 1 => if (m.read k).isNone then k else m.firstMissing (k + 1) n

end Sys2Proof.Machine
end

