-- ==== Sys2Proof/Machine/State.lean ====
section
/-! DEFINITION. The state of ost-ddmd: the dispatcher instances with their latches (spec/10_state.md R24 to R31), the
startup parameters (spec/00_scope.md R7), the environment behind the Primitive Port (R36 to R40), the caller's memory that
holds the buffers (spec/20_memory.md R60), and the pending steps of the other agents (R74). All plain data. -/

namespace Sys2Proof.Machine

open Sys2Proof.Config (SegReg)

/-! ### Values -/

/-- The four values of the handler latch (R26). -/
inductive Handler where
  | readMsr | writeMsr | querySegment
  /-- H_NONE: `op` names no handler. -/
  | hNone
deriving DecidableEq, Repr

/-- The four values of the status register (R29). -/
inductive Status where
  | success | bufferTooSmall | invalidOperand | unsupportedOperation
deriving DecidableEq, Repr

/-- The SegmentDescriptorView (R34). `typ` is the spec's `type`. -/
structure View where
  base  : U64
  limit : BitVec 20
  typ   : BitVec 4
  s     : BitVec 1
  dpl   : BitVec 2
  p     : BitVec 1
  avl   : BitVec 1
  l     : BitVec 1
  db    : BitVec 1
  g     : BitVec 1
  wide  : BitVec 1
deriving DecidableEq, Repr

/-- The fault record (spec/60_exceptions.md R264): the primitive, the address, and the processor drawn. -/
inductive FaultRecord where
  | rdmsr   (addr : U32) (lp : Nat)
  | wrmsr   (addr : U32) (lp : Nat)
  | memread (addr : U64) (lp : Nat)
deriving DecidableEq, Repr

/-- The latches of R25 to R29, by name. -/
inductive Latch where
  | reqOp | reqInLen | reqOutCap | inBuf | outBuf | h
  | opMsrAddr | opLo | opHi | opSegIdx
  | resLo | resHi | resSel | resResolved | resView | resRawLo | resRawHi
  | status | bytesWritten
deriving DecidableEq, Repr

/-! ### Where an instance stands -/

/-- The six values of `fsm` (R24). -/
inductive Fsm where
  | idle | received | validated | executed | completed | faulted
deriving DecidableEq, Repr

/-- The steps of state RECEIVED (spec/70_reset_and_hazards.md R302): lookup (R184), size gate (R185), latching (R186). -/
inductive RecvStep where
  | lookup | gate | latch
deriving DecidableEq, Repr

/-- A MemRead of eight bytes in progress (spec/40_primitives.md R124, R68): its address, the processor it was drawn to
(none before its first byte, R40), and the bytes read so far, lowest address first (DESIGN CHOICE, log 20). -/
structure MemJob where
  addr : U64
  lp   : Option Nat
  got  : List Byte
deriving DecidableEq, Repr

/-- The steps of state VALIDATED: the handler's first primitive, and the later ones of QUERY_SEGMENT with the locals of
its execution rule (spec/44_query_segment.md R230). -/
inductive ExecStep where
  | start
  /-- PRIM_SGDT is next (R236). -/
  | sgdt
  /-- The first MemRead (R237), with `glim` and `off`. -/
  | readLo (glim : U16) (off : U64) (job : MemJob)
  /-- The second MemRead (R238), with `raw_lo`. -/
  | readHi (rawLo : U64) (job : MemJob)
deriving DecidableEq, Repr

/-- The dispatcher state with the step reached inside it: in EXECUTED the offset of the next output byte, in FAULTED the
fault record (R264). -/
inductive Phase where
  | idle
  | received (step : RecvStep)
  | validated (step : ExecStep)
  | executed (next : Nat)
  | completed
  | faulted (r : FaultRecord)
deriving DecidableEq, Repr

/-! ### One dispatcher instance -/

/-- A dispatcher instance (R20(a)): its dispatcher state and its latches. A latch that holds no value is `none` (R30). -/
structure Inst where
  thread       : Nat
  phase        : Phase
  reqOp        : Option U32
  reqInLen     : Option U32
  reqOutCap    : Option U32
  inBuf        : Option Nat
  outBuf       : Option Nat
  h            : Option Handler
  opMsrAddr    : Option U32
  opLo         : Option U32
  opHi         : Option U32
  opSegIdx     : Option U16
  resLo        : Option U32
  resHi        : Option U32
  resSel       : Option U16
  resResolved  : Option (BitVec 1)
  resView      : Option View
  resRawLo     : Option U64
  resRawHi     : Option U64
  status       : Option Status
  bytesWritten : Option U32
deriving DecidableEq, Repr

/-- An instance in IDLE, every latch holding no value (R42, R182). -/
def Inst.idle (thread : Nat) : Inst where
  thread := thread
  phase := .idle
  reqOp := none
  reqInLen := none
  reqOutCap := none
  inBuf := none
  outBuf := none
  h := none
  opMsrAddr := none
  opLo := none
  opHi := none
  opSegIdx := none
  resLo := none
  resHi := none
  resSel := none
  resResolved := none
  resView := none
  resRawLo := none
  resRawHi := none
  status := none
  bytesWritten := none

/-! ### The environment -/

/-- GDTR (R38). -/
structure Gdtr where
  limit : U16
  base  : U64
deriving DecidableEq, Repr

/-- A logical processor (R36 to R39). `msrs` lists its valid MSR addresses with their values: MsrValid(p, a) says that
`a` is listed. `rejects` lists the writes that MsrWriteOk(p, a, v) turns away. -/
structure Lp where
  cs      : U16
  ss      : U16
  ds      : U16
  es      : U16
  fs      : U16
  gs      : U16
  gdtr    : Gdtr
  msrs    : List (U32 × U64)
  rejects : List (U32 × U64)
  mem     : Memory
deriving DecidableEq, Repr

/-- The NUM_LP logical processors (R7, D17): processor 0, then the others, so that there is always at least one. -/
structure Env where
  first : Lp
  rest  : List Lp
deriving DecidableEq, Repr

/-- The parameters a model takes with a default (R7): RESOLVE_DESCRIPTOR, LONG_MODE and SEG_MAP. No step changes them
(R291). -/
structure Params where
  resolveDescriptor : Bool
  longMode          : Bool
  segMap            : Vector SegReg 6
deriving DecidableEq, Repr

/-! ### The other agents -/

/-- A request as the host presents it (spec/30_encoding.md R90); the buffers are given by their bases in the caller's
memory. -/
structure Request where
  op      : U32
  inLen   : U32
  outCap  : U32
  inBase  : Nat
  outBase : Nat
deriving DecidableEq, Repr

/-- One pending step of an agent (R20, R74). -/
inductive Event where
  /-- The instance of a thread takes its next step. -/
  | run (thread : Nat)
  /-- The host presents a request to the instance of a thread (R183). -/
  | present (thread : Nat) (r : Request)
  /-- The host has taken the response of the instance of a thread (R191). -/
  | ack (thread : Nat)
  /-- The host writes, provides or withdraws a byte of the caller's memory (R294, R300). -/
  | poke (addr : Nat) (b : Option Byte)
  /-- The environment changes an MSR (R37, R298). -/
  | setMsr (p : Nat) (addr : U32) (v : U64)
  /-- The environment changes a segment register (R298). -/
  | setSeg (p : Nat) (r : SegReg) (v : U16)
  /-- The environment changes a GDTR (R298). -/
  | setGdtr (p : Nat) (g : Gdtr)
  /-- The environment writes, maps or unmaps a byte of linear memory (R298). -/
  | setMem (p : Nat) (addr : U64) (b : Option Byte)
  /-- The block is reset (spec/70_reset_and_hazards.md R290). -/
  | reset
deriving DecidableEq, Repr

/-! ### The whole state -/

/-- The machine. `inst` is the instance in focus, the one that takes the next step when the agenda is empty; `others` are
the further instances. `agenda`, `draws` and `drawCount` are the model's own fields (log 5 and 7). -/
structure State where
  inst      : Inst
  others    : List Inst
  params    : Params
  env       : Env
  callerMem : Memory
  agenda    : List Event
  draws     : List Nat
  drawCount : Nat
deriving DecidableEq, Repr

/-- Why the machine stops with a fault. -/
inductive Fault where
  /-- Raised by a step of an instance in FAULTED, which has none (R262, R269). Safe: the spec asks for a fault. -/
  | hwFault (r : FaultRecord)
  /-- Raised by a read of a latch that the current request has not written (R30). Safe: the spec asks for a fault, and no
  state that meets the invariant reaches it. -/
  | unwrittenLatch (l : Latch)
deriving DecidableEq, Repr

/-- Why the machine refuses to go on. -/
inductive Refusal where
  /-- Raised by the dispatch of an instruction without a meaning; there is none. Safe: nothing follows from a refusal. -/
  | notModelled (mnemonic : String)
  /-- Raised when the block reaches a buffer byte that the host declared and does not provide (R294(a), I16: such a host
  is outside the model). Safe: nothing follows from a refusal. -/
  | bufferNotProvided (addr : Nat)
deriving DecidableEq, Repr

/-- What a step answers. -/
abbrev Out := Host.Outcome State Fault Refusal

/-! ### Reset -/

/-- A logical processor before the first step (R292): the environment's contents, open constants of `Config` (log 2 and
3). -/
def Lp.initial (p : Nat) : Lp where
  cs := Config.segInit p .cs
  ss := Config.segInit p .ss
  ds := Config.segInit p .ds
  es := Config.segInit p .es
  fs := Config.segInit p .fs
  gs := Config.segInit p .gs
  gdtr := { limit := Config.gdtrLimitInit p, base := Config.gdtrBaseInit p }
  msrs := Config.msrInit p
  rejects := Config.msrRejects p
  mem := Memory.ofBytes (Config.memInit p)

/-- The environment before the first step (R292). -/
def Env.initial : Env where
  first := Lp.initial 0
  rest := (List.range Config.extraLps).map (fun p => Lp.initial (p + 1))

/-- The default parameters (R7). -/
def Params.default : Params where
  resolveDescriptor := Config.resolveDescriptorDefault
  longMode := Config.longModeDefault
  segMap := Config.segMapDefault

/-- The machine after reset (R42, R290): the instance in IDLE with every latch holding no value, the parameters at their
defaults, nothing pending. -/
def State.reset : State where
  inst := Inst.idle 0
  others := []
  params := Params.default
  env := Env.initial
  callerMem := []
  agenda := []
  draws := []
  drawCount := 0

end Sys2Proof.Machine
end

