-- ==== Sys2Proof/Machine/Ops.lean ====
section
/-! DEFINITION. The named operations over the state: logical processors and the draw of one, latches, the focus on
an instance, the two ends of a request, taking a hardware fault, and the reset that leaves it. -/

namespace Sys2Proof.Machine

open Sys2Proof.Config (SegReg)

/-! ### Logical processors -/

/-- NUM_LP (R7): at least 1. -/
def Env.numLp (e : Env) : Nat := e.rest.length + 1

/-- Logical processor `p`. -/
def Env.lp (e : Env) : Nat → Lp
  | 0 => e.first
  | p + 1 => e.rest.getD p e.first

/-- Replace logical processor `p`; a number that names none changes nothing. -/
def Env.setLp (e : Env) : Nat → Lp → Env
  | 0, l => { e with first := l }
  | p + 1, l => { e with rest := e.rest.set p l }

/-- `SReg(p, r)` (R36). -/
def Lp.seg (l : Lp) : SegReg → U16
  | .cs => l.cs
  | .ss => l.ss
  | .ds => l.ds
  | .es => l.es
  | .fs => l.fs
  | .gs => l.gs

/-- A change of a segment register by the environment (R298). -/
def Lp.setSeg (l : Lp) (r : SegReg) (v : U16) : Lp :=
  match r with
  | .cs => { l with cs := v }
  | .ss => { l with ss := v }
  | .ds => { l with ds := v }
  | .es => { l with es := v }
  | .fs => { l with fs := v }
  | .gs => { l with gs := v }

/-- `Msr(p, a)` where `a` is valid on p (R37). -/
def Lp.msr (l : Lp) (a : U32) : Option U64 := l.msrs.lookup a

/-- MsrValid(p, a) (R7, R37). -/
def Lp.msrValid (l : Lp) (a : U32) : Bool := (l.msr a).isSome

/-- MsrWriteOk(p, a, v) (R7, R121, D27): by default what MsrValid says, less the writes the processor rejects. -/
def Lp.msrWriteOk (l : Lp) (a : U32) (v : U64) : Bool := l.msrValid a && !(l.rejects.contains (a, v))

/-- `Msr(p, a) <- v`, for a valid address; which addresses are valid never changes (R291). -/
def Lp.setMsr (l : Lp) (a : U32) (v : U64) : Lp :=
  { l with msrs := l.msrs.map (fun c => if c.1 = a then (a, v) else c) }

/-- The logical processor the next primitive is drawn to (R40): a choice already made, or else the free value; always
below NUM_LP. -/
def State.nextLp (s : State) : Nat := s.draws.headD (Config.lpDraw s.drawCount) % s.env.numLp

/-- The draw is used up. -/
def State.drawn (s : State) : State := { s with draws := s.draws.tail, drawCount := s.drawCount + 1 }

/-! ### Latches -/

/-- Read a latch. One that holds no value faults (R30). -/
def readLatch {α : Type} (latch : Latch) (held : Option α) (k : α → Out) : Out :=
  match held with
  | some a => k a
  | none => .fault (.unwrittenLatch latch)

/-- The six values of `fsm` (R24). -/
def Phase.fsm : Phase → Fsm
  | .idle => .idle
  | .received _ => .received
  | .validated _ => .validated
  | .executed _ => .executed
  | .completed => .completed
  | .faulted _ => .faulted

/-- `fsm` of an instance (R24). -/
def Inst.fsm (m : Inst) : Fsm := m.phase.fsm

/-- Move the instance in focus on. -/
def State.toPhase (s : State) (p : Phase) : State := { s with inst := { s.inst with phase := p } }

/-! ### The ends of a request -/

/-- The numeric status codes (R98, R261). -/
def Status.code : Status → BitVec 2
  | .success => 0
  | .bufferTooSmall => 1
  | .invalidOperand => 2
  | .unsupportedOperation => 3

/-- `complete(st)` (R189): the end of every failure path. -/
def State.complete (s : State) (st : Status) : State :=
  { s with inst := { s.inst with status := some st, bytesWritten := some 0#32, phase := .completed } }

/-- The response of a success (R190): `bytes_written <- n`, `status <- SUCCESS`, COMPLETED. -/
def State.succeed (s : State) (n : Nat) : State :=
  { s with inst := { s.inst with status := some .success, bytesWritten := some (BitVec.ofNat 32 n), phase := .completed } }

/-- `raise HwFault(info)` (R262, R267): the instance enters FAULTED with the fault record (R264). It writes no response,
saves nothing else and transfers control nowhere. -/
def State.raise (s : State) (r : FaultRecord) : State := s.toPhase (.faulted r)

/-- The reset event (R290, R292), the only way out of FAULTED (R269): every instance in IDLE with no value in any latch; the
environment and the parameters keep their values, and so do the output bytes that an abandoned request had already written
(R290). For the bytes that it had not yet written item I21 gives any value; that they keep their old ones, and with them the
whole caller's memory, is the model's choice (DESIGN CHOICE, log 21). -/
def State.blockReset (s : State) : State :=
  { s with inst := Inst.idle s.inst.thread, others := s.others.map (fun m => Inst.idle m.thread) }

/-! ### Instances -/

/-- The instance of a thread among `ms`; a thread that has never called has an idle one (R20(a)). -/
def instOf (t : Nat) : List Inst → Inst
  | [] => Inst.idle t
  | m :: ms => if m.thread = t then m else instOf t ms

/-- The instances of the other threads. -/
def instsBut (t : Nat) (ms : List Inst) : List Inst := ms.filter (fun m => m.thread != t)

/-- Bring the instance of a thread into focus. -/
def State.focus (s : State) (t : Nat) : State :=
  if s.inst.thread = t then s
  else { s with inst := instOf t s.others, others := s.inst :: instsBut t s.others }

/-- The instance of a thread, in focus or not. -/
def State.instAt (s : State) (t : Nat) : Inst :=
  if s.inst.thread = t then s.inst else instOf t s.others

end Sys2Proof.Machine
end

