-- ==== Sys2Proof/Machine/Operands.lean ====
section
/-! DEFINITION. Byte order, operand assembly and the output layouts (spec/00_scope.md R10, spec/20_memory.md R63 to R65,
spec/30_encoding.md R92 to R99). Everything is little-endian and unsigned. -/

namespace Sys2Proof.Machine

open Sys2Proof.Config (SegReg)

/-! ### Little-endian fields -/

/-- `LE16(in, k)` (R10). -/
def le16 (b : List Byte) (k : Nat) : U16 := b.getD (k + 1) 0#8 ++ b.getD k 0#8

/-- `LE32(in, k)` (R10). -/
def le32 (b : List Byte) (k : Nat) : U32 :=
  b.getD (k + 3) 0#8 ++ b.getD (k + 2) 0#8 ++ b.getD (k + 1) 0#8 ++ b.getD k 0#8

/-- Eight bytes as one little-endian value: what `MemRead(addr, 8)` returns (R10, R64, R141). -/
def le64 (b : List Byte) : U64 := le32 b 4 ++ le32 b 0

/-- The bytes `PUT16` writes (R10): byte `j` is bits `8j+7 : 8j`. -/
def put16 (v : U16) : List Byte := [v.extractLsb' 0 8, v.extractLsb' 8 8]

/-- The bytes `PUT32` writes (R10). -/
def put32 (v : U32) : List Byte :=
  [v.extractLsb' 0 8, v.extractLsb' 8 8, v.extractLsb' 16 8, v.extractLsb' 24 8]

/-- The bytes `PUT64` writes (R10). -/
def put64 (v : U64) : List Byte := put32 (v.extractLsb' 0 32) ++ put32 (v.extractLsb' 32 32)

/-! ### MSR values -/

/-- The low half of an MSR value (R35). -/
def msrLow (v : U64) : U32 := v.extractLsb' 0 32

/-- The high half of an MSR value (R35). -/
def msrHigh (v : U64) : U32 := v.extractLsb' 32 32

/-- `high : low` (R35, R99). -/
def msrValue (low high : U32) : U64 := high ++ low

/-! ### The handler table (R181) -/

/-- The dispatch table (R32): a constant. -/
def Handler.ofOp (op : U32) : Handler :=
  if op = Config.opcReadMsr then .readMsr
  else if op = Config.opcWriteMsr then .writeMsr
  else if op = Config.opcQuerySegment then .querySegment
  else .hNone

/-- IN_MIN(h) (R181). H_NONE has none: the 0, which stands for it in a request line that omits `in_len` only, is the model's
choice (log 19). -/
def Handler.inMin : Handler → Nat
  | .readMsr => Config.readMsrInMin
  | .writeMsr => Config.writeMsrInMin
  | .querySegment => Config.querySegmentInMin
  | .hNone => 0

/-- OUT_SIZE(h) (R181). H_NONE has none: the 0, which stands for it in a request line that omits `out_cap` only, is the
model's choice (log 19). -/
def Handler.outSize : Handler → Nat
  | .readMsr => Config.readMsrOutSize
  | .writeMsr => Config.writeMsrOutSize
  | .querySegment => Config.querySegmentOutSize
  | .hNone => 0

/-- Latch the operands of a handler from its input bytes (R186, layouts R92 to R94). -/
def latchOperands (h : Handler) (b : List Byte) (m : Inst) : Inst :=
  match h with
  | .readMsr => { m with opMsrAddr := some (le32 b 0) }
  | .writeMsr => { m with opMsrAddr := some (le32 b 0), opLo := some (le32 b 4), opHi := some (le32 b 8) }
  | .querySegment => { m with opSegIdx := some (le16 b 0) }
  | .hNone => m

/-- The six segment indices as a closed enumeration (R103, R231): any other value names none. -/
def segIndex (v : U16) : Option (Fin 6) := if h : v.toNat < 6 then some ⟨v.toNat, h⟩ else none

/-- SEG_MAP (R232). -/
def Params.seg (c : Params) (i : Fin 6) : SegReg := c.segMap[i]

/-- SEG_MAP is a bijection from the six indices onto the six registers (R232): each register is named exactly once. -/
def Params.wf (c : Params) : Bool := Config.segRegs.all (fun r => c.segMap.toList.count r == 1)

/-! ### Output layouts -/

/-- READ_MSR output (R95): low, then high. -/
def readMsrImage (lo hi : U32) : List Byte := put32 lo ++ put32 hi

/-- QUERY_SEGMENT output (R97, R241), the forty bytes in the order of `write_output(H_QUERY_SEGMENT)`. -/
def querySegmentImage (sel : U16) (resolved : BitVec 1) (v : View) (rawLo rawHi : U64) : List Byte :=
  put16 sel ++ [resolved.setWidth 8, v.wide.setWidth 8]
    ++ put32 (v.limit.setWidth 32) ++ put64 v.base
    ++ [v.typ.setWidth 8, v.s.setWidth 8, v.dpl.setWidth 8, v.p.setWidth 8,
        v.avl.setWidth 8, v.l.setWidth 8, v.db.setWidth 8, v.g.setWidth 8]
    ++ put64 rawLo ++ put64 rawHi

/-- The result of a handler as its output layout has it, from the result latches (R190). -/
def resultImage (h : Handler) (m : Inst) (k : List Byte → Out) : Out :=
  match h with
  | .readMsr =>
    readLatch .resLo m.resLo fun lo =>
    readLatch .resHi m.resHi fun hi =>
    k (readMsrImage lo hi)
  | .querySegment =>
    readLatch .resSel m.resSel fun sel =>
    readLatch .resResolved m.resResolved fun resolved =>
    readLatch .resView m.resView fun v =>
    readLatch .resRawLo m.resRawLo fun rawLo =>
    readLatch .resRawHi m.resRawHi fun rawHi =>
    k (querySegmentImage sel resolved v rawLo rawHi)
  | .writeMsr => k []
  | .hNone => k []

end Sys2Proof.Machine
end

