-- ==== Sys2Proof/Machine/Descriptor.lean ====
section
/-! DEFINITION. The Descriptor Decoder and the Selector Decoder (spec/41_descriptor_decoder.md): combinational, total, no
state, no fault (R153, R156). The encoder is the spec's inverse for statements; the block does not contain it (R160). The
entry positions but those of the limit and of base[31:24] are the spec's own, from general knowledge (D15, G1; log 16). -/

namespace Sys2Proof.Machine

/-- `Decode(raw_lo, raw_hi, wide)` (R140, R142 to R149, R151). -/
def decodeDescriptor (rawLo rawHi : U64) (wide : BitVec 1) : View where
  limit := rawLo.extractLsb' 48 4 ++ rawLo.extractLsb' 0 16
  base := (if wide = 1#1 then rawHi.extractLsb' 0 32 else 0#32)
    ++ (rawLo.extractLsb' 56 8 ++ rawLo.extractLsb' 32 8 ++ rawLo.extractLsb' 16 16)
  typ := rawLo.extractLsb' 40 4
  s := rawLo.extractLsb' 44 1
  dpl := rawLo.extractLsb' 45 2
  p := rawLo.extractLsb' 47 1
  avl := rawLo.extractLsb' 52 1
  l := rawLo.extractLsb' 53 1
  db := rawLo.extractLsb' 54 1
  g := rawLo.extractLsb' 55 1
  wide := wide

/-- The view of the unresolved result (R240): every field 0. -/
def View.zero : View where
  base := 0#64
  limit := 0#20
  typ := 0#4
  s := 0#1
  dpl := 0#2
  p := 0#1
  avl := 0#1
  l := 0#1
  db := 0#1
  g := 0#1
  wide := 0#1

/-- The domain of `Encode` (R160): the upper base is 0 in a narrow view. -/
def View.encodable (v : View) : Bool := v.wide == 1#1 || v.base.extractLsb' 32 32 == 0#32

/-- `raw_lo` of `Encode(v)` (R160). -/
def encodeLo (v : View) : U64 :=
  v.base.extractLsb' 24 8 ++ v.g ++ v.db ++ v.l ++ v.avl ++ v.limit.extractLsb' 16 4
    ++ v.p ++ v.dpl ++ v.s ++ v.typ ++ v.base.extractLsb' 16 8 ++ v.base.extractLsb' 0 16 ++ v.limit.extractLsb' 0 16

/-- `raw_hi` of `Encode(v)` (R160). -/
def encodeHi (v : View) : U64 := if v.wide = 1#1 then 0#32 ++ v.base.extractLsb' 32 32 else 0#64

/-- The fields of a selector (R33). -/
structure Selector where
  rpl   : BitVec 2
  ti    : BitVec 1
  index : BitVec 13
deriving DecidableEq, Repr

/-- `SelDecode(sel)` (R150). -/
def selDecode (sel : U16) : Selector where
  rpl := sel.extractLsb' 0 2
  ti := sel.extractLsb' 2 1
  index := sel.extractLsb' 3 13

/-- The byte offset of a table entry (R236): `zext_64(index) * 8`. -/
def tableOffset (index : BitVec 13) : U64 := index.setWidth 64 * 8#64

/-- Whether an entry is wide (R237): a system descriptor in 64-bit mode. -/
def entryWide (c : Params) (rawLo : U64) : Bool := c.longMode && rawLo.extractLsb' 44 1 == 0#1

end Sys2Proof.Machine
end

