-- ==== Sys2Proof/Machine/Flags.lean ====
section
/-! DEFINITION. Flags. ost-ddmd has no flag register, and no operation sets or tests a flag of the block
(spec/10_state.md R41): the flags it deals with are those of a decoded descriptor. The reading of `type` that the spec
gives consumers stands here; the decoder outputs `type` whole and does not apply it (R155, R157, R158). -/

namespace Sys2Proof.Machine

/-- What `type` says of a code or data segment (R157). -/
inductive TypeReading where
  | data (expandDown writable accessed : BitVec 1)
  | code (conforming readable accessed : BitVec 1)
deriving DecidableEq, Repr

/-- The reading of `type` (R157). None for a descriptor that is not present, whose fields the spec gives no meaning (R155,
I1), and none for a system descriptor, whose type it gives none (R158). -/
def View.typeReading (v : View) : Option TypeReading :=
  if v.p = 1#1 ∧ v.s = 1#1 then
    if v.typ.extractLsb' 3 1 = 1#1 then
      some (.code (v.typ.extractLsb' 2 1) (v.typ.extractLsb' 1 1) (v.typ.extractLsb' 0 1))
    else
      some (.data (v.typ.extractLsb' 2 1) (v.typ.extractLsb' 1 1) (v.typ.extractLsb' 0 1))
  else none

end Sys2Proof.Machine
end

