-- ==== Sys2Proof/Machine/Primitives.lean ====
section
/-! DEFINITION. The Primitive Port (spec/40_primitives.md): the block's only way to the processors. Each primitive runs on
the logical processor drawn for it (R40, R126) and does no validation (R125). One that cannot complete answers the fault
record it raises (R262). The caller uses the draw up (`State.drawn`). -/

namespace Sys2Proof.Machine

open Sys2Proof.Config (SegReg)

/-- The logical processor the next primitive runs on. -/
def State.portLp (s : State) : Lp := s.env.lp s.nextLp

/-- `PRIM_RDMSR(a)` (R120): the MSR value, or a fault where the address is invalid on the processor drawn. -/
def primRdmsr (a : U32) (s : State) : Except FaultRecord (U32 × U32) :=
  match s.portLp.msr a with
  | some v => .ok (msrLow v, msrHigh v)
  | none => .error (.rdmsr a s.nextLp)

/-- `PRIM_WRMSR(a, low, high)` (R121): the environment after the write, or a fault, with no MSR changed, where the
processor drawn rejects the address or the value. -/
def primWrmsr (a low high : U32) (s : State) : Except FaultRecord Env :=
  let v := msrValue low high
  if s.portLp.msrValid a && s.portLp.msrWriteOk a v then .ok (s.env.setLp s.nextLp (s.portLp.setMsr a v))
  else .error (.wrmsr a s.nextLp)

/-- `PRIM_RDSREG(r)` (R122): never faults. -/
def primRdsreg (r : SegReg) (s : State) : U16 := s.portLp.seg r

/-- `PRIM_SGDT()` (R123): never faults. -/
def primSgdt (s : State) : Gdtr := s.portLp.gdtr

/-- A MemRead before its first byte (R124). -/
def MemJob.at (addr : U64) : MemJob where
  addr := addr
  lp := none
  got := []

/-- The processor that serves a MemRead: drawn once, with its first byte (R40, R242; log 6). -/
def MemJob.server (job : MemJob) (s : State) : Nat := job.lp.getD s.nextLp

/-- The draw of a MemRead is used up by its first byte. -/
def State.drawnFor (s : State) (job : MemJob) : State := if job.lp.isNone then s.drawn else s

/-- The linear address of the byte a MemRead reads next, modulo 2^64 (R124). The spec makes each byte a step of its own (R68,
R124) and names the addresses (R10), but gives the steps no order in time: lowest address first is the model's choice (DESIGN
CHOICE, log 20). -/
def MemJob.nextAddr (job : MemJob) : U64 := job.addr + BitVec.ofNat 64 job.got.length

/-- One byte of a `MemRead` (R124, R68), the lowest address not yet read (DESIGN CHOICE, log 20): the MemRead with the byte
added, or a fault where the translation of the byte's address faults. The record names the MemRead's address (log 15). -/
def memReadByte (job : MemJob) (s : State) : Except FaultRecord MemJob :=
  match (s.env.lp (job.server s)).mem.read job.nextAddr.toNat with
  | some b => .ok { job with lp := some (job.server s), got := job.got ++ [b] }
  | none => .error (.memread job.addr (job.server s))

end Sys2Proof.Machine
end

