-- ==== Sys2Proof/Machine/Dispatcher.lean ====
section
/-! DEFINITION. The Command Dispatcher (spec/42_dispatcher.md): the steps every request runs through, over the handler
table of R181. One call is one step of the instance in focus, as R302 counts them (log 8). -/

namespace Sys2Proof.Machine

/-- Operation lookup, for an `op` that names a handler (R184). -/
def State.lookupDone (s : State) (h : Handler) : State :=
  { s with inst := { s.inst with h := some h, phase := .received .gate } }

/-- Operation lookup, for an `op` that names none (R184): UNSUPPORTED_OPERATION. -/
def State.lookupNone (s : State) : State :=
  State.complete { s with inst := { s.inst with h := some .hNone } } .unsupportedOperation

/-- Whether a declared size is short (R185). -/
def sizesShort (h : Handler) (inLen outCap : Nat) : Bool := Nat.blt inLen h.inMin || Nat.blt outCap h.outSize

/-- The size gate (R185). -/
def sizeGate (h : Handler) (inLen outCap : Nat) (s : State) : Out :=
  if sizesShort h inLen outCap then .next (s.complete .bufferTooSmall)
  else .next (s.toPhase (.received .latch))

/-- Operand latching (R186): the handler's input bytes are read, all of them, and the operands latched. -/
def latchStep (h : Handler) (s : State) : Out :=
  readLatch .inBuf s.inst.inBuf fun base =>
  match s.callerMem.readBytes base h.inMin with
  | some b => .next (State.toPhase { s with inst := latchOperands h b s.inst } (.validated .start))
  | none => .refused (.bufferNotProvided (s.callerMem.firstMissing base h.inMin))

/-- The operand check (R187): only QUERY_SEGMENT has one (R231). -/
def operandCheck (h : Handler) (s : State) (k : Bool → Out) : Out :=
  match h with
  | .querySegment => readLatch .opSegIdx s.inst.opSegIdx fun v => k (segIndex v).isSome
  | .readMsr => k true
  | .writeMsr => k true
  | .hNone => k true

/-- The output byte at offset `n` (R190, R62): one byte of the handler's layout goes to `out[n]`. The spec orders the PUTs
(R241) and says where each byte of one goes (R10), but not in which order the bytes of one PUT are written: lowest offset
first is the model's choice (DESIGN CHOICE, log 18). -/
def outputByte (h : Handler) (n : Nat) (s : State) : Out :=
  readLatch .outBuf s.inst.outBuf fun base =>
  resultImage h s.inst fun image =>
  match s.callerMem.read (base + n) with
  | some _ =>
    .next (State.toPhase { s with callerMem := s.callerMem.write (base + n) (image.getD n 0#8) } (.executed (n + 1)))
  | none => .refused (.bufferNotProvided (base + n))

/-- A step in EXECUTED (R190): the next output byte, or, when all are written, the response. The bytes of one PUT are written
lowest offset first (DESIGN CHOICE, log 18). -/
def resultStep (h : Handler) (n : Nat) (s : State) : Out :=
  if n < h.outSize then outputByte h n s else .next (s.succeed h.outSize)

/-- A step in VALIDATED: the operand check before the first primitive (R187), then the handler's execution rule (R188). -/
def executeStep (h : Handler) (execute : ExecStep → State → Out) (w : ExecStep) (s : State) : Out :=
  match w with
  | .start => operandCheck h s fun ok => if ok then execute .start s else .next (s.complete .invalidOperand)
  | .sgdt => execute .sgdt s
  | .readLo glim off job => execute (.readLo glim off job) s
  | .readHi rawLo job => execute (.readHi rawLo job) s

/-- One step of the instance in focus on a request of handler `h` (R180). In IDLE and in COMPLETED the instance has no step
of its own and waits for the host (R182, R191); in FAULTED it has none at all (R262, R269). -/
def serve (h : Handler) (inLen outCap : Nat) (execute : ExecStep → State → Out) (s : State) : Out :=
  match s.inst.phase with
  | .idle => .next s
  | .received .lookup => .next (s.lookupDone h)
  | .received .gate => sizeGate h inLen outCap s
  | .received .latch => latchStep h s
  | .validated w => executeStep h execute w s
  | .executed n => resultStep h n s
  | .completed => .next s
  | .faulted r => .fault (.hwFault r)

/-- Execution is over and nothing has faulted (R188): EXECUTED, no output byte written yet. -/
def State.executedAll (s : State) : State := s.toPhase (.executed 0)

end Sys2Proof.Machine
end

