-- ==== Sys2Proof/Machine/MsrCommands.lean ====
section
/-! DEFINITION. The MSR commands (spec/43_msr_commands.md): READ_MSR and WRITE_MSR. No address is special (R215). -/

namespace Sys2Proof.Machine

/-- `execute(H_READ_MSR)` (R210). -/
def executeReadMsr (s : State) : Out :=
  readLatch .opMsrAddr s.inst.opMsrAddr fun a =>
  match primRdmsr a s with
  | .ok (lo, hi) =>
    let t := s.drawn
    .next (State.executedAll { t with inst := { t.inst with resLo := some lo, resHi := some hi } })
  | .error r => .next (s.drawn.raise r)

/-- READ_MSR (R210): one step of the request. -/
def execReadMsr (inLen outCap : Nat) (s : State) : Out :=
  serve .readMsr inLen outCap (fun _ => executeReadMsr) s

/-- `execute(H_WRITE_MSR)` (R212): it writes no result latch (R213). -/
def executeWriteMsr (s : State) : Out :=
  readLatch .opMsrAddr s.inst.opMsrAddr fun a =>
  readLatch .opLo s.inst.opLo fun lo =>
  readLatch .opHi s.inst.opHi fun hi =>
  match primWrmsr a lo hi s with
  | .ok e => .next (State.executedAll { s.drawn with env := e })
  | .error r => .next (s.drawn.raise r)

/-- WRITE_MSR (R212): one step of the request. -/
def execWriteMsr (inLen outCap : Nat) (s : State) : Out :=
  serve .writeMsr inLen outCap (fun _ => executeWriteMsr) s

end Sys2Proof.Machine
end

