-- ==== Sys2Proof/Machine/QuerySegment.lean ====
section
/-! DEFINITION. QUERY_SEGMENT (spec/44_query_segment.md): the selector read, the resolution of its descriptor in the global
table, and the unresolved result. -/

namespace Sys2Proof.Machine

/-- `unresolved()` (R240), and execution is over. -/
def State.unresolved (s : State) : State :=
  State.executedAll { s with inst := { s.inst with
    resResolved := some 0#1, resRawLo := some 0#64, resRawHi := some 0#64, resView := some View.zero } }

/-- The resolved result (R239), and execution is over. -/
def State.resolved (s : State) (rawLo rawHi : U64) (wide : BitVec 1) : State :=
  State.executedAll { s with inst := { s.inst with
    resView := some (decodeDescriptor rawLo rawHi wide),
    resRawLo := some rawLo, resRawHi := some rawHi, resResolved := some 1#1 } }

/-- Whether a selector goes unresolved without a look at the table (R233 to R235): resolution off, a local-table selector,
a null selector. -/
def noLookup (c : Params) (sel : U16) : Bool :=
  !c.resolveDescriptor || (selDecode sel).ti == 1#1 || (selDecode sel).index == 0#13

/-- Whether the bytes of an entry up to offset `off + n` lie past the table's limit (R236, R238). -/
def pastLimit (glim : U16) (off n : U64) : Bool := (glim.setWidth 64).ult (off + n)

/-- The selector read (R232) with the tests that need no table (R233 to R235). -/
def querySelector (r : Config.SegReg) (s : State) : State :=
  let sel := primRdsreg r s
  let t := { s.drawn with inst := { s.inst with resSel := some sel } }
  if noLookup t.params sel then t.unresolved else t.toPhase (.validated .sgdt)

/-- The table bounds (R236): the entry is sought only where it lies wholly inside. -/
def queryTable (sel : U16) (s : State) : State :=
  let g := primSgdt s
  let off := tableOffset (selDecode sel).index
  if pastLimit g.limit off 7#64 then s.drawn.unresolved
  else s.drawn.toPhase (.validated (.readLo g.limit off (MemJob.at (g.base + off))))

/-- The first eight bytes have been read (R237): a narrow entry is decoded; a wide one is unresolved past the limit or
read on (R238). `ea` is the entry's address. -/
def queryWidth (glim : U16) (off ea rawLo : U64) (s : State) : State :=
  if entryWide s.params rawLo then
    if pastLimit glim off 15#64 then s.unresolved
    else s.toPhase (.validated (.readHi rawLo (MemJob.at (ea + 8#64))))
  else s.resolved rawLo 0#64 0#1

/-- A byte of the first MemRead (R237). -/
def queryReadLo (glim : U16) (off : U64) (job : MemJob) (s : State) : State :=
  match memReadByte job s with
  | .error r => (s.drawnFor job).raise r
  | .ok job' =>
    if job'.got.length < 8 then (s.drawnFor job).toPhase (.validated (.readLo glim off job'))
    else queryWidth glim off job.addr (le64 job'.got) (s.drawnFor job)

/-- A byte of the second MemRead (R238). -/
def queryReadHi (rawLo : U64) (job : MemJob) (s : State) : State :=
  match memReadByte job s with
  | .error r => (s.drawnFor job).raise r
  | .ok job' =>
    if job'.got.length < 8 then (s.drawnFor job).toPhase (.validated (.readHi rawLo job'))
    else (s.drawnFor job).resolved rawLo (le64 job'.got) 1#1

/-- `execute(H_QUERY_SEGMENT)` (R230), one primitive or one MemRead byte a step. -/
def executeQuerySegment (w : ExecStep) (s : State) : Out :=
  match w with
  | .start =>
    readLatch .opSegIdx s.inst.opSegIdx fun v =>
    match segIndex v with
    | some i => .next (querySelector (s.params.seg i) s)
    | none => .next (s.complete .invalidOperand)
  | .sgdt => readLatch .resSel s.inst.resSel fun sel => .next (queryTable sel s)
  | .readLo glim off job => .next (queryReadLo glim off job s)
  | .readHi rawLo job => .next (queryReadHi rawLo job s)

/-- QUERY_SEGMENT (R230): one step of the request. -/
def execQuerySegment (inLen outCap : Nat) (s : State) : Out :=
  serve .querySegment inLen outCap executeQuerySegment s

end Sys2Proof.Machine
end

