-- ==== Sys2Proof/Machine/Dispatch.lean ====
section
/-! DEFINITION. One arm for each instruction of spec/opcode_table.json. -/

namespace Sys2Proof.Machine

def exec (i : Instr) (s : State) : Host.Outcome State Fault Refusal :=
  match i with
  | .readMsr inLen outCap => Sys2Proof.Machine.execReadMsr inLen outCap s
  | .writeMsr inLen outCap => Sys2Proof.Machine.execWriteMsr inLen outCap s
  | .querySegment inLen outCap => Sys2Proof.Machine.execQuerySegment inLen outCap s

end Sys2Proof.Machine
end

