-- ==== Sys2Proof/Machine/Fetch.lean ====
section
/-! DEFINITION. Which request the instance in focus is serving. Before the lookup its selector is decoded (R184); from then
on the handler latch says which one it is, and `op` is not read again. -/

namespace Sys2Proof.Machine

/-- The instruction of a handler with its declared sizes; H_NONE has none. -/
def Handler.instr (h : Handler) (inLen outCap : Nat) : Option Instr :=
  match h with
  | .readMsr => some (.readMsr inLen outCap)
  | .writeMsr => some (.writeMsr inLen outCap)
  | .querySegment => some (.querySegment inLen outCap)
  | .hNone => none

/-- The handler of an instruction (R91). -/
def instrHandler : Instr → Handler
  | .readMsr _ _ => .readMsr
  | .writeMsr _ _ => .writeMsr
  | .querySegment _ _ => .querySegment

/-- The latched request header (R25, R90). -/
def headerOf (m : Inst) (k : List U32 → Out) : Out :=
  readLatch .reqOp m.reqOp fun op =>
  readLatch .reqInLen m.reqInLen fun inLen =>
  readLatch .reqOutCap m.reqOutCap fun outCap =>
  k [op, inLen, outCap]

/-- The instruction being served, given to `k`; none where `op` names no handler. Before the lookup it is the decoded header
(R184); from then on the handler latch is read, and one that holds no value faults (R30). -/
def fetchInstr (m : Inst) (k : Option Instr → Out) : Out :=
  match m.phase with
  | .received .lookup => headerOf m fun w => k (decode w).toOption
  | _ =>
    readLatch .h m.h fun h =>
    readLatch .reqInLen m.reqInLen fun inLen =>
    readLatch .reqOutCap m.reqOutCap fun outCap =>
    k (h.instr inLen.toNat outCap.toNat)

end Sys2Proof.Machine
end

