-- ==== Sys2Proof/Machine/Events.lean ====
section
/-! DEFINITION. The steps of the host and of the environment (spec/10_state.md R20, R21, R37; spec/20_memory.md R74;
spec/70_reset_and_hazards.md R290 to R300), and those of an instance that no handler takes part in. -/

namespace Sys2Proof.Machine

/-- Receipt, IDLE to RECEIVED (R183): the request latches are written; no buffer byte is read. -/
def Inst.receive (t : Nat) (r : Request) : Inst :=
  { Inst.idle t with
    phase := .received .lookup
    reqOp := some r.op
    reqInLen := some r.inLen
    reqOutCap := some r.outCap
    inBuf := some r.inBase
    outBuf := some r.outBase }

/-- The host presents a request to the instance in focus: accepted in IDLE only (R21, R269). -/
def State.present (s : State) (r : Request) : State :=
  match s.inst.phase with
  | .idle => { s with inst := Inst.receive s.inst.thread r }
  | .received _ => s
  | .validated _ => s
  | .executed _ => s
  | .completed => s
  | .faulted _ => s

/-- The host has taken the response of the instance in focus, COMPLETED to IDLE (R191): every latch returns to no value
(R31). In any other state there is no response to take (log 13). -/
def State.ack (s : State) : State :=
  match s.inst.phase with
  | .completed => { s with inst := Inst.idle s.inst.thread }
  | .idle => s
  | .received _ => s
  | .validated _ => s
  | .executed _ => s
  | .faulted _ => s

/-- The environment changes processor `p` (R37, R298). -/
def State.changeLp (s : State) (p : Nat) (f : Lp → Lp) : State :=
  { s with env := s.env.setLp p (f (s.env.lp p)) }

/-- A step of the host, of the environment, or the reset (R74, R290). A `run` brings the thread's instance into focus;
its step follows. -/
def State.apply (s : State) (e : Event) : State :=
  match e with
  | .run t => s.focus t
  | .present t r => (s.focus t).present r
  | .ack t => (s.focus t).ack
  | .poke a b => { s with callerMem := s.callerMem.update a b }
  | .setMsr p a v => s.changeLp p (fun l => l.setMsr a v)
  | .setSeg p r v => s.changeLp p (fun l => l.setSeg r v)
  | .setGdtr p g => s.changeLp p (fun l => { l with gdtr := g })
  | .setMem p a b => s.changeLp p (fun l => { l with mem := l.mem.update a.toNat b })
  | .reset => s.blockReset

end Sys2Proof.Machine
end

