-- ==== Sys2Proof/Machine/Step.lean ====
section
/-! DEFINITION. The step of the whole machine: the next pending step of an agent, or, when none is pending, the next step
of the instance in focus. -/

namespace Sys2Proof.Machine

/-- The next step of the instance in focus (R180, R302). In IDLE and COMPLETED it waits for the host (R182, R191); in
FAULTED it has no step, and the machine reports the fault (R262, R269); otherwise the instruction being served is run,
and a selector that names no handler completes with UNSUPPORTED_OPERATION (R184). -/
def stepInst (s : State) : Out :=
  match s.inst.phase with
  | .idle => .next s
  | .completed => .next s
  | .faulted r => .fault (.hwFault r)
  | _ =>
    fetchInstr s.inst fun i =>
    match i with
    | some i => exec i s
    | none => .next s.lookupNone

/-- One step of the machine (R74). -/
def step (s : State) : Host.Outcome State Fault Refusal :=
  match s.agenda with
  | [] => stepInst s
  | .run t :: es => stepInst (State.apply { s with agenda := es } (.run t))
  | e :: es => .next (State.apply { s with agenda := es } e)

/-- `s` with the instance in focus holding the request whose header has the first bits `w`, just received (R183), its
buffers at address 0 of the caller's memory, and its step next. -/
def State.withFetchWord (s : State) (nbits w : Nat) : State :=
  { s with
    inst := Inst.receive s.inst.thread
      { op := tableWord nbits w 0, inLen := tableWord nbits w 1, outCap := tableWord nbits w 2, inBase := 0, outBase := 0 }
    agenda := .run s.inst.thread :: s.agenda }

end Sys2Proof.Machine
end

