-- ==== Sys2Proof/Machine/Lines.lean ====
section
/-! DEFINITION. The one-line request notation (spec/30_encoding.md R105, R106): every line is exactly one request. The block
does not read it; it is how the spec writes requests down. -/

namespace Sys2Proof.Machine

/-- The mnemonic of a line: one of the three, or a raw selector. -/
inductive LineOp where
  | readMsr | writeMsr | querySegment
  | op (code : Nat)
deriving DecidableEq, Repr

/-- The fields of a line, or its raw input bytes. -/
inductive LineInput where
  | addr (addr : Nat)
  | write (addr low high : Nat)
  | idx (idx : Nat)
  | raw (bytes : List Nat)
deriving DecidableEq, Repr

/-- A request line; an omitted `in_len` or `out_cap` is `none`. -/
structure Line where
  mnemonic : LineOp
  input    : LineInput
  inLen    : Option Nat
  outCap   : Option Nat
deriving DecidableEq, Repr

/-- The selector a mnemonic stands for (R91). -/
def LineOp.selector : LineOp → Nat
  | .readMsr => Config.opcReadMsr.toNat
  | .writeMsr => Config.opcWriteMsr.toNat
  | .querySegment => Config.opcQuerySegment.toNat
  | .op code => code

/-- The handler a mnemonic names. -/
def LineOp.handler (m : LineOp) : Handler := Handler.ofOp (BitVec.ofNat 32 m.selector)

/-- Every field value of an input fits its field (R105). -/
def LineInput.fits : LineInput → Bool
  | .addr a => Nat.blt a (2 ^ 32)
  | .write a lo hi => Nat.blt a (2 ^ 32) && Nat.blt lo (2 ^ 32) && Nat.blt hi (2 ^ 32)
  | .idx i => Nat.blt i (2 ^ 16)
  | .raw bs => bs.all (fun b => Nat.blt b (2 ^ 8))

/-- The declared input length: IN_MIN of the handler where it is omitted (R105). Where the selector names no handler there is
no IN_MIN, and an omitted length is 0 (DESIGN CHOICE, log 19). -/
def Line.lenIn (l : Line) : Nat := l.inLen.getD l.mnemonic.handler.inMin

/-- The declared output capacity: OUT_SIZE of the handler where it is omitted (R105). Where the selector names no handler
there is no OUT_SIZE, and an omitted capacity is 0 (DESIGN CHOICE, log 19). -/
def Line.capOut (l : Line) : Nat := l.outCap.getD l.mnemonic.handler.outSize

/-- Every field value of a line fits its field (R105). -/
def Line.fits (l : Line) : Bool :=
  Nat.blt l.mnemonic.selector (2 ^ 32) && l.input.fits && sizeFits l.lenIn && sizeFits l.capOut

/-- The input bytes of a line (R92 to R94). -/
def LineInput.bytes : LineInput → List Byte
  | .addr a => put32 (BitVec.ofNat 32 a)
  | .write a lo hi => put32 (BitVec.ofNat 32 a) ++ put32 (BitVec.ofNat 32 lo) ++ put32 (BitVec.ofNat 32 hi)
  | .idx i => put16 (BitVec.ofNat 16 i)
  | .raw bs => bs.map (fun b => BitVec.ofNat 8 b)

/-- The request a line encodes (R90, R105), its buffers at the given bases. -/
def Line.request (l : Line) (inBase outBase : Nat) : Request where
  op := BitVec.ofNat 32 l.mnemonic.selector
  inLen := BitVec.ofNat 32 l.lenIn
  outCap := BitVec.ofNat 32 l.capOut
  inBase := inBase
  outBase := outBase

end Sys2Proof.Machine
end

