-- ==== Sys2Proof/Safety.lean ====
section
/-! DEFINITION. The terms in which claims speak of a run: what the host can see, what counts as a safe run, and the
invariant of the machine. -/

namespace Sys2Proof.Machine

/-! ### What can be seen -/

/-- The response, which the host sees in COMPLETED only (spec/20_memory.md R79, spec/30_encoding.md R98). -/
def Inst.response (m : Inst) : Option (Status × U32) :=
  match m.phase, m.status, m.bytesWritten with
  | .completed, some st, some bw => some (st, bw)
  | _, _, _ => none

/-- The fault record (spec/60_exceptions.md R264): visible to the safety predicate, not to the caller. -/
def Inst.faultRecord (m : Inst) : Option FaultRecord :=
  match m.phase with
  | .faulted r => some r
  | _ => none

/-- The request of an instance has ended (spec/70_reset_and_hazards.md R303). -/
def Inst.ended (m : Inst) : Prop := m.phase = .completed ∨ ∃ r, m.phase = .faulted r

/-- The instance is serving a request: RECEIVED, VALIDATED or EXECUTED. -/
def Inst.serving (m : Inst) : Prop :=
  m.fsm = .received ∨ m.fsm = .validated ∨ m.fsm = .executed

/-- The instance is serving instruction `i`: before the lookup, its selector decodes to `i`; from then on, the handler latch
stands for `i`. -/
def Inst.servingInstr (m : Inst) (i : Instr) : Prop :=
  m.serving ∧
  ∃ inLen outCap, m.reqInLen = some inLen ∧ m.reqOutCap = some outCap ∧
    ((m.phase = .received .lookup ∧ ∃ op, m.reqOp = some op ∧ decode [op, inLen, outCap] = .ok i) ∨
      (m.phase ≠ .received .lookup ∧ ∃ h, m.h = some h ∧ h.instr inLen.toNat outCap.toNat = some i))

/-- No instance has taken a hardware fault. -/
def State.faultFree (s : State) : Prop :=
  s.inst.faultRecord = none ∧ ∀ m ∈ s.others, m.faultRecord = none

/-- The MSR address is valid on every logical processor: what a caller must see to (R295). -/
def State.msrSafe (s : State) (a : U32) : Prop := ∀ p, (s.env.lp p).msrValid a = true

/-- The host provides `n` bytes from an address on (R294(a)). -/
def State.provides (s : State) (base n : Nat) : Prop := ∀ k, k < n → (s.callerMem.read (base + k)).isSome

/-- A QUERY_SEGMENT of index `v` has just been received, with sizes and buffers that suffice, and no other agent has a step
pending. -/
def State.hasQuery (s : State) (inBase outBase : Nat) (v : U16) : Prop :=
  s.agenda = [] ∧
  (∃ inLen outCap : U32, s.inst = Inst.receive s.inst.thread ⟨Config.opcQuerySegment, inLen, outCap, inBase, outBase⟩ ∧
    2 ≤ inLen.toNat ∧ 40 ≤ outCap.toNat) ∧
  s.provides outBase 40 ∧ ∀ k, k < 2 → s.callerMem.read (inBase + k) = some (v.extractLsb' (8 * k) 8)

/-- `t` is `s` with its QUERY_SEGMENT completed: SUCCESS, the forty bytes of `image` in the output buffer, and every other
byte of the caller's memory, the environment and the other instances as before. -/
def State.queryAnswered (s t : State) (outBase : Nat) (image : List Byte) : Prop :=
  t.inst.response = some (.success, 40#32) ∧ t.env = s.env ∧ t.others = s.others ∧
  (∀ k, k < 40 → t.callerMem.read (outBase + k) = image[k]?) ∧
  ∀ b, (b < outBase ∨ outBase + 40 ≤ b) → t.callerMem.read b = s.callerMem.read b

/-- Eight bytes of linear memory, little-endian, from an address on, modulo 2^64 (R10). -/
def Lp.holds (l : Lp) (addr raw : U64) : Prop :=
  ∀ k, k < 8 → l.mem.read (addr + BitVec.ofNat 64 k).toNat = some (raw.extractLsb' (8 * k) 8)

/-- The selector's entry is sought in the table: resolution is on, the selector is a global-table one and not null (R233 to
R235). -/
def State.seeks (s : State) (sel : U16) : Prop :=
  s.params.resolveDescriptor = true ∧ sel.extractLsb' 2 1 = 0#1 ∧ sel.extractLsb' 3 13 ≠ 0#13

/-- The offset of the selector's entry in its table (R236). -/
def entryOffset (sel : U16) : Nat := 8 * (sel.extractLsb' 3 13).toNat

/-- The logical processor named by a fault record. -/
def FaultRecord.lp : FaultRecord → Nat
  | .rdmsr _ p => p
  | .wrmsr _ p => p
  | .memread _ p => p

/-! ### The invariant of one instance -/

/-- The request latches hold values (R25). -/
def Inst.requestHeld (m : Inst) : Prop :=
  m.reqOp.isSome ∧ m.reqInLen.isSome ∧ m.reqOutCap.isSome ∧ m.inBuf.isSome ∧ m.outBuf.isSome

/-- The handler latch holds what the dispatch table gives for `op` (R26, R32, R184). -/
def Inst.handlerHeld (m : Inst) : Prop := m.h.isSome ∧ m.h = m.reqOp.map Handler.ofOp

/-- The handler latch names a handler. -/
def Inst.handlerNamed (m : Inst) : Prop := m.handlerHeld ∧ m.h ≠ some .hNone

/-- The declared sizes are short for the handler (R185). -/
def Inst.short (m : Inst) : Bool :=
  match m.h, m.reqInLen, m.reqOutCap with
  | some h, some i, some o => sizesShort h i.toNat o.toNat
  | _, _, _ => true

/-- No operand latch holds a value (R27). -/
def Inst.noOperands (m : Inst) : Prop :=
  m.opMsrAddr = none ∧ m.opLo = none ∧ m.opHi = none ∧ m.opSegIdx = none

/-- Exactly the handler's operand latches hold values (R27, R186). -/
def Inst.operandsHeld (m : Inst) : Prop :=
  match m.h with
  | some .readMsr => m.opMsrAddr.isSome ∧ m.opLo = none ∧ m.opHi = none ∧ m.opSegIdx = none
  | some .writeMsr => m.opMsrAddr.isSome ∧ m.opLo.isSome ∧ m.opHi.isSome ∧ m.opSegIdx = none
  | some .querySegment => m.opMsrAddr = none ∧ m.opLo = none ∧ m.opHi = none ∧ m.opSegIdx.isSome
  | some .hNone => False
  | none => False

/-- No result latch of the descriptor holds a value (R28). -/
def Inst.noView (m : Inst) : Prop :=
  m.resResolved = none ∧ m.resView = none ∧ m.resRawLo = none ∧ m.resRawHi = none

/-- No result latch of an MSR read holds a value (R28). -/
def Inst.noMsr (m : Inst) : Prop := m.resLo = none ∧ m.resHi = none

/-- No result latch holds a value (R28). -/
def Inst.noResults (m : Inst) : Prop := m.noMsr ∧ m.resSel = none ∧ m.noView

/-- The descriptor latches hold a result (R237 to R240): the decode of the raw entry latched beside it, of the width the
entry has; or all zero. -/
def viewConsistent (c : Params) (resolved : BitVec 1) (v : View) (rawLo rawHi : U64) : Prop :=
  if resolved = 1#1 then
    v = decodeDescriptor rawLo rawHi v.wide ∧ (v.wide = 1#1 ↔ entryWide c rawLo = true) ∧ (v.wide = 0#1 → rawHi = 0#64)
  else v = View.zero ∧ rawLo = 0#64 ∧ rawHi = 0#64

/-- Exactly the handler's result latches hold values (R28, R188). -/
def Inst.resultsHeld (m : Inst) (c : Params) : Prop :=
  match m.h with
  | some .readMsr => m.resLo.isSome ∧ m.resHi.isSome ∧ m.resSel = none ∧ m.noView
  | some .writeMsr => m.noResults
  | some .querySegment =>
    m.noMsr ∧ m.resSel.isSome ∧
      ∃ r v lo hi, m.resResolved = some r ∧ m.resView = some v ∧ m.resRawLo = some lo ∧ m.resRawHi = some hi ∧
        viewConsistent c r v lo hi
  | some .hNone => False
  | none => False

/-- The response registers hold no value (R29). -/
def Inst.noResponse (m : Inst) : Prop := m.status = none ∧ m.bytesWritten = none

/-- A MemRead in progress (R124): fewer than eight bytes read, and a processor drawn as soon as there is one. -/
def MemJob.ok (job : MemJob) (numLp : Nat) : Prop :=
  job.got.length < 8 ∧ (job.lp = none ↔ job.got = []) ∧ ∀ p, job.lp = some p → p < numLp

/-- The selector index latched names a segment register (R231). -/
def Inst.indexNamed (m : Inst) : Prop := ∃ v, m.opSegIdx = some v ∧ (segIndex v).isSome = true

/-- The result latches and the locals agree with the step reached in VALIDATED (R230). -/
def Inst.executing (m : Inst) (c : Params) (numLp : Nat) : ExecStep → Prop
  | .start => m.noResults
  | .sgdt => m.h = some .querySegment ∧ m.indexNamed ∧ m.noMsr ∧ m.resSel.isSome ∧ m.noView
  | .readLo _ _ job =>
    m.h = some .querySegment ∧ m.indexNamed ∧ m.noMsr ∧ m.resSel.isSome ∧ m.noView ∧ job.ok numLp
  | .readHi rawLo job =>
    m.h = some .querySegment ∧ m.indexNamed ∧ m.noMsr ∧ m.resSel.isSome ∧ m.noView ∧ job.ok numLp ∧
      entryWide c rawLo = true

/-- The fault record is one that the handler can raise (R263), of a processor that exists (R264). -/
def Inst.faultOf (m : Inst) (numLp : Nat) : FaultRecord → Prop
  | .rdmsr a p => m.h = some .readMsr ∧ m.opMsrAddr = some a ∧ p < numLp
  | .wrmsr a p => m.h = some .writeMsr ∧ m.opMsrAddr = some a ∧ p < numLp
  | .memread _ p => m.h = some .querySegment ∧ p < numLp

/-- The response is the one that the order of the checks gives (R189, R190, R193, R195). -/
def Inst.responseHeld (m : Inst) (c : Params) : Prop :=
  match m.status with
  | some .unsupportedOperation => m.h = some .hNone ∧ m.bytesWritten = some 0#32 ∧ m.noOperands ∧ m.noResults
  | some .bufferTooSmall =>
    m.h ≠ some .hNone ∧ m.short = true ∧ m.bytesWritten = some 0#32 ∧ m.noOperands ∧ m.noResults
  | some .invalidOperand =>
    m.short = false ∧ m.h = some .querySegment ∧ m.operandsHeld ∧ ¬ m.indexNamed ∧ m.bytesWritten = some 0#32 ∧
      m.noResults
  | some .success =>
    m.short = false ∧ m.operandsHeld ∧ m.resultsHeld c ∧
      m.bytesWritten = m.h.map (fun h => BitVec.ofNat 32 h.outSize)
  | none => False

/-- The latches agree with the dispatcher state (R25 to R31, R180). -/
def Inst.ok (m : Inst) (c : Params) (numLp : Nat) : Prop :=
  match m.phase with
  | .idle => m = Inst.idle m.thread
  | .received .lookup => m.requestHeld ∧ m.h = none ∧ m.noOperands ∧ m.noResults ∧ m.noResponse
  | .received .gate => m.requestHeld ∧ m.handlerNamed ∧ m.noOperands ∧ m.noResults ∧ m.noResponse
  | .received .latch =>
    m.requestHeld ∧ m.handlerNamed ∧ m.short = false ∧ m.noOperands ∧ m.noResults ∧ m.noResponse
  | .validated w =>
    m.requestHeld ∧ m.handlerNamed ∧ m.short = false ∧ m.operandsHeld ∧ m.executing c numLp w ∧ m.noResponse
  | .executed n =>
    m.requestHeld ∧ m.handlerNamed ∧ m.short = false ∧ m.operandsHeld ∧ m.resultsHeld c ∧ m.noResponse ∧
      ∃ h, m.h = some h ∧ n ≤ h.outSize
  | .completed => m.requestHeld ∧ m.handlerHeld ∧ m.responseHeld c
  | .faulted r =>
    m.requestHeld ∧ m.handlerNamed ∧ m.short = false ∧ m.operandsHeld ∧ m.noResponse ∧ m.faultOf numLp r

/-! ### The invariant of the machine -/

/-- The threads of the instances, the one in focus first. -/
def State.threads (s : State) : List Nat := s.inst.thread :: s.others.map (fun m => m.thread)

/-- Every memory is in its canonical form. -/
def State.memoriesWf (s : State) : Prop :=
  Memory.wf s.callerMem = true ∧ ∀ p, Memory.wf (s.env.lp p).mem = true

/-- The invariant: every instance's latches agree with its dispatcher state, one instance a thread (R20(a)), every memory in
its canonical form, SEG_MAP a bijection (R232). -/
structure State.Inv (s : State) : Prop where
  focused : s.inst.ok s.params s.env.numLp
  others : ∀ m ∈ s.others, m.ok s.params s.env.numLp
  threads : s.threads.Nodup
  memories : s.memoriesWf
  segMap : s.params.wf = true

end Sys2Proof.Machine
end

