-- ==== Sys2Proof/Certificates/Slice0/Obligations.lean ====
section
/-! DEFINITION. The statements about ost-ddmd. Where a statement says "for every state", it holds for every draw of a
logical processor (`nextLp` is whatever the state makes it, spec/40_primitives.md R127) and for every setting of the
parameters. -/

open Sys2Proof Sys2Proof.Machine

/-! ### Encoding -/

/-- R91: the three selectors name the three instructions, whatever the declared sizes. -/
def Obligations.ThreeSelectorsDecode : Prop :=
  ∀ inLen outCap : U32,
    decode [0x00000001#32, inLen, outCap] = .ok (.readMsr inLen.toNat outCap.toNat) ∧
    decode [0x00000002#32, inLen, outCap] = .ok (.writeMsr inLen.toNat outCap.toNat) ∧
    decode [0x00000003#32, inLen, outCap] = .ok (.querySegment inLen.toNat outCap.toNat)

/-- R91, R101: every other selector is rejected by name. That the selector is the first of exactly three words, so that no
other list of words is a request, is the model's header (DESIGN CHOICE, log 10). -/
def Obligations.OtherSelectorsAreRejected : Prop :=
  (∀ op inLen outCap : U32, op ≠ 0x00000001#32 → op ≠ 0x00000002#32 → op ≠ 0x00000003#32 →
    decode [op, inLen, outCap] = .error (.unsupportedOperation op)) ∧
  ∀ w : List U32, w.length ≠ 3 → decode w = .error .notARequest

/-- R90, R91: the decoder and the encoder are inverse: a header decodes to an instruction exactly when the instruction is
well formed and the header is its encoding. The order of the three words is the model's (log 10). -/
def Obligations.DecodeExactlyInvertsEncode : Prop :=
  ∀ (w : List U32) (i : Instr), decode w = .ok i ↔ i.wf = true ∧ w = encode i

/-- R63, R92, R93, R94, R105: the input bytes a request line encodes are assembled back to the line's fields. -/
def Obligations.LineOperandsAreReassembled : Prop :=
  (∀ a m, (LineInput.addr a).fits = true →
    ∃ v, (latchOperands .readMsr (LineInput.addr a).bytes m).opMsrAddr = some v ∧ v.toNat = a) ∧
  (∀ a lo hi m, (LineInput.write a lo hi).fits = true →
    ∃ va vl vh, (latchOperands .writeMsr (LineInput.write a lo hi).bytes m).opMsrAddr = some va ∧
      (latchOperands .writeMsr (LineInput.write a lo hi).bytes m).opLo = some vl ∧
      (latchOperands .writeMsr (LineInput.write a lo hi).bytes m).opHi = some vh ∧
      va.toNat = a ∧ vl.toNat = lo ∧ vh.toNat = hi) ∧
  ∀ i m, (LineInput.idx i).fits = true →
    ∃ v, (latchOperands .querySegment (LineInput.idx i).bytes m).opSegIdx = some v ∧ v.toNat = i

/-! ### The step runs the instruction -/

/-- The step at an instance that is serving an instruction is `exec` of that instruction: with nothing pending, at the
instance in focus; with a `run` pending, at the instance of its thread, the `run` used up. -/
def Obligations.StepRunsTheInstructionServed : Prop :=
  (∀ (s : State) (i : Instr), s.agenda = [] → s.inst.servingInstr i → step s = exec i s) ∧
  ∀ (s : State) (t : Nat) (es : List Event) (i : Instr), s.agenda = .run t :: es →
    (State.focus { s with agenda := es } t).inst.servingInstr i →
    step s = exec i (State.focus { s with agenda := es } t)

/-! ### The dispatcher -/

/-- R184: the lookup. A selector of the dispatch table latches its handler; any other completes the request with
UNSUPPORTED_OPERATION; nothing else changes, no primitive runs and no buffer byte is read. -/
def Obligations.LookupStep : Prop :=
  ∀ (s : State) (op inLen outCap : U32), s.agenda = [] → s.inst.phase = .received .lookup →
    s.inst.reqOp = some op → s.inst.reqInLen = some inLen → s.inst.reqOutCap = some outCap →
    step s = .next { s with inst :=
      if op = 0x00000001#32 then { s.inst with h := some .readMsr, phase := .received .gate }
      else if op = 0x00000002#32 then { s.inst with h := some .writeMsr, phase := .received .gate }
      else if op = 0x00000003#32 then { s.inst with h := some .querySegment, phase := .received .gate }
      else { s.inst with
        h := some .hNone, status := some .unsupportedOperation, bytesWritten := some 0#32, phase := .completed } }

/-- R185: the size gate, for each instruction with its sizes of R181: BUFFER_TOO_SMALL exactly where a declared size is
short; nothing else changes, no primitive runs and no buffer byte is read. -/
def Obligations.SizeGateStep : Prop :=
  ∀ (s : State) (inLen outCap : Nat), s.inst.phase = .received .gate →
    let tooSmall : Inst :=
      { s.inst with status := some .bufferTooSmall, bytesWritten := some 0#32, phase := .completed }
    let passed : Inst := { s.inst with phase := .received .latch }
    exec (.readMsr inLen outCap) s = .next { s with inst := if inLen < 4 ∨ outCap < 8 then tooSmall else passed } ∧
    exec (.writeMsr inLen outCap) s = .next { s with inst := if inLen < 12 then tooSmall else passed } ∧
    exec (.querySegment inLen outCap) s =
      .next { s with inst := if inLen < 2 ∨ outCap < 40 then tooSmall else passed }

/-- R186 with the layouts of R92 to R94: where the host provides the handler's input bytes, exactly its operand latches are
written, little-endian, and the request is VALIDATED. -/
def Obligations.OperandLatchingStep : Prop :=
  ∀ (s : State) (inLen outCap base : Nat) (b : Nat → Byte), s.inst.phase = .received .latch →
    s.inst.inBuf = some base →
    ((∀ k, k < 4 → s.callerMem.read (base + k) = some (b k)) →
      exec (.readMsr inLen outCap) s = .next { s with inst := { s.inst with
        opMsrAddr := some (b 3 ++ b 2 ++ b 1 ++ b 0), phase := .validated .start } }) ∧
    ((∀ k, k < 12 → s.callerMem.read (base + k) = some (b k)) →
      exec (.writeMsr inLen outCap) s = .next { s with inst := { s.inst with
        opMsrAddr := some (b 3 ++ b 2 ++ b 1 ++ b 0), opLo := some (b 7 ++ b 6 ++ b 5 ++ b 4),
        opHi := some (b 11 ++ b 10 ++ b 9 ++ b 8), phase := .validated .start } }) ∧
    ((∀ k, k < 2 → s.callerMem.read (base + k) = some (b k)) →
      exec (.querySegment inLen outCap) s = .next { s with inst := { s.inst with
        opSegIdx := some (b 1 ++ b 0), phase := .validated .start } })

/-- The model's choice for a host outside the model (R294(a), I16; log 4): reaching a declared input byte that is not
provided refuses, and names an address of the input that holds no byte. -/
def Obligations.MissingInputIsRefused : Prop :=
  ∀ (s : State) (i : Instr) (base : Nat), s.inst.phase = .received .latch → s.inst.inBuf = some base →
    (∃ k, k < (instrHandler i).inMin ∧ s.callerMem.read (base + k) = none) →
    ∃ k, k < (instrHandler i).inMin ∧ s.callerMem.read (base + k) = none ∧
      exec i s = .refused (.bufferNotProvided (base + k))

/-- R190: when every result byte is written the request completes with SUCCESS and OUT_SIZE(h), and nothing else
changes. -/
def Obligations.SuccessResponse : Prop :=
  ∀ (s : State) (inLen outCap : Nat),
    (s.inst.phase = .executed 8 → exec (.readMsr inLen outCap) s = .next { s with inst := { s.inst with
      status := some .success, bytesWritten := some 8#32, phase := .completed } }) ∧
    (s.inst.phase = .executed 0 → exec (.writeMsr inLen outCap) s = .next { s with inst := { s.inst with
      status := some .success, bytesWritten := some 0#32, phase := .completed } }) ∧
    (s.inst.phase = .executed 40 → exec (.querySegment inLen outCap) s = .next { s with inst := { s.inst with
      status := some .success, bytesWritten := some 40#32, phase := .completed } })

/-! ### READ_MSR and WRITE_MSR -/

/-- R120 as READ_MSR runs it, where the address is valid on the processor drawn: the halves of the MSR's value are latched.
Nothing else changes but that the draw is used up. -/
def Obligations.ReadMsrExecutes : Prop :=
  ∀ (s : State) (inLen outCap : Nat) (a : U32) (v : U64), s.inst.phase = .validated .start →
    s.inst.opMsrAddr = some a → (s.env.lp s.nextLp).msr a = some v →
    s.nextLp < s.env.numLp ∧
    exec (.readMsr inLen outCap) s = .next { s with
      draws := s.draws.tail
      drawCount := s.drawCount + 1
      inst := { s.inst with
        resLo := some (v.extractLsb' 0 32), resHi := some (v.extractLsb' 32 32), phase := .executed 0 } }

/-- R120: where the address is invalid on the processor drawn, the request is FAULTED with the record (RDMSR, a, p).
Nothing else changes but that the draw is used up. -/
def Obligations.ReadMsrInvalidFaults : Prop :=
  ∀ (s : State) (inLen outCap : Nat) (a : U32), s.inst.phase = .validated .start →
    s.inst.opMsrAddr = some a → (s.env.lp s.nextLp).msrValid a = false →
    exec (.readMsr inLen outCap) s = .next { s with
      draws := s.draws.tail
      drawCount := s.drawCount + 1
      inst := { s.inst with phase := .faulted (.rdmsr a s.nextLp) } }

/-- R95 with R190: READ_MSR writes its result a byte a step, byte `n` of the MSR value at `out[n]`; every other byte of the
caller's memory reads as before, and nothing else changes. Where the host does not provide that byte the step is refused,
the model's choice (log 4); so is the order of the bytes (log 18). -/
def Obligations.ReadMsrWritesItsResult : Prop :=
  ∀ (s : State) (inLen outCap n base : Nat) (lo hi : U32), s.inst.phase = .executed n → n < 8 →
    s.inst.outBuf = some base → s.inst.resLo = some lo → s.inst.resHi = some hi →
    ((s.callerMem.read (base + n)).isSome = true →
      ∃ t, exec (.readMsr inLen outCap) s = .next t ∧
        (∀ a, t.callerMem.read a =
          if a = base + n then some ((hi ++ lo : BitVec (32 + 32)).extractLsb' (8 * n) 8) else s.callerMem.read a) ∧
        t = { s with callerMem := t.callerMem, inst := { s.inst with phase := .executed (n + 1) } }) ∧
    (s.callerMem.read (base + n) = none → exec (.readMsr inLen outCap) s = .refused (.bufferNotProvided (base + n)))

/-- R121 as WRITE_MSR runs it, where the processor drawn accepts the address and the value: that processor's MSR holds
`high : low`; every other MSR, of every processor, every segment register, GDTR and memory byte is as before, and no result
latch is written. -/
def Obligations.WriteMsrExecutes : Prop :=
  ∀ (s : State) (inLen outCap : Nat) (a lo hi : U32), s.inst.phase = .validated .start →
    s.inst.opMsrAddr = some a → s.inst.opLo = some lo → s.inst.opHi = some hi →
    (s.env.lp s.nextLp).msrValid a = true → (a, (hi ++ lo : BitVec (32 + 32))) ∉ (s.env.lp s.nextLp).rejects →
    ∃ t, exec (.writeMsr inLen outCap) s = .next t ∧
      t = { s with
        env := t.env
        draws := s.draws.tail
        drawCount := s.drawCount + 1
        inst := { s.inst with phase := .executed 0 } } ∧
      t.env.numLp = s.env.numLp ∧
      ∀ p, p < s.env.numLp →
        (∀ b, (t.env.lp p).msr b =
          if p = s.nextLp ∧ b = a then some (hi ++ lo : BitVec (32 + 32)) else (s.env.lp p).msr b) ∧
        (∀ r, (t.env.lp p).seg r = (s.env.lp p).seg r) ∧
        (t.env.lp p).gdtr = (s.env.lp p).gdtr ∧ (t.env.lp p).rejects = (s.env.lp p).rejects ∧
        (t.env.lp p).mem = (s.env.lp p).mem

/-- R121: where the processor drawn rejects the address or the value, the request is FAULTED with the record
(WRMSR, a, p), and the environment, its MSRs among it, is unchanged. -/
def Obligations.WriteMsrRejectedFaults : Prop :=
  ∀ (s : State) (inLen outCap : Nat) (a lo hi : U32), s.inst.phase = .validated .start →
    s.inst.opMsrAddr = some a → s.inst.opLo = some lo → s.inst.opHi = some hi →
    ((s.env.lp s.nextLp).msrValid a = false ∨ (a, (hi ++ lo : BitVec (32 + 32))) ∈ (s.env.lp s.nextLp).rejects) →
    exec (.writeMsr inLen outCap) s = .next { s with
      draws := s.draws.tail
      drawCount := s.drawCount + 1
      inst := { s.inst with phase := .faulted (.wrmsr a s.nextLp) } }

/-- R70, R214 at the port: writing back the value just read, on the same processor, leaves every MSR of every processor
reading as it did, so a second read answers the same. -/
def Obligations.WriteBackIsIdempotent : Prop :=
  ∀ (s : State) (a lo hi : U32) (e : Env), primRdmsr a s = .ok (lo, hi) → primWrmsr a lo hi s = .ok e →
    primRdmsr a { s with env := e } = .ok (lo, hi) ∧
    ∀ p, p < s.env.numLp → ∀ b, (e.lp p).msr b = (s.env.lp p).msr b

/-! ### QUERY_SEGMENT -/

/-- R231, R187, R188: an index of 6 to 65535 fails with INVALID_OPERAND before any primitive runs, with nothing else changed;
an index of 0 to 5 passes, and no response is written. That the first primitive runs in the step of the check is the
model's reading (DEDUCED, log 8). -/
def Obligations.SegmentIndexChecked : Prop :=
  ∀ (s : State) (inLen outCap : Nat) (v : U16), s.inst.phase = .validated .start → s.inst.opSegIdx = some v →
    (6 ≤ v.toNat → exec (.querySegment inLen outCap) s = .next { s with inst := { s.inst with
      status := some .invalidOperand, bytesWritten := some 0#32, phase := .completed } }) ∧
    (v.toNat ≤ 5 → ∃ t, exec (.querySegment inLen outCap) s = .next t ∧ t.inst.status = s.inst.status ∧
      t.inst.bytesWritten = s.inst.bytesWritten ∧ t.inst.phase ≠ .completed ∧ t.drawCount = s.drawCount + 1)

/-- R232 to R235: the selector read through SEG_MAP from the processor drawn, latched, and left unresolved (R240) where
resolution is off, the selector is a local-table one, or it is null; otherwise SGDT is next. -/
def Obligations.SelectorIsRead : Prop :=
  ∀ (s : State) (inLen outCap : Nat) (v : U16) (hv : v.toNat < 6), s.inst.phase = .validated .start →
    s.inst.opSegIdx = some v →
    let sel := (s.env.lp s.nextLp).seg (s.params.segMap[v.toNat]'hv)
    exec (.querySegment inLen outCap) s = .next { s with
      draws := s.draws.tail
      drawCount := s.drawCount + 1
      inst :=
        if s.params.resolveDescriptor = false ∨ sel.extractLsb' 2 1 = 1#1 ∨ sel.extractLsb' 3 13 = 0#13 then
          { s.inst with
            resSel := some sel, resResolved := some 0#1, resRawLo := some 0#64, resRawHi := some 0#64,
            resView := some ⟨0, 0, 0, 0, 0, 0, 0, 0, 0, 0, 0⟩, phase := .executed 0 }
        else { s.inst with resSel := some sel, phase := .validated .sgdt } }

/-- R236: the table bounds. With the GDTR of the processor drawn, an entry not wholly inside the table is unresolved (R240)
and no memory is read; otherwise the first MemRead starts at `base + 8 * index`, modulo 2^64. -/
def Obligations.TableBoundsAreChecked : Prop :=
  ∀ (s : State) (inLen outCap : Nat) (sel : U16), s.inst.phase = .validated .sgdt → s.inst.resSel = some sel →
    let g := (s.env.lp s.nextLp).gdtr
    let off := 8 * (sel.extractLsb' 3 13).toNat
    exec (.querySegment inLen outCap) s = .next { s with
      draws := s.draws.tail
      drawCount := s.drawCount + 1
      inst :=
        if off + 7 > g.limit.toNat then
          { s.inst with
            resResolved := some 0#1, resRawLo := some 0#64, resRawHi := some 0#64,
            resView := some ⟨0, 0, 0, 0, 0, 0, 0, 0, 0, 0, 0⟩, phase := .executed 0 }
        else { s.inst with phase := .validated (.readLo g.limit (BitVec.ofNat 64 off)
          { addr := g.base + BitVec.ofNat 64 off, lp := none, got := [] }) } }

/-- R124 with R68: one byte of a MemRead, in either half of the entry. The processor is drawn with the first byte and kept
(DEDUCED, log 6); the bytes are read lowest address first (DESIGN CHOICE, log 20), the address taken modulo 2^64. Where the translation of a byte, the eighth among them, faults, the
request is FAULTED with the record (MEMREAD, addr, p) of the MemRead (DEDUCED, log 15); a byte that is not the last is added
to those read. Nothing else changes. -/
def Obligations.DescriptorByteIsRead : Prop :=
  ∀ (s : State) (inLen outCap : Nat) (job : MemJob) (glim : U16) (off rawLo : U64), job.got.length < 8 →
    (s.inst.phase = .validated (.readLo glim off job) ∨ s.inst.phase = .validated (.readHi rawLo job)) →
    let p := job.lp.getD s.nextLp
    let read := (s.env.lp p).mem.read (job.addr + BitVec.ofNat 64 job.got.length).toNat
    let used (ph : Phase) : State := { s with
      draws := if job.lp.isNone then s.draws.tail else s.draws
      drawCount := if job.lp.isNone then s.drawCount + 1 else s.drawCount
      inst := { s.inst with phase := ph } }
    (read = none → exec (.querySegment inLen outCap) s = .next (used (.faulted (.memread job.addr p)))) ∧
    ∀ b, read = some b → job.got.length < 7 →
      let more : MemJob := { addr := job.addr, lp := some p, got := job.got ++ [b] }
      (s.inst.phase = .validated (.readLo glim off job) →
        exec (.querySegment inLen outCap) s = .next (used (.validated (.readLo glim off more)))) ∧
      (s.inst.phase = .validated (.readHi rawLo job) →
        exec (.querySegment inLen outCap) s = .next (used (.validated (.readHi rawLo more))))

/-- R237, R238, R239: the last byte of the first half, the one at the highest address (DESIGN CHOICE, log 20). A narrow entry is decoded and latched with `raw_hi` 0; a wide one
(LONG_MODE and S = 0) is unresolved where its second half lies past the limit, and otherwise the second MemRead starts eight
bytes further on. `off` stands for any offset the table lookup of R236 can give. -/
def Obligations.FirstHalfIsFinished : Prop :=
  ∀ (s : State) (inLen outCap : Nat) (job : MemJob) (glim : U16) (off : U64) (b0 b1 b2 b3 b4 b5 b6 b : Byte),
    job.got = [b0, b1, b2, b3, b4, b5, b6] → off.toNat < 2 ^ 16 →
    s.inst.phase = .validated (.readLo glim off job) →
    (s.env.lp (job.lp.getD s.nextLp)).mem.read (job.addr + 7#64).toNat = some b →
    let rawLo : U64 := b ++ b6 ++ b5 ++ b4 ++ b3 ++ b2 ++ b1 ++ b0
    exec (.querySegment inLen outCap) s = .next { s with
      draws := if job.lp.isNone then s.draws.tail else s.draws
      drawCount := if job.lp.isNone then s.drawCount + 1 else s.drawCount
      inst :=
        if s.params.longMode = true ∧ rawLo.extractLsb' 44 1 = 0#1 then
          if off.toNat + 15 > glim.toNat then
            { s.inst with
              resResolved := some 0#1, resRawLo := some 0#64, resRawHi := some 0#64,
              resView := some ⟨0, 0, 0, 0, 0, 0, 0, 0, 0, 0, 0⟩, phase := .executed 0 }
          else { s.inst with phase := .validated (.readHi rawLo { addr := job.addr + 8#64, lp := none, got := [] }) }
        else { s.inst with
          resView := some (decodeDescriptor rawLo 0#64 0#1), resRawLo := some rawLo, resRawHi := some 0#64,
          resResolved := some 1#1, phase := .executed 0 } }

/-- R238, R239: the last byte of the second half, the one at the highest address (DESIGN CHOICE, log 20): the wide entry is
decoded and latched. -/
def Obligations.SecondHalfIsFinished : Prop :=
  ∀ (s : State) (inLen outCap : Nat) (job : MemJob) (rawLo : U64) (b0 b1 b2 b3 b4 b5 b6 b : Byte),
    job.got = [b0, b1, b2, b3, b4, b5, b6] → s.inst.phase = .validated (.readHi rawLo job) →
    (s.env.lp (job.lp.getD s.nextLp)).mem.read (job.addr + 7#64).toNat = some b →
    let rawHi : U64 := b ++ b6 ++ b5 ++ b4 ++ b3 ++ b2 ++ b1 ++ b0
    exec (.querySegment inLen outCap) s = .next { s with
      draws := if job.lp.isNone then s.draws.tail else s.draws
      drawCount := if job.lp.isNone then s.drawCount + 1 else s.drawCount
      inst := { s.inst with
        resView := some (decodeDescriptor rawLo rawHi 1#1), resRawLo := some rawLo, resRawHi := some rawHi,
        resResolved := some 1#1, phase := .executed 0 } }

/-- R241 with R190: QUERY_SEGMENT writes its forty bytes a byte a step from the result latches; every other byte of the
caller's memory reads as before, and nothing else changes. Where the host does not provide the byte the step is refused,
the model's choice (log 4); so is the order of the bytes of one field (log 18). -/
def Obligations.QuerySegmentWritesItsResult : Prop :=
  ∀ (s : State) (inLen outCap n base : Nat) (sel : U16) (r : BitVec 1) (v : View) (rawLo rawHi : U64),
    s.inst.phase = .executed n → n < 40 → s.inst.outBuf = some base → s.inst.resSel = some sel →
    s.inst.resResolved = some r → s.inst.resView = some v → s.inst.resRawLo = some rawLo →
    s.inst.resRawHi = some rawHi →
    ((s.callerMem.read (base + n)).isSome = true →
      ∃ t byte, (querySegmentImage sel r v rawLo rawHi)[n]? = some byte ∧
        exec (.querySegment inLen outCap) s = .next t ∧
        (∀ a, t.callerMem.read a = if a = base + n then some byte else s.callerMem.read a) ∧
        t = { s with callerMem := t.callerMem, inst := { s.inst with phase := .executed (n + 1) } }) ∧
    (s.callerMem.read (base + n) = none → exec (.querySegment inLen outCap) s = .refused (.bufferNotProvided (base + n)))

/-- R97: the forty bytes of the QUERY_SEGMENT output, field by field at the offsets of the table. -/
def Obligations.QuerySegmentOutputLayout : Prop :=
  ∀ (sel : U16) (r : BitVec 1) (v : View) (rawLo rawHi : U64),
    let out := querySegmentImage sel r v rawLo rawHi
    out.length = 40 ∧ le16 out 0 = sel ∧ out[2]? = some (r.setWidth 8) ∧ out[3]? = some (v.wide.setWidth 8) ∧
    le32 out 4 = v.limit.setWidth 32 ∧ le64 (out.drop 8) = v.base ∧
    out[16]? = some (v.typ.setWidth 8) ∧ out[17]? = some (v.s.setWidth 8) ∧ out[18]? = some (v.dpl.setWidth 8) ∧
    out[19]? = some (v.p.setWidth 8) ∧ out[20]? = some (v.avl.setWidth 8) ∧ out[21]? = some (v.l.setWidth 8) ∧
    out[22]? = some (v.db.setWidth 8) ∧ out[23]? = some (v.g.setWidth 8) ∧
    le64 (out.drop 24) = rawLo ∧ le64 (out.drop 32) = rawHi

/-! ### The decoders -/

/-- R142: the limit is `limitLow | (limitHigh << 16)`, with `limitLow` the entry bits 15:0 and `limitHigh` the entry bits
51:48. -/
def Obligations.LimitIsReassembled : Prop :=
  ∀ (rawLo rawHi : U64) (wide : BitVec 1),
    (decodeDescriptor rawLo rawHi wide).limit.toNat =
      rawLo.toNat % 2 ^ 16 + 2 ^ 16 * (rawLo.toNat / 2 ^ 48 % 2 ^ 4)

/-- R143 to R149, R151, R154: the other fields, bit by bit. All positions but that of base[31:24] are the spec's own, from
general knowledge (D15, G1; log 16). -/
def Obligations.FieldsAreDecoded : Prop :=
  ∀ (rawLo rawHi : U64) (wide : BitVec 1),
    let v := decodeDescriptor rawLo rawHi wide
    (∀ k, k < 24 → v.base.getLsbD k = rawLo.getLsbD (k + 16)) ∧
    (∀ k, 24 ≤ k → k < 32 → v.base.getLsbD k = rawLo.getLsbD (k + 32)) ∧
    (∀ k, 32 ≤ k → k < 64 → v.base.getLsbD k = (decide (wide = 1#1) && rawHi.getLsbD (k - 32))) ∧
    (∀ k, k < 4 → v.typ.getLsbD k = rawLo.getLsbD (k + 40)) ∧
    v.s.getLsbD 0 = rawLo.getLsbD 44 ∧
    (∀ k, k < 2 → v.dpl.getLsbD k = rawLo.getLsbD (k + 45)) ∧
    v.p.getLsbD 0 = rawLo.getLsbD 47 ∧ v.avl.getLsbD 0 = rawLo.getLsbD 52 ∧ v.l.getLsbD 0 = rawLo.getLsbD 53 ∧
    v.db.getLsbD 0 = rawLo.getLsbD 54 ∧ v.g.getLsbD 0 = rawLo.getLsbD 55 ∧ v.wide = wide

/-- R161: decoding the encoding of a view in Encode's domain gives the view back. -/
def Obligations.DecodeOfEncodedView : Prop :=
  ∀ v : View, v.encodable = true → decodeDescriptor (encodeLo v) (encodeHi v) v.wide = v

/-- R162: encoding a decoded entry gives `raw_lo` back, and of `raw_hi` the low half where the entry is wide, else 0. -/
def Obligations.EncodeOfDecodedEntry : Prop :=
  ∀ (rawLo rawHi : U64) (wide : BitVec 1),
    encodeLo (decodeDescriptor rawLo rawHi wide) = rawLo ∧
    (encodeHi (decodeDescriptor rawLo rawHi wide)).toNat = if wide = 1#1 then rawHi.toNat % 2 ^ 32 else 0

/-- R152: `raw_hi` has no effect on a narrow view, its high half none on a wide one, and two entries with the same view have
the same `raw_lo`. -/
def Obligations.IgnoredEntryBits : Prop :=
  ∀ (rawLo rawLo' rawHi rawHi' : U64),
    decodeDescriptor rawLo rawHi 0#1 = decodeDescriptor rawLo rawHi' 0#1 ∧
    (rawHi.toNat % 2 ^ 32 = rawHi'.toNat % 2 ^ 32 →
      decodeDescriptor rawLo rawHi 1#1 = decodeDescriptor rawLo rawHi' 1#1) ∧
    ∀ wide, decodeDescriptor rawLo rawHi wide = decodeDescriptor rawLo' rawHi' wide → rawLo = rawLo'

/-- R150, R159, R243: a selector is its three fields put together again, and its index is below 2^13. -/
def Obligations.SelectorFields : Prop :=
  ∀ sel : U16,
    (selDecode sel).index.toNat < 2 ^ 13 ∧ ((selDecode sel).ti = 0#1 ∨ (selDecode sel).ti = 1#1) ∧
    sel.toNat = 8 * (selDecode sel).index.toNat + 4 * (selDecode sel).ti.toNat + (selDecode sel).rpl.toNat

/-- R155, R157, R158: for a present code or data descriptor `type` reads as code exactly where bit 3 is 1, as data exactly
where it is 0, with the three lower bits as its properties; for a descriptor that is not present, and for a system
descriptor, it has no reading. -/
def Obligations.TypeReadings : Prop :=
  ∀ v : View,
    (v.typeReading = none ↔ v.p = 0#1 ∨ v.s = 0#1) ∧
    (∀ e w a, v.typeReading = some (.data e w a) ↔ v.p = 1#1 ∧ v.s = 1#1 ∧ v.typ = 0#1 ++ e ++ w ++ a) ∧
    ∀ c r a, v.typeReading = some (.code c r a) ↔ v.p = 1#1 ∧ v.s = 1#1 ∧ v.typ = 1#1 ++ c ++ r ++ a

/-! ### Values -/

/-- R35: an MSR value is its halves, `(high << 32) | low`, and a value's halves put it together again. -/
def Obligations.MsrValueHalves : Prop :=
  (∀ low high : U32, (msrValue low high).toNat = high.toNat * 2 ^ 32 + low.toNat) ∧
  ∀ v : U64, msrValue (msrLow v) (msrHigh v) = v ∧ (msrLow v).toNat = v.toNat % 2 ^ 32 ∧
    (msrHigh v).toNat = v.toNat / 2 ^ 32

/-! ### The paths of a request -/

/-- R180, R182, R191, R269. First, under the invariant, in every step but a reset, the dispatcher state of each instance stays
or moves along an edge of the paths. Only a request of the host to it takes an instance out of IDLE, and only an
acknowledgement out of COMPLETED. Each way into COMPLETED has its statuses: UNSUPPORTED_OPERATION or BUFFER_TOO_SMALL from
RECEIVED, INVALID_OPERAND from VALIDATED, SUCCESS from EXECUTED. FAULTED has no edge out. Then, in any state, an instance in
IDLE or in COMPLETED has no step of its own and waits for the host: asked for a step (the model's scheduling, DESIGN CHOICE,
log 7), as the instruction's meaning, as the instance in focus or by its thread, it stays exactly as it is, as do all the
other instances, the parameters, the environment and the caller's memory. -/
def Obligations.StepsFollowThePaths : Prop :=
  (∀ (s t : State) (th : Nat), s.Inv → step s = .next t → (∀ es, s.agenda ≠ .reset :: es) →
    let a := (s.instAt th).fsm
    let b := (t.instAt th).fsm
    let st := (t.instAt th).status
    b = a ∨
    (a = .idle ∧ b = .received ∧ ∃ r es, s.agenda = .present th r :: es) ∨
    (a = .received ∧ b = .validated) ∨
    (a = .received ∧ b = .completed ∧ (st = some .unsupportedOperation ∨ st = some .bufferTooSmall)) ∨
    (a = .validated ∧ b = .completed ∧ st = some .invalidOperand) ∨
    (a = .validated ∧ b = .executed) ∨
    (a = .validated ∧ b = .faulted) ∨
    (a = .executed ∧ b = .completed ∧ st = some .success) ∨
    (a = .completed ∧ b = .idle ∧ ∃ es, s.agenda = .ack th :: es)) ∧
  ∀ s : State,
    (s.inst.phase = .idle ∨ s.inst.phase = .completed →
      (∀ i, exec i s = .next s) ∧ (s.agenda = [] → step s = .next s)) ∧
    ∀ (t : Nat) (es : List Event), s.agenda = .run t :: es →
      ((s.instAt t).phase = .idle ∨ (s.instAt t).phase = .completed) →
      ∃ u, step s = .next u ∧ (∀ th, u.instAt th = s.instAt th) ∧ u.params = s.params ∧ u.env = s.env ∧
        u.callerMem = s.callerMem ∧ u.agenda = es ∧ u.draws = s.draws ∧ u.drawCount = s.drawCount

/-! ### The host, the environment and reset -/

/-- R183: receipt. A request presented to an idle instance is latched, `fsm` is RECEIVED, every other latch holds no value,
and neither the caller's memory nor the environment is touched. -/
def Obligations.RequestIsReceived : Prop :=
  ∀ (s : State) (t : Nat) (r : Request) (es : List Event), s.agenda = .present t r :: es →
    (s.instAt t).phase = .idle →
    ∃ u, step s = .next u ∧
      u.inst = { Inst.idle t with
        phase := .received .lookup, reqOp := some r.op, reqInLen := some r.inLen, reqOutCap := some r.outCap,
        inBuf := some r.inBase, outBuf := some r.outBase } ∧
      (∀ th, th ≠ t → u.instAt th = s.instAt th) ∧
      u.params = s.params ∧ u.env = s.env ∧ u.callerMem = s.callerMem ∧ u.agenda = es ∧ u.draws = s.draws ∧
      u.drawCount = s.drawCount

/-- R21, R269: a request presented to an instance that is not idle is not accepted; an acknowledgement of an instance that
is not in COMPLETED takes nothing (the model's choice, log 13). No instance changes, and neither does anything else. -/
def Obligations.OutOfTurnHostStepsAreVoid : Prop :=
  ∀ (s : State) (t : Nat) (es : List Event),
    ((∃ r, s.agenda = .present t r :: es) ∧ (s.instAt t).phase ≠ .idle ∨
      s.agenda = .ack t :: es ∧ (s.instAt t).phase ≠ .completed) →
    ∃ u, step s = .next u ∧ (∀ th, u.instAt th = s.instAt th) ∧ u.params = s.params ∧ u.env = s.env ∧
      u.callerMem = s.callerMem ∧ u.agenda = es ∧ u.draws = s.draws ∧ u.drawCount = s.drawCount

/-- R191, R31: when the host has taken the response, the instance is in IDLE and every latch holds no value; nothing else
changes. -/
def Obligations.AcknowledgementClearsTheInstance : Prop :=
  ∀ (s : State) (t : Nat) (es : List Event), s.agenda = .ack t :: es → (s.instAt t).phase = .completed →
    ∃ u, step s = .next u ∧ u.instAt t = Inst.idle t ∧ (∀ th, th ≠ t → u.instAt th = s.instAt th) ∧
      u.params = s.params ∧ u.env = s.env ∧ u.callerMem = s.callerMem ∧ u.agenda = es ∧ u.draws = s.draws ∧
      u.drawCount = s.drawCount

/-- R42: after reset `fsm` is IDLE and no latch holds a value, in the instance in focus and in that of any other thread. -/
def Obligations.ResetLeavesNoValue : Prop :=
  ∀ t : Nat, let m := State.reset.instAt t
    m.fsm = .idle ∧ m.reqOp = none ∧ m.reqInLen = none ∧ m.reqOutCap = none ∧ m.inBuf = none ∧ m.outBuf = none ∧
    m.h = none ∧ m.opMsrAddr = none ∧ m.opLo = none ∧ m.opHi = none ∧ m.opSegIdx = none ∧
    m.resLo = none ∧ m.resHi = none ∧ m.resSel = none ∧ m.resResolved = none ∧ m.resView = none ∧
    m.resRawLo = none ∧ m.resRawHi = none ∧ m.status = none ∧ m.bytesWritten = none

/-- R7 with R232: RESOLVE_DESCRIPTOR is 1 after reset, LONG_MODE is 1, and SEG_MAP is CS, SS, DS, ES, FS, GS from 0 to 5, a
bijection; there is at least one processor. That the three are data of State, which reset leaves so, is the model's (DESIGN
CHOICE, log 14). -/
def Obligations.ResetParameters : Prop :=
  State.reset.params.resolveDescriptor = true ∧ State.reset.params.longMode = true ∧
  State.reset.params.segMap = #v[.cs, .ss, .ds, .es, .fs, .gs] ∧ Function.Bijective State.reset.params.seg ∧
  1 ≤ State.reset.env.numLp

/-- R290, R292: a reset, from any state, puts every instance in IDLE with no value in any latch; the environment, the
parameters and the caller's memory keep their values. For the output bytes that an abandoned request had already written R290
says so; for those it had not yet written item I21 gives any value, and that they keep their old ones is the model's choice
(DESIGN CHOICE, log 21). -/
def Obligations.ResetEvent : Prop :=
  ∀ (s : State) (es : List Event), s.agenda = .reset :: es →
    ∃ u, step s = .next u ∧ (∀ t, u.instAt t = Inst.idle t) ∧ u.env = s.env ∧ u.params = s.params ∧
      u.callerMem = s.callerMem

/-- R37, R196, R298, R300: a step of the environment or a write of the host to its buffers always happens, changes the one
item it names (an MSR where its address is valid on that processor, log 11; a segment register, a GDTR, a byte of linear
memory, a byte of the caller's memory), and nothing else: no other item of any processor, and no latch of any instance. -/
def Obligations.OtherAgentsTouchNoInstance : Prop :=
  ∀ (s : State) (es : List Event),
    (∀ p addr v, s.agenda = .setMsr p addr v :: es →
      ∃ e, step s = .next { s with agenda := es, env := e } ∧ e.numLp = s.env.numLp ∧ ∀ q, q < s.env.numLp →
        (∀ b, (e.lp q).msr b =
          if q = p ∧ b = addr ∧ (s.env.lp p).msrValid addr = true then some v else (s.env.lp q).msr b) ∧
        (∀ r, (e.lp q).seg r = (s.env.lp q).seg r) ∧ (e.lp q).gdtr = (s.env.lp q).gdtr ∧
        (e.lp q).rejects = (s.env.lp q).rejects ∧ (e.lp q).mem = (s.env.lp q).mem) ∧
    (∀ p reg v, s.agenda = .setSeg p reg v :: es →
      ∃ e, step s = .next { s with agenda := es, env := e } ∧ e.numLp = s.env.numLp ∧ ∀ q, q < s.env.numLp →
        (∀ r, (e.lp q).seg r = if q = p ∧ r = reg then v else (s.env.lp q).seg r) ∧
        (e.lp q).msrs = (s.env.lp q).msrs ∧ (e.lp q).gdtr = (s.env.lp q).gdtr ∧
        (e.lp q).rejects = (s.env.lp q).rejects ∧ (e.lp q).mem = (s.env.lp q).mem) ∧
    (∀ p g, s.agenda = .setGdtr p g :: es →
      ∃ e, step s = .next { s with agenda := es, env := e } ∧ e.numLp = s.env.numLp ∧ ∀ q, q < s.env.numLp →
        e.lp q = if q = p then { s.env.lp q with gdtr := g } else s.env.lp q) ∧
    (∀ p addr b, s.agenda = .setMem p addr b :: es →
      ∃ e, step s = .next { s with agenda := es, env := e } ∧ e.numLp = s.env.numLp ∧ ∀ q, q < s.env.numLp →
        (∀ k, (e.lp q).mem.read k = if q = p ∧ k = addr.toNat then b else (s.env.lp q).mem.read k) ∧
        e.lp q = { s.env.lp q with mem := (e.lp q).mem }) ∧
    ∀ addr b, s.agenda = .poke addr b :: es →
      ∃ m, step s = .next { s with agenda := es, callerMem := m } ∧
        ∀ k, m.read k = if k = addr then b else s.callerMem.read k

/-! ### Faults -/

/-- R262, R269: an instance in FAULTED has no step. That a step asked of it, as the instruction's meaning, as the instance in
focus or by its thread, answers the fault is the model's (DEDUCED, log 9). -/
def Obligations.FaultedInstanceHasNoStep : Prop :=
  ∀ (s : State) (r : FaultRecord),
    (s.inst.phase = .faulted r →
      (∀ i, exec i s = .fault (.hwFault r)) ∧ (s.agenda = [] → step s = .fault (.hwFault r))) ∧
    ∀ (t : Nat) (es : List Event), s.agenda = .run t :: es → (s.instAt t).phase = .faulted r →
      step s = .fault (.hwFault r)

/-- R269: no step but a reset takes an instance out of FAULTED or changes any of its latches, so that it accepts no request
and gives no response; a reset takes it to IDLE with no value in any latch. -/
def Obligations.OnlyResetLeavesFaulted : Prop :=
  ∀ (s u : State) (t : Nat) (r : FaultRecord), (s.instAt t).phase = .faulted r → step s = .next u →
    ((∀ es, s.agenda ≠ .reset :: es) → u.instAt t = s.instAt t) ∧
    ∀ es, s.agenda = .reset :: es → u.instAt t = Inst.idle t

/-! ### What a step leaves alone -/

/-- R36, R38, R39: the frame of the processors. An instruction changes no segment register, no GDTR and no byte of linear
memory. It changes an MSR only where it is WRITE_MSR in VALIDATED, and then only the one its operand names, of the processor
drawn. -/
def Obligations.InstructionsChangeOnlyOneMsr : Prop :=
  ∀ (i : Instr) (s t : State), exec i s = .next t →
    t.env.numLp = s.env.numLp ∧
    (∀ p, p < s.env.numLp → (∀ r, (t.env.lp p).seg r = (s.env.lp p).seg r) ∧
      (t.env.lp p).gdtr = (s.env.lp p).gdtr ∧ (∀ a, (t.env.lp p).mem.read a = (s.env.lp p).mem.read a) ∧
      ∀ b, p ≠ s.nextLp ∨ s.inst.opMsrAddr ≠ some b → (t.env.lp p).msr b = (s.env.lp p).msr b) ∧
    ((∀ inLen outCap, i = .writeMsr inLen outCap → s.inst.fsm ≠ .validated) → t.env = s.env)

/-- R62, R69: the frame of the caller's memory. An instruction changes no byte of it except, in EXECUTED with a result byte
still to write, the byte at that offset of the output buffer. -/
def Obligations.InstructionsChangeOneOutputByte : Prop :=
  ∀ (i : Instr) (s t : State), exec i s = .next t →
    ∀ a, (∀ n base, s.inst.phase = .executed n → n < (instrHandler i).outSize → s.inst.outBuf = some base → a ≠ base + n) →
      t.callerMem.read a = s.callerMem.read a

/-- R25, R27, R28, R31: the frame of the latches. An instruction never changes the request latches; the operand latches only
in RECEIVED; the result latches only in VALIDATED; the response only where the request completes, and nothing of the other
instances, the parameters or the agenda. -/
def Obligations.InstructionsKeepForeignLatches : Prop :=
  ∀ (i : Instr) (s t : State), exec i s = .next t →
    (t.inst.thread = s.inst.thread ∧ t.inst.reqOp = s.inst.reqOp ∧ t.inst.reqInLen = s.inst.reqInLen ∧
      t.inst.reqOutCap = s.inst.reqOutCap ∧ t.inst.inBuf = s.inst.inBuf ∧ t.inst.outBuf = s.inst.outBuf) ∧
    (s.inst.fsm ≠ .received → t.inst.h = s.inst.h ∧ t.inst.opMsrAddr = s.inst.opMsrAddr ∧
      t.inst.opLo = s.inst.opLo ∧ t.inst.opHi = s.inst.opHi ∧ t.inst.opSegIdx = s.inst.opSegIdx) ∧
    (s.inst.fsm ≠ .validated → t.inst.resLo = s.inst.resLo ∧ t.inst.resHi = s.inst.resHi ∧
      t.inst.resSel = s.inst.resSel ∧ t.inst.resResolved = s.inst.resResolved ∧ t.inst.resView = s.inst.resView ∧
      t.inst.resRawLo = s.inst.resRawLo ∧ t.inst.resRawHi = s.inst.resRawHi ∧
      t.draws = s.draws ∧ t.drawCount = s.drawCount) ∧
    (t.inst.fsm ≠ .completed → t.inst.status = s.inst.status ∧ t.inst.bytesWritten = s.inst.bytesWritten) ∧
    t.others = s.others ∧ t.params = s.params ∧ t.agenda = s.agenda

/-- R196, R20(a): instances are independent. A step of one thread's instance leaves every other instance as it is, and an
instruction does the same whatever the other instances hold. -/
def Obligations.InstancesAreIndependent : Prop :=
  (∀ (s u : State) (t : Nat) (es : List Event), s.agenda = .run t :: es → step s = .next u →
    ∀ th, th ≠ t → u.instAt th = s.instAt th) ∧
  ∀ (i : Instr) (s t : State) (ms : List Inst), exec i s = .next t →
    exec i { s with others := ms } = .next { t with others := ms }

/-- R291: no step changes a parameter: the three with a default, NUM_LP, MsrValid and MsrWriteOk. -/
def Obligations.ParametersAreFixed : Prop :=
  ∀ s u : State, step s = .next u →
    u.params = s.params ∧ u.env.numLp = s.env.numLp ∧
    ∀ p, p < s.env.numLp → ∀ a, (u.env.lp p).msrValid a = (s.env.lp p).msrValid a ∧
      ∀ v, (u.env.lp p).msrWriteOk a v = (s.env.lp p).msrWriteOk a v

/-- R300: once the operands are latched the caller's memory has no say: in VALIDATED a step does the same whatever the
buffers hold. -/
def Obligations.ExecutionIgnoresTheBuffers : Prop :=
  ∀ (i : Instr) (s t : State) (m : Memory), s.inst.fsm = .validated → exec i s = .next t →
    exec i { s with callerMem := m } = .next { t with callerMem := m }

/-! ### Invariants -/

/-- The invariant holds at reset. -/
def Obligations.ResetMeetsTheInvariant : Prop := State.reset.Inv

/-- Every step keeps the invariant: in every instance the latches agree with the dispatcher state (which hold values, that
the sizes passed the gate, that a latched view is the decode of the raw entry latched beside it, that the response is the one
the order of the checks gives), one instance a thread, every memory canonical, SEG_MAP a bijection (R25 to R31, R180, R195,
R232, R299). -/
def Obligations.StepKeepsTheInvariant : Prop :=
  ∀ s t : State, s.Inv → step s = .next t → t.Inv

/-- R30: under the invariant no step reads a latch that the current request has not written. Where the handler latch, which
every step after the lookup reads, holds no value, such a step faults. -/
def Obligations.NoUnwrittenLatchIsRead : Prop :=
  (∀ (s : State) (l : Latch), s.Inv → step s ≠ .fault (.unwrittenLatch l)) ∧
  ∀ s : State, s.agenda = [] → s.inst.serving → s.inst.phase ≠ .received .lookup → s.inst.h = none →
    step s = .fault (.unwrittenLatch .h)

/-- R61: under the invariant a step of the instance writes the caller's memory only inside the declared output buffer, and
what it does depends on the caller's memory only inside the declared input buffer: on two memories that provide the same
addresses and agree there, it leaves the same state, and where it writes a result byte, the same byte. -/
def Obligations.AccessesStayInsideTheBuffers : Prop :=
  ∀ (s : State) (inBase outBase : Nat) (inLen outCap : U32), s.Inv → s.agenda = [] → s.inst.inBuf = some inBase →
    s.inst.outBuf = some outBase → s.inst.reqInLen = some inLen → s.inst.reqOutCap = some outCap →
    (∀ t, step s = .next t →
      ∀ a, t.callerMem.read a ≠ s.callerMem.read a → outBase ≤ a ∧ a < outBase + outCap.toNat) ∧
    ∀ (m : Memory) (t : State), (∀ a, (m.read a).isSome = (s.callerMem.read a).isSome) →
      (∀ a, inBase ≤ a → a < inBase + inLen.toNat → m.read a = s.callerMem.read a) → step s = .next t →
      ((∀ n h, s.inst.phase = .executed n → s.inst.h = some h → h.outSize ≤ n) →
        step { s with callerMem := m } = .next { t with callerMem := m }) ∧
      ∀ n h, s.inst.phase = .executed n → s.inst.h = some h → n < h.outSize →
        ∃ m', step { s with callerMem := m } = .next { t with callerMem := m' } ∧
          ∀ a, m'.read a = if a = outBase + n then t.callerMem.read a else m.read a

/-! ### Whole requests -/

/-- R194: one byte short of a declared size is BUFFER_TOO_SMALL for every handler; no primitive runs (no draw is made), no byte
is written and no environment state changes. That it takes two steps after receipt is R302 read with log 8 (DEDUCED). -/
def Obligations.OneByteShort : Prop :=
  ∀ (s : State) (op inLen outCap : U32), s.agenda = [] → s.inst.phase = .received .lookup →
    s.inst.reqOp = some op → s.inst.reqInLen = some inLen → s.inst.reqOutCap = some outCap →
    Handler.ofOp op ≠ .hNone →
    (inLen.toNat + 1 = (Handler.ofOp op).inMin ∨ outCap.toNat + 1 = (Handler.ofOp op).outSize) →
    core.run 2 s = .next { s with inst := { s.inst with
      h := some (Handler.ofOp op), status := some .bufferTooSmall, bytesWritten := some 0#32, phase := .completed } }

/-- R193: a request that completes with another status than SUCCESS has written no byte of the caller's memory, changed
nothing of the environment and invoked no primitive; its `bytes_written` is 0. -/
def Obligations.FailureTouchesNothing : Prop :=
  ∀ (s t : State) (k : Nat), s.Inv → s.agenda = [] → s.inst.phase = .received .lookup → core.run k s = .next t →
    t.inst.fsm = .completed → t.inst.status ≠ some .success →
    t.inst.bytesWritten = some 0#32 ∧ t.env = s.env ∧ t.callerMem = s.callerMem ∧ t.draws = s.draws ∧
      t.drawCount = s.drawCount

/-- R302, R192: every request ends. From any state that meets the invariant, with a request being served, the buffers
provided and no other agent stepping, the request is in COMPLETED or FAULTED within 62 steps of its instance. The count is
R302's, read as log 8 says (DEDUCED). -/
def Obligations.EveryRequestEnds : Prop :=
  ∀ (s : State) (inBase outBase : Nat) (inLen outCap : U32), s.Inv → s.agenda = [] → s.inst.serving →
    s.inst.inBuf = some inBase → s.inst.outBuf = some outBase → s.inst.reqInLen = some inLen →
    s.inst.reqOutCap = some outCap → s.provides inBase inLen.toNat → s.provides outBase outCap.toNat →
    ∃ k t, k ≤ 62 ∧ core.run k s = .next t ∧ t.inst.ended

/-- R210, R211: a whole READ_MSR, undisturbed: thirteen steps after receipt the response is SUCCESS with 8 bytes written,
and the output buffer holds the MSR value of the processor drawn, little-endian; every other byte of the caller's memory and
the environment are as before. The input and the output buffer may overlap. The count of steps is R302's, read as log 8 says
(DEDUCED). -/
def Obligations.ReadMsrRequest : Prop :=
  ∀ (s : State) (inBase outBase : Nat) (inLen outCap a : U32) (v : U64), s.agenda = [] →
    s.inst = Inst.receive s.inst.thread ⟨0x00000001#32, inLen, outCap, inBase, outBase⟩ →
    4 ≤ inLen.toNat → 8 ≤ outCap.toNat → s.provides outBase 8 →
    (∀ k, k < 4 → s.callerMem.read (inBase + k) = some (a.extractLsb' (8 * k) 8)) →
    (s.env.lp s.nextLp).msr a = some v →
    ∃ t, core.run 13 s = .next t ∧ t.inst.response = some (.success, 8#32) ∧ t.env = s.env ∧ t.others = s.others ∧
      t.drawCount = s.drawCount + 1 ∧
      (∀ k, k < 8 → t.callerMem.read (outBase + k) = some (v.extractLsb' (8 * k) 8)) ∧
      ∀ b, (b < outBase ∨ outBase + 8 ≤ b) → t.callerMem.read b = s.callerMem.read b

/-- R212, R213: a whole WRITE_MSR, undisturbed: five steps after receipt the response is SUCCESS with 0 bytes written, the
MSR of the processor drawn holds `high : low`, and the caller's memory is as before. The count of steps is R302's, read as
log 8 says (DEDUCED). -/
def Obligations.WriteMsrRequest : Prop :=
  ∀ (s : State) (inBase outBase : Nat) (inLen outCap a lo hi : U32), s.agenda = [] →
    s.inst = Inst.receive s.inst.thread ⟨0x00000002#32, inLen, outCap, inBase, outBase⟩ →
    12 ≤ inLen.toNat →
    (∀ k, k < 4 → s.callerMem.read (inBase + k) = some (a.extractLsb' (8 * k) 8) ∧
      s.callerMem.read (inBase + 4 + k) = some (lo.extractLsb' (8 * k) 8) ∧
      s.callerMem.read (inBase + 8 + k) = some (hi.extractLsb' (8 * k) 8)) →
    (s.env.lp s.nextLp).msrWriteOk a (hi ++ lo) = true →
    ∃ t, core.run 5 s = .next t ∧ t.inst.response = some (.success, 0#32) ∧
      (t.env.lp s.nextLp).msr a = some (hi ++ lo) ∧ t.callerMem = s.callerMem ∧ t.others = s.others ∧
      t.drawCount = s.drawCount + 1

/-- R230, R233 to R236, R238, R240: a whole QUERY_SEGMENT that is not resolved, undisturbed: the response is SUCCESS with 40
bytes written, the selector and then zeros; every other byte of the caller's memory and the environment are as before.
It is not resolved where resolution is off or the selector is a local-table or null one (45 steps after receipt), where its
entry is not wholly inside the table (46), and where the entry is wide and its second half lies past the limit (54). The
primitives run on the processors `p1`, `p2` and `p3`, whichever they are (R242). The counts of steps are R302's, read as log
8 says (DEDUCED); one draw a MemRead is log 6 (DEDUCED). -/
def Obligations.UnresolvedQueryRequest : Prop :=
  ∀ (s : State) (inBase outBase p1 p2 p3 : Nat) (v sel : U16) (hv : v.toNat < 6),
    s.hasQuery inBase outBase v → p1 < s.env.numLp → p2 < s.env.numLp → p3 < s.env.numLp →
    (s.env.lp p1).seg (s.params.segMap[v.toNat]'hv) = sel →
    let limit := (s.env.lp p2).gdtr.limit.toNat
    let zeros := put16 sel ++ List.replicate 38 0#8
    (s.nextLp = p1 → (s.params.resolveDescriptor = false ∨ sel.extractLsb' 2 1 = 1#1 ∨ sel.extractLsb' 3 13 = 0#13) →
      ∃ t, core.run 45 s = .next t ∧ s.queryAnswered t outBase zeros) ∧
    ((∃ ds, s.draws = p1 :: p2 :: ds) → s.seeks sel → limit < entryOffset sel + 7 →
      ∃ t, core.run 46 s = .next t ∧ s.queryAnswered t outBase zeros) ∧
    ∀ rawLo : U64, (∃ ds, s.draws = p1 :: p2 :: p3 :: ds) → s.seeks sel → entryOffset sel + 7 ≤ limit →
      limit < entryOffset sel + 15 →
      (s.env.lp p3).holds ((s.env.lp p2).gdtr.base + BitVec.ofNat 64 (entryOffset sel)) rawLo →
      s.params.longMode = true → rawLo.extractLsb' 44 1 = 0#1 →
      ∃ t, core.run 54 s = .next t ∧ s.queryAnswered t outBase zeros

/-- R230, R236, R237, R239, R241, R242: a whole QUERY_SEGMENT that resolves a narrow entry, undisturbed, with the selector, the
GDTR and the entry read on whichever processors `p1`, `p2` and `p3` are drawn: fifty-four steps after receipt the response is
SUCCESS with 40 bytes written, the bytes of R97 for the selector, the entry's eight bytes and their decode. The count of steps
is R302's, read as log 8 says (DEDUCED); one draw a MemRead is log 6 (DEDUCED). -/
def Obligations.NarrowQueryRequest : Prop :=
  ∀ (s : State) (inBase outBase p1 p2 p3 : Nat) (v sel : U16) (hv : v.toNat < 6) (rawLo : U64),
    s.hasQuery inBase outBase v → p1 < s.env.numLp → p2 < s.env.numLp → p3 < s.env.numLp →
    (∃ ds, s.draws = p1 :: p2 :: p3 :: ds) → (s.env.lp p1).seg (s.params.segMap[v.toNat]'hv) = sel → s.seeks sel →
    entryOffset sel + 7 ≤ (s.env.lp p2).gdtr.limit.toNat →
    (s.env.lp p3).holds ((s.env.lp p2).gdtr.base + BitVec.ofNat 64 (entryOffset sel)) rawLo →
    (s.params.longMode = false ∨ rawLo.extractLsb' 44 1 = 1#1) →
    ∃ t, core.run 54 s = .next t ∧
      s.queryAnswered t outBase (querySegmentImage sel 1#1 (decodeDescriptor rawLo 0#64 0#1) rawLo 0#64)

/-- R230, R236 to R239, R241, R242: a whole QUERY_SEGMENT that resolves a wide entry, undisturbed, with the selector, the GDTR
and the two halves of the entry read on whichever processors `p1`, `p2`, `p3` and `p4` are drawn: sixty-two steps after
receipt the response is SUCCESS with 40 bytes written, the bytes of R97 for the selector, the entry's sixteen bytes and their
decode. The count of steps is R302's, read as log 8 says (DEDUCED); one draw a MemRead is log 6 (DEDUCED). -/
def Obligations.WideQueryRequest : Prop :=
  ∀ (s : State) (inBase outBase p1 p2 p3 p4 : Nat) (v sel : U16) (hv : v.toNat < 6) (rawLo rawHi : U64),
    s.hasQuery inBase outBase v → p1 < s.env.numLp → p2 < s.env.numLp → p3 < s.env.numLp → p4 < s.env.numLp →
    (∃ ds, s.draws = p1 :: p2 :: p3 :: p4 :: ds) → (s.env.lp p1).seg (s.params.segMap[v.toNat]'hv) = sel →
    s.seeks sel → entryOffset sel + 15 ≤ (s.env.lp p2).gdtr.limit.toNat →
    (s.env.lp p3).holds ((s.env.lp p2).gdtr.base + BitVec.ofNat 64 (entryOffset sel)) rawLo →
    (s.env.lp p4).holds ((s.env.lp p2).gdtr.base + BitVec.ofNat 64 (entryOffset sel) + 8#64) rawHi →
    s.params.longMode = true → rawLo.extractLsb' 44 1 = 0#1 →
    ∃ t, core.run 62 s = .next t ∧
      s.queryAnswered t outBase (querySegmentImage sel 1#1 (decodeDescriptor rawLo rawHi 1#1) rawLo rawHi)
end

