-- ==== Sys2Proof/Laws/State.lean ====
section
/-! SUPPORT. What each named update of the state does to each field of it: true by definition, so that no later proof
unfolds an update. -/

namespace Sys2Proof.Machine

/-! ### `State.toPhase` -/

@[simp] theorem State.toPhase_inst (s : State) (p : Phase) :
    (s.toPhase p).inst = { s.inst with phase := p } := rfl

@[simp] theorem State.toPhase_others (s : State) (p : Phase) :
    (s.toPhase p).others = s.others := rfl

@[simp] theorem State.toPhase_params (s : State) (p : Phase) :
    (s.toPhase p).params = s.params := rfl

@[simp] theorem State.toPhase_env (s : State) (p : Phase) :
    (s.toPhase p).env = s.env := rfl

@[simp] theorem State.toPhase_callerMem (s : State) (p : Phase) :
    (s.toPhase p).callerMem = s.callerMem := rfl

@[simp] theorem State.toPhase_agenda (s : State) (p : Phase) :
    (s.toPhase p).agenda = s.agenda := rfl

@[simp] theorem State.toPhase_draws (s : State) (p : Phase) :
    (s.toPhase p).draws = s.draws := rfl

@[simp] theorem State.toPhase_drawCount (s : State) (p : Phase) :
    (s.toPhase p).drawCount = s.drawCount := rfl

/-! ### `State.complete` -/

@[simp] theorem State.complete_inst (s : State) (st : Status) :
    (s.complete st).inst = { s.inst with status := some st, bytesWritten := some 0#32, phase := .completed } := rfl

@[simp] theorem State.complete_others (s : State) (st : Status) :
    (s.complete st).others = s.others := rfl

@[simp] theorem State.complete_params (s : State) (st : Status) :
    (s.complete st).params = s.params := rfl

@[simp] theorem State.complete_env (s : State) (st : Status) :
    (s.complete st).env = s.env := rfl

@[simp] theorem State.complete_callerMem (s : State) (st : Status) :
    (s.complete st).callerMem = s.callerMem := rfl

@[simp] theorem State.complete_agenda (s : State) (st : Status) :
    (s.complete st).agenda = s.agenda := rfl

@[simp] theorem State.complete_draws (s : State) (st : Status) :
    (s.complete st).draws = s.draws := rfl

@[simp] theorem State.complete_drawCount (s : State) (st : Status) :
    (s.complete st).drawCount = s.drawCount := rfl

/-! ### `State.succeed` -/

@[simp] theorem State.succeed_inst (s : State) (n : Nat) :
    (s.succeed n).inst = { s.inst with status := some .success, bytesWritten := some (BitVec.ofNat 32 n), phase := .completed } := rfl

@[simp] theorem State.succeed_others (s : State) (n : Nat) :
    (s.succeed n).others = s.others := rfl

@[simp] theorem State.succeed_params (s : State) (n : Nat) :
    (s.succeed n).params = s.params := rfl

@[simp] theorem State.succeed_env (s : State) (n : Nat) :
    (s.succeed n).env = s.env := rfl

@[simp] theorem State.succeed_callerMem (s : State) (n : Nat) :
    (s.succeed n).callerMem = s.callerMem := rfl

@[simp] theorem State.succeed_agenda (s : State) (n : Nat) :
    (s.succeed n).agenda = s.agenda := rfl

@[simp] theorem State.succeed_draws (s : State) (n : Nat) :
    (s.succeed n).draws = s.draws := rfl

@[simp] theorem State.succeed_drawCount (s : State) (n : Nat) :
    (s.succeed n).drawCount = s.drawCount := rfl

/-! ### `State.raise` -/

@[simp] theorem State.raise_inst (s : State) (r : FaultRecord) :
    (s.raise r).inst = { s.inst with phase := .faulted r } := rfl

@[simp] theorem State.raise_others (s : State) (r : FaultRecord) :
    (s.raise r).others = s.others := rfl

@[simp] theorem State.raise_params (s : State) (r : FaultRecord) :
    (s.raise r).params = s.params := rfl

@[simp] theorem State.raise_env (s : State) (r : FaultRecord) :
    (s.raise r).env = s.env := rfl

@[simp] theorem State.raise_callerMem (s : State) (r : FaultRecord) :
    (s.raise r).callerMem = s.callerMem := rfl

@[simp] theorem State.raise_agenda (s : State) (r : FaultRecord) :
    (s.raise r).agenda = s.agenda := rfl

@[simp] theorem State.raise_draws (s : State) (r : FaultRecord) :
    (s.raise r).draws = s.draws := rfl

@[simp] theorem State.raise_drawCount (s : State) (r : FaultRecord) :
    (s.raise r).drawCount = s.drawCount := rfl

/-! ### `State.drawn` -/

@[simp] theorem State.drawn_inst (s : State) :
    (s.drawn).inst = s.inst := rfl

@[simp] theorem State.drawn_others (s : State) :
    (s.drawn).others = s.others := rfl

@[simp] theorem State.drawn_params (s : State) :
    (s.drawn).params = s.params := rfl

@[simp] theorem State.drawn_env (s : State) :
    (s.drawn).env = s.env := rfl

@[simp] theorem State.drawn_callerMem (s : State) :
    (s.drawn).callerMem = s.callerMem := rfl

@[simp] theorem State.drawn_agenda (s : State) :
    (s.drawn).agenda = s.agenda := rfl

@[simp] theorem State.drawn_draws (s : State) :
    (s.drawn).draws = s.draws.tail := rfl

@[simp] theorem State.drawn_drawCount (s : State) :
    (s.drawn).drawCount = s.drawCount + 1 := rfl

/-! ### `State.executedAll` -/

@[simp] theorem State.executedAll_inst (s : State) :
    (s.executedAll).inst = { s.inst with phase := .executed 0 } := rfl

@[simp] theorem State.executedAll_others (s : State) :
    (s.executedAll).others = s.others := rfl

@[simp] theorem State.executedAll_params (s : State) :
    (s.executedAll).params = s.params := rfl

@[simp] theorem State.executedAll_env (s : State) :
    (s.executedAll).env = s.env := rfl

@[simp] theorem State.executedAll_callerMem (s : State) :
    (s.executedAll).callerMem = s.callerMem := rfl

@[simp] theorem State.executedAll_agenda (s : State) :
    (s.executedAll).agenda = s.agenda := rfl

@[simp] theorem State.executedAll_draws (s : State) :
    (s.executedAll).draws = s.draws := rfl

@[simp] theorem State.executedAll_drawCount (s : State) :
    (s.executedAll).drawCount = s.drawCount := rfl

/-! ### `State.unresolved` -/

@[simp] theorem State.unresolved_inst (s : State) :
    (s.unresolved).inst = { s.inst with
      resResolved := some 0#1, resRawLo := some 0#64, resRawHi := some 0#64, resView := some View.zero, phase := .executed 0 } := rfl

@[simp] theorem State.unresolved_others (s : State) :
    (s.unresolved).others = s.others := rfl

@[simp] theorem State.unresolved_params (s : State) :
    (s.unresolved).params = s.params := rfl

@[simp] theorem State.unresolved_env (s : State) :
    (s.unresolved).env = s.env := rfl

@[simp] theorem State.unresolved_callerMem (s : State) :
    (s.unresolved).callerMem = s.callerMem := rfl

@[simp] theorem State.unresolved_agenda (s : State) :
    (s.unresolved).agenda = s.agenda := rfl

@[simp] theorem State.unresolved_draws (s : State) :
    (s.unresolved).draws = s.draws := rfl

@[simp] theorem State.unresolved_drawCount (s : State) :
    (s.unresolved).drawCount = s.drawCount := rfl

/-! ### `State.resolved` -/

@[simp] theorem State.resolved_inst (s : State) (lo hi : U64) (w : BitVec 1) :
    (s.resolved lo hi w).inst = { s.inst with
      resView := some (decodeDescriptor lo hi w), resRawLo := some lo, resRawHi := some hi, resResolved := some 1#1,
      phase := .executed 0 } := rfl

@[simp] theorem State.resolved_others (s : State) (lo hi : U64) (w : BitVec 1) :
    (s.resolved lo hi w).others = s.others := rfl

@[simp] theorem State.resolved_params (s : State) (lo hi : U64) (w : BitVec 1) :
    (s.resolved lo hi w).params = s.params := rfl

@[simp] theorem State.resolved_env (s : State) (lo hi : U64) (w : BitVec 1) :
    (s.resolved lo hi w).env = s.env := rfl

@[simp] theorem State.resolved_callerMem (s : State) (lo hi : U64) (w : BitVec 1) :
    (s.resolved lo hi w).callerMem = s.callerMem := rfl

@[simp] theorem State.resolved_agenda (s : State) (lo hi : U64) (w : BitVec 1) :
    (s.resolved lo hi w).agenda = s.agenda := rfl

@[simp] theorem State.resolved_draws (s : State) (lo hi : U64) (w : BitVec 1) :
    (s.resolved lo hi w).draws = s.draws := rfl

@[simp] theorem State.resolved_drawCount (s : State) (lo hi : U64) (w : BitVec 1) :
    (s.resolved lo hi w).drawCount = s.drawCount := rfl

/-! ### `State.lookupDone` -/

@[simp] theorem State.lookupDone_inst (s : State) (h : Handler) :
    (s.lookupDone h).inst = { s.inst with h := some h, phase := .received .gate } := rfl

@[simp] theorem State.lookupDone_others (s : State) (h : Handler) :
    (s.lookupDone h).others = s.others := rfl

@[simp] theorem State.lookupDone_params (s : State) (h : Handler) :
    (s.lookupDone h).params = s.params := rfl

@[simp] theorem State.lookupDone_env (s : State) (h : Handler) :
    (s.lookupDone h).env = s.env := rfl

@[simp] theorem State.lookupDone_callerMem (s : State) (h : Handler) :
    (s.lookupDone h).callerMem = s.callerMem := rfl

@[simp] theorem State.lookupDone_agenda (s : State) (h : Handler) :
    (s.lookupDone h).agenda = s.agenda := rfl

@[simp] theorem State.lookupDone_draws (s : State) (h : Handler) :
    (s.lookupDone h).draws = s.draws := rfl

@[simp] theorem State.lookupDone_drawCount (s : State) (h : Handler) :
    (s.lookupDone h).drawCount = s.drawCount := rfl

/-! ### `State.lookupNone` -/

@[simp] theorem State.lookupNone_inst (s : State) :
    (s.lookupNone).inst = { s.inst with
      h := some .hNone, status := some .unsupportedOperation, bytesWritten := some 0#32, phase := .completed } := rfl

@[simp] theorem State.lookupNone_others (s : State) :
    (s.lookupNone).others = s.others := rfl

@[simp] theorem State.lookupNone_params (s : State) :
    (s.lookupNone).params = s.params := rfl

@[simp] theorem State.lookupNone_env (s : State) :
    (s.lookupNone).env = s.env := rfl

@[simp] theorem State.lookupNone_callerMem (s : State) :
    (s.lookupNone).callerMem = s.callerMem := rfl

@[simp] theorem State.lookupNone_agenda (s : State) :
    (s.lookupNone).agenda = s.agenda := rfl

@[simp] theorem State.lookupNone_draws (s : State) :
    (s.lookupNone).draws = s.draws := rfl

@[simp] theorem State.lookupNone_drawCount (s : State) :
    (s.lookupNone).drawCount = s.drawCount := rfl

/-! ### `State.blockReset` -/

@[simp] theorem State.blockReset_inst (s : State) :
    (s.blockReset).inst = Inst.idle s.inst.thread := rfl

@[simp] theorem State.blockReset_others (s : State) :
    (s.blockReset).others = s.others.map (fun m => Inst.idle m.thread) := rfl

@[simp] theorem State.blockReset_params (s : State) :
    (s.blockReset).params = s.params := rfl

@[simp] theorem State.blockReset_env (s : State) :
    (s.blockReset).env = s.env := rfl

@[simp] theorem State.blockReset_callerMem (s : State) :
    (s.blockReset).callerMem = s.callerMem := rfl

@[simp] theorem State.blockReset_agenda (s : State) :
    (s.blockReset).agenda = s.agenda := rfl

@[simp] theorem State.blockReset_draws (s : State) :
    (s.blockReset).draws = s.draws := rfl

@[simp] theorem State.blockReset_drawCount (s : State) :
    (s.blockReset).drawCount = s.drawCount := rfl

/-! ### `State.changeLp` -/

@[simp] theorem State.changeLp_inst (s : State) (p : Nat) (f : Lp → Lp) :
    (s.changeLp p f).inst = s.inst := rfl

@[simp] theorem State.changeLp_others (s : State) (p : Nat) (f : Lp → Lp) :
    (s.changeLp p f).others = s.others := rfl

@[simp] theorem State.changeLp_params (s : State) (p : Nat) (f : Lp → Lp) :
    (s.changeLp p f).params = s.params := rfl

@[simp] theorem State.changeLp_env (s : State) (p : Nat) (f : Lp → Lp) :
    (s.changeLp p f).env = s.env.setLp p (f (s.env.lp p)) := rfl

@[simp] theorem State.changeLp_callerMem (s : State) (p : Nat) (f : Lp → Lp) :
    (s.changeLp p f).callerMem = s.callerMem := rfl

@[simp] theorem State.changeLp_agenda (s : State) (p : Nat) (f : Lp → Lp) :
    (s.changeLp p f).agenda = s.agenda := rfl

@[simp] theorem State.changeLp_draws (s : State) (p : Nat) (f : Lp → Lp) :
    (s.changeLp p f).draws = s.draws := rfl

@[simp] theorem State.changeLp_drawCount (s : State) (p : Nat) (f : Lp → Lp) :
    (s.changeLp p f).drawCount = s.drawCount := rfl

end Sys2Proof.Machine
end

