-- ==== Sys2Proof/Laws/Instances.lean ====
section
/-! SUPPORT. The instances of the threads: what bringing one into focus, a step of the host and the reset do to each of
them. -/

namespace Sys2Proof.Machine

/-- The instance found for a thread is that thread's. -/
@[simp] theorem instOf_thread (t : Nat) (ms : List Inst) : (instOf t ms).thread = t := by
  induction ms with
  | nil => rfl
  | cons m ms ih => unfold instOf; split <;> simp_all

theorem instOf_cons (t : Nat) (m : Inst) (ms : List Inst) :
    instOf t (m :: ms) = if m.thread = t then m else instOf t ms := rfl

/-- The instance found for a thread is in the list, or an idle one. -/
theorem instOf_mem (t : Nat) (ms : List Inst) : instOf t ms ∈ ms ∨ instOf t ms = Inst.idle t := by
  induction ms with
  | nil => exact .inr rfl
  | cons m ms ih =>
    rw [instOf_cons]
    split
    · exact .inl (by simp)
    · exact ih.imp_left (List.mem_cons_of_mem m)

/-- Taking a thread's instance out leaves every other thread's. -/
theorem instOf_instsBut (t th : Nat) (ms : List Inst) (h : th ≠ t) : instOf th (instsBut t ms) = instOf th ms := by
  induction ms with
  | nil => rfl
  | cons m ms ih =>
    unfold instsBut at *
    by_cases hm : m.thread = t
    · simp [hm, instOf_cons, ih, h.symm]
    · simp [hm, instOf_cons, ih]

@[simp] theorem State.focus_params (s : State) (t : Nat) : (s.focus t).params = s.params := by
  unfold State.focus; split <;> rfl
@[simp] theorem State.focus_env (s : State) (t : Nat) : (s.focus t).env = s.env := by
  unfold State.focus; split <;> rfl
@[simp] theorem State.focus_callerMem (s : State) (t : Nat) : (s.focus t).callerMem = s.callerMem := by
  unfold State.focus; split <;> rfl
@[simp] theorem State.focus_agenda (s : State) (t : Nat) : (s.focus t).agenda = s.agenda := by
  unfold State.focus; split <;> rfl
@[simp] theorem State.focus_draws (s : State) (t : Nat) : (s.focus t).draws = s.draws := by
  unfold State.focus; split <;> rfl
@[simp] theorem State.focus_drawCount (s : State) (t : Nat) : (s.focus t).drawCount = s.drawCount := by
  unfold State.focus; split <;> rfl

/-- The instance in focus is the thread's. -/
theorem State.focus_inst (s : State) (t : Nat) : (s.focus t).inst = s.instAt t := by
  unfold State.focus State.instAt
  split <;> simp_all

@[simp] theorem State.focus_thread (s : State) (t : Nat) : (s.focus t).inst.thread = t := by
  rw [State.focus_inst]
  unfold State.instAt
  split
  · assumption
  · exact instOf_thread t s.others

/-- Moving the focus changes the instance of no thread. -/
@[simp] theorem State.focus_instAt (s : State) (t th : Nat) : (s.focus t).instAt th = s.instAt th := by
  by_cases h : th = t
  · subst h
    rw [← State.focus_inst s]
    unfold State.instAt
    rw [if_pos (State.focus_thread s th)]
  · unfold State.focus
    split
    · rfl
    · unfold State.instAt
      simp only [instOf_thread]
      rw [if_neg (Ne.symm h), instOf_cons, instOf_instsBut t th s.others h]

/-- The thread in focus keeps the instance in focus. -/
theorem State.instAt_self (s : State) : s.instAt s.inst.thread = s.inst := if_pos rfl

/-- A state that differs in the instance in focus alone has the same instances for every other thread. -/
theorem State.instAt_of_others (s u : State) (th : Nat) (ht : u.inst.thread = s.inst.thread) (ho : u.others = s.others)
    (h : th ≠ s.inst.thread) : u.instAt th = s.instAt th := by
  unfold State.instAt
  rw [ht, ho, if_neg h.symm, if_neg h.symm]

/-- A request presented to an idle instance is received (R183). -/
theorem State.present_of_idle (s : State) (r : Request) (h : s.inst.phase = .idle) :
    s.present r = { s with inst := Inst.receive s.inst.thread r } := by
  unfold State.present
  rw [h]

/-- A request presented to any other instance is not accepted (R21). -/
theorem State.present_of_not_idle (s : State) (r : Request) (h : s.inst.phase ≠ .idle) : s.present r = s := by
  unfold State.present
  split <;> first | rfl | exact absurd ‹_› h

/-- The response of a completed instance is taken (R191). -/
theorem State.ack_of_completed (s : State) (h : s.inst.phase = .completed) :
    s.ack = { s with inst := Inst.idle s.inst.thread } := by
  unfold State.ack
  rw [h]

/-- Any other instance has no response to take. -/
theorem State.ack_of_not_completed (s : State) (h : s.inst.phase ≠ .completed) : s.ack = s := by
  unfold State.ack
  split <;> first | rfl | exact absurd ‹_› h

/-- After a reset every thread's instance is idle (R290). -/
theorem State.blockReset_instAt (s : State) (t : Nat) : s.blockReset.instAt t = Inst.idle t := by
  have key : ∀ ms : List Inst, instOf t (ms.map fun m => Inst.idle m.thread) = Inst.idle t := by
    intro ms
    induction ms with
    | nil => rfl
    | cons m ms ih =>
      rw [List.map_cons, instOf_cons]
      split
      · rename_i h
        exact congrArg Inst.idle h
      · exact ih
  unfold State.instAt State.blockReset
  dsimp only
  split
  · rename_i h
    exact congrArg Inst.idle h
  · exact key s.others

end Sys2Proof.Machine
end

