-- ==== Sys2Proof/Laws/Memory.lean ====
section
/-! SUPPORT. The laws of memory: a read after a write or an erase, and the canonical form, which every operation keeps. -/

namespace Sys2Proof.Machine

@[simp] theorem Memory.read_nil (k : Nat) : Memory.read [] k = none := rfl

theorem Memory.read_cons (c : Host.Cell) (m : Memory) (k : Nat) :
    Memory.read (c :: m) k = if c.1 = k then some c.2 else Memory.read m k := rfl

/-- The byte written is the byte read. -/
@[simp] theorem Memory.read_write_same (m : Memory) (k : Nat) (v : Byte) : Memory.read (Memory.write m k v) k = some v := by
  induction m with
  | nil => simp [Memory.write, Memory.read]
  | cons c m ih =>
    unfold Memory.write
    split
    · simp [Memory.read]
    · split
      · simp [Memory.read]
      · rename_i _ h
        simp [Memory.read, Ne.symm h, ih]

/-- A write leaves every other address alone. -/
theorem Memory.read_write_other (m : Memory) (k j : Nat) (v : Byte) (h : j ≠ k) :
    Memory.read (Memory.write m k v) j = Memory.read m j := by
  induction m with
  | nil => simp [Memory.write, Memory.read, h.symm]
  | cons c m ih =>
    unfold Memory.write
    split
    · simp [Memory.read, h.symm]
    · split
      · rename_i hk
        simp [Memory.read, h.symm, ← hk]
      · simp [Memory.read, ih]

/-- A read after a write, at any address. -/
theorem Memory.read_write (m : Memory) (k j : Nat) (v : Byte) :
    Memory.read (Memory.write m k v) j = if j = k then some v else Memory.read m j := by
  split
  · rename_i h; subst h; simp
  · rename_i h; exact Memory.read_write_other m k j v h

/-- An erase leaves every other address alone. -/
theorem Memory.read_erase_other (m : Memory) (k j : Nat) (h : j ≠ k) :
    Memory.read (Memory.erase m k) j = Memory.read m j := by
  induction m with
  | nil => rfl
  | cons c m ih =>
    unfold Memory.erase
    split
    · rename_i hk
      have hj : ¬ c.1 = j := fun e => h (e.symm.trans hk)
      rw [ih, Memory.read_cons, if_neg hj]
    · simp [Memory.read, ih]

/-- An erased address holds no byte. -/
@[simp] theorem Memory.read_erase_same (m : Memory) (k : Nat) : Memory.read (Memory.erase m k) k = none := by
  induction m with
  | nil => rfl
  | cons c m ih =>
    unfold Memory.erase
    split
    · exact ih
    · rename_i hk
      rw [Memory.read_cons, if_neg hk]
      exact ih

/-- A read after a byte is put or taken away, at any address. -/
theorem Memory.read_update (m : Memory) (k j : Nat) (b : Option Byte) :
    Memory.read (Memory.update m k b) j = if j = k then b else Memory.read m j := by
  cases b with
  | some v => exact Memory.read_write m k j v
  | none =>
    split
    · rename_i h
      subst h
      exact Memory.read_erase_same m j
    · rename_i h
      exact Memory.read_erase_other m k j h

/-! ### The canonical form -/

/-- Every listed address is above `k`. -/
def Memory.above (k : Nat) (m : Memory) : Prop := ∀ c ∈ m, k < c.1

theorem Memory.wf_cons (c : Host.Cell) (m : Memory) :
    Memory.wf (c :: m) = true ↔ Memory.above c.1 m ∧ Memory.wf m = true := by
  induction m generalizing c with
  | nil => simp [Memory.wf, Memory.above]
  | cons d m ih =>
    simp only [Memory.wf, Bool.and_eq_true, Nat.blt_eq, Memory.above, List.mem_cons, forall_eq_or_imp]
    constructor
    · rintro ⟨hlt, hwf⟩
      exact ⟨⟨hlt, fun e he => lt_trans hlt (((ih d).mp hwf).1 e he)⟩, hwf⟩
    · rintro ⟨⟨hlt, -⟩, hwf⟩
      exact ⟨hlt, hwf⟩

theorem Memory.above_write (j k : Nat) (v : Byte) (m : Memory) (h : Memory.above j m) (hk : j < k) :
    Memory.above j (Memory.write m k v) := by
  induction m with
  | nil => simp [Memory.write, Memory.above, hk]
  | cons c m ih =>
    have hc : j < c.1 := h c (by simp)
    have hm : Memory.above j m := fun e he => h e (List.mem_cons_of_mem _ he)
    unfold Memory.write
    split
    · intro e he
      rcases List.mem_cons.mp he with rfl | he
      · exact hk
      · exact h e he
    · split
      · intro e he
        rcases List.mem_cons.mp he with rfl | he
        · exact hk
        · exact hm e he
      · intro e he
        rcases List.mem_cons.mp he with rfl | he
        · exact hc
        · exact ih hm e he

/-- A write keeps the canonical form. -/
theorem Memory.wf_write (m : Memory) (k : Nat) (v : Byte) (h : Memory.wf m = true) :
    Memory.wf (Memory.write m k v) = true := by
  induction m with
  | nil => rfl
  | cons c m ih =>
    obtain ⟨ha, hm⟩ := (Memory.wf_cons c m).mp h
    unfold Memory.write
    split
    · rename_i hk
      refine (Memory.wf_cons _ _).mpr ⟨?_, h⟩
      intro e he
      rcases List.mem_cons.mp he with rfl | he
      · exact hk
      · exact lt_trans hk (ha e he)
    · split
      · rename_i hk
        subst hk
        exact (Memory.wf_cons _ _).mpr ⟨ha, hm⟩
      · rename_i hlt hne
        exact (Memory.wf_cons _ _).mpr ⟨Memory.above_write c.1 k v m ha (by omega), ih hm⟩

theorem Memory.above_erase (j k : Nat) (m : Memory) (h : Memory.above j m) : Memory.above j (Memory.erase m k) := by
  induction m with
  | nil => exact h
  | cons c m ih =>
    have hm : Memory.above j m := fun e he => h e (List.mem_cons_of_mem _ he)
    unfold Memory.erase
    split
    · exact ih hm
    · intro e he
      rcases List.mem_cons.mp he with rfl | he
      · exact h e (by simp)
      · exact ih hm e he

/-- An erase keeps the canonical form. -/
theorem Memory.wf_erase (m : Memory) (k : Nat) (h : Memory.wf m = true) : Memory.wf (Memory.erase m k) = true := by
  induction m with
  | nil => rfl
  | cons c m ih =>
    obtain ⟨ha, hm⟩ := (Memory.wf_cons c m).mp h
    unfold Memory.erase
    split
    · exact ih hm
    · exact (Memory.wf_cons _ _).mpr ⟨Memory.above_erase c.1 k m ha, ih hm⟩

/-- Putting or taking away a byte keeps the canonical form. -/
theorem Memory.wf_update (m : Memory) (k : Nat) (b : Option Byte) (h : Memory.wf m = true) :
    Memory.wf (Memory.update m k b) = true := by
  cases b with
  | none => exact Memory.wf_erase m k h
  | some v => exact Memory.wf_write m k v h

/-- No address below the lowest listed one holds a byte. -/
theorem Memory.read_of_above (m : Memory) (k : Nat) (h : Memory.above k m) : Memory.read m k = none := by
  induction m with
  | nil => rfl
  | cons c m ih =>
    have hc : k < c.1 := h c (by simp)
    rw [Memory.read_cons, if_neg (by omega)]
    exact ih fun e he => h e (List.mem_cons_of_mem _ he)

/-! ### Reading a run of bytes -/

@[simp] theorem Memory.readBytes_zero (m : Memory) (k : Nat) : Memory.readBytes m k 0 = some [] := rfl

/-- A run of bytes is read where its first byte and the rest of it are. -/
theorem Memory.readBytes_succ (m : Memory) (k n : Nat) (bs : List Byte) :
    Memory.readBytes m k (n + 1) = some bs ↔
      ∃ b rest, Memory.read m k = some b ∧ Memory.readBytes m (k + 1) n = some rest ∧ bs = b :: rest := by
  have hdef : Memory.readBytes m k (n + 1) =
      match Memory.read m k, Memory.readBytes m (k + 1) n with
      | some b, some bs => some (b :: bs)
      | _, _ => none := rfl
  rw [hdef]
  generalize Memory.read m k = first
  generalize Memory.readBytes m (k + 1) n = further
  cases first <;> cases further <;> simp [eq_comm]

/-- As many bytes are read as were asked for. -/
theorem Memory.readBytes_length (m : Memory) (k n : Nat) (bs : List Byte) (h : Memory.readBytes m k n = some bs) :
    bs.length = n := by
  induction n generalizing k bs with
  | zero => simp_all
  | succ n ih =>
    obtain ⟨b, rest, -, hr, rfl⟩ := (Memory.readBytes_succ m k n bs).mp h
    simp [ih _ _ hr]

/-- A run of bytes depends on the addresses of the run alone. -/
theorem Memory.readBytes_congr (m m' : Memory) (k n : Nat)
    (h : ∀ j, k ≤ j → j < k + n → Memory.read m j = Memory.read m' j) :
    Memory.readBytes m k n = Memory.readBytes m' k n := by
  induction n generalizing k with
  | zero => rfl
  | succ n ih =>
    simp only [Memory.readBytes, h k le_rfl (by omega), ih (k + 1) fun j hj hj' => h j (by omega) (by omega)]

/-- Where a byte of the run is missing, the run is not read, and the first missing address is one of its own. -/
theorem Memory.firstMissing_of_missing (m : Memory) (k n : Nat) (h : ∃ j, j < n ∧ Memory.read m (k + j) = none) :
    Memory.readBytes m k n = none ∧
      ∃ j, j < n ∧ Memory.read m (k + j) = none ∧ Memory.firstMissing m k n = k + j := by
  induction n generalizing k with
  | zero =>
    obtain ⟨j, hj, -⟩ := h
    omega
  | succ n ih =>
    cases hr : Memory.read m k with
    | none =>
      exact ⟨by simp [Memory.readBytes, hr], 0, by omega, hr, by simp [Memory.firstMissing, hr]⟩
    | some b =>
      obtain ⟨j, hj, hn⟩ := h
      cases j with
      | zero =>
        rw [Nat.add_zero, hr] at hn
        cases hn
      | succ j =>
        obtain ⟨hb, i, hi, hin, hf⟩ := ih (k + 1) ⟨j, by omega, by rw [← hn]; congr 1; omega⟩
        refine ⟨by simp [Memory.readBytes, hr, hb], i + 1, by omega, ?_, ?_⟩
        · rw [← hin]
          congr 1
          omega
        · simp only [Memory.firstMissing, hr, Option.isNone_some, Bool.false_eq_true, if_false, hf]
          omega

/-! ### Reset -/

/-- The caller's memory is in canonical form at reset. -/
theorem State.reset_callerMem_wf : Memory.wf State.reset.callerMem = true := rfl

/-- Bytes put together one after the other are in canonical form. -/
theorem Memory.wf_ofBytes (cs : List (U64 × Byte)) : Memory.wf (Memory.ofBytes cs) = true := by
  induction cs with
  | nil => rfl
  | cons c cs ih => exact Memory.wf_write _ _ _ ih

/-- The linear memory of a processor is in canonical form before the first step. -/
theorem Lp.initial_mem_wf (p : Nat) : Memory.wf (Lp.initial p).mem = true := Memory.wf_ofBytes _

end Sys2Proof.Machine
end

