-- ==== Sys2Proof/Laws/Ops.lean ====
section
/-! SUPPORT. What each shared operation can do, said once: the lemmas later proofs cite instead of unfolding it. -/

namespace Sys2Proof.Machine

/-! ### Latches -/

@[simp] theorem readLatch_some {α : Type} (l : Latch) (a : α) (k : α → Out) : readLatch l (some a) k = k a := rfl

@[simp] theorem readLatch_none {α : Type} (l : Latch) (k : α → Out) :
    readLatch l none k = .fault (.unwrittenLatch l) := rfl

/-- A step that reads a latch and goes on has read a written one. -/
theorem readLatch_eq_next {α : Type} (l : Latch) (o : Option α) (k : α → Out) (t : State) :
    readLatch l o k = .next t ↔ ∃ a, o = some a ∧ k a = .next t := by
  cases o <;> simp

/-- A step that reads a latch faults at that latch or later. -/
theorem readLatch_eq_fault {α : Type} (l : Latch) (o : Option α) (k : α → Out) (f : Fault) :
    readLatch l o k = .fault f ↔ (o = none ∧ f = .unwrittenLatch l) ∨ ∃ a, o = some a ∧ k a = .fault f := by
  cases o <;> simp [eq_comm]

/-! ### Logical processors -/

@[simp] theorem Env.numLp_setLp (e : Env) (p : Nat) (l : Lp) : (e.setLp p l).numLp = e.numLp := by
  cases p <;> simp [Env.setLp, Env.numLp]

/-- Processor `p`, if there is one, is the one set. -/
theorem Env.lp_setLp_same (e : Env) (p : Nat) (l : Lp) (h : p < e.numLp) : (e.setLp p l).lp p = l := by
  cases p with
  | zero => rfl
  | succ p =>
    have hp : p < e.rest.length := by simpa [Env.numLp] using h
    simp [Env.setLp, Env.lp, hp]

/-- Every other processor stays as it is. -/
theorem Env.lp_setLp_other (e : Env) (p q : Nat) (l : Lp) (h : q ≠ p) (hq : q < e.numLp) :
    (e.setLp p l).lp q = e.lp q := by
  cases p with
  | zero =>
    cases q with
    | zero => exact absurd rfl h
    | succ q =>
      have : q < e.rest.length := by simpa [Env.numLp] using hq
      simp [Env.setLp, Env.lp, this]
  | succ p =>
    cases q with
    | zero => rfl
    | succ q =>
      have hne : p ≠ q := fun h' => h (by rw [h'])
      simp [Env.setLp, Env.lp, hne]

/-- The processor drawn exists (R40). -/
theorem State.nextLp_lt (s : State) : s.nextLp < s.env.numLp := Nat.mod_lt _ (by simp [Env.numLp])

/-! ### MSRs -/

theorem Lp.msr_setMsr_same (l : Lp) (a : U32) (v : U64) (h : l.msrValid a = true) : (l.setMsr a v).msr a = some v := by
  unfold Lp.msrValid Lp.msr at h
  unfold Lp.msr Lp.setMsr
  generalize l.msrs = cs at *
  induction cs with
  | nil => simp at h
  | cons c cs ih =>
    obtain ⟨b, w⟩ := c
    by_cases hb : b = a
    · subst hb; simp
    · have hab : (a == b) = false := by simpa using Ne.symm hb
      simp only [List.lookup, hab] at h
      simp only [List.map_cons, hb, if_false, List.lookup, hab]
      exact ih h

theorem Lp.msr_setMsr_other (l : Lp) (a b : U32) (v : U64) (h : b ≠ a) : (l.setMsr a v).msr b = l.msr b := by
  unfold Lp.msr Lp.setMsr
  generalize l.msrs = cs
  induction cs with
  | nil => rfl
  | cons c cs ih =>
    obtain ⟨x, w⟩ := c
    by_cases hx : x = a
    · subst hx
      have hbx : (b == x) = false := by simpa using h
      simp only [List.map_cons, if_true, List.lookup, hbx]
      exact ih
    · simp only [List.map_cons, hx, if_false, List.lookup]
      split <;> simp_all

/-- Writing an MSR changes no address's validity (R291). -/
theorem Lp.msrValid_setMsr (l : Lp) (a b : U32) (v : U64) : (l.setMsr a v).msrValid b = l.msrValid b := by
  by_cases h : b = a
  · subst h
    cases hv : l.msrValid b with
    | true => simp [Lp.msrValid, Lp.msr_setMsr_same l b v hv]
    | false =>
      have hn : l.msr b = none := by simpa [Lp.msrValid] using hv
      simp only [Lp.msrValid, Lp.msr, Lp.setMsr] at hn ⊢
      generalize l.msrs = cs at hn ⊢
      induction cs with
      | nil => rfl
      | cons c cs ih =>
        obtain ⟨x, w⟩ := c
        by_cases hx : x = b
        · subst hx; simp [List.lookup] at hn
        · have hbx : (b == x) = false := by simpa using Ne.symm hx
          simp only [List.lookup, hbx] at hn
          simp only [List.map_cons, hx, if_false, List.lookup, hbx]
          exact ih hn
  · simp [Lp.msrValid, Lp.msr_setMsr_other l a b v h]

@[simp] theorem Lp.setMsr_mem (l : Lp) (a : U32) (v : U64) : (l.setMsr a v).mem = l.mem := rfl
@[simp] theorem Lp.setMsr_gdtr (l : Lp) (a : U32) (v : U64) : (l.setMsr a v).gdtr = l.gdtr := rfl
@[simp] theorem Lp.setMsr_rejects (l : Lp) (a : U32) (v : U64) : (l.setMsr a v).rejects = l.rejects := rfl
@[simp] theorem Lp.setMsr_seg (l : Lp) (a : U32) (v : U64) (r : Config.SegReg) : (l.setMsr a v).seg r = l.seg r := by
  cases r <;> rfl
@[simp] theorem Lp.setSeg_mem (l : Lp) (r : Config.SegReg) (v : U16) : (l.setSeg r v).mem = l.mem := by cases r <;> rfl
@[simp] theorem Lp.setSeg_msrs (l : Lp) (r : Config.SegReg) (v : U16) : (l.setSeg r v).msrs = l.msrs := by cases r <;> rfl
@[simp] theorem Lp.setSeg_rejects (l : Lp) (r : Config.SegReg) (v : U16) : (l.setSeg r v).rejects = l.rejects := by
  cases r <;> rfl

/-! ### Primitives -/

/-- RDMSR answers the halves of the value of a valid MSR (R120). -/
theorem primRdmsr_eq_ok (a : U32) (s : State) (lo hi : U32) :
    primRdmsr a s = .ok (lo, hi) ↔ ∃ v, s.portLp.msr a = some v ∧ lo = msrLow v ∧ hi = msrHigh v := by
  unfold primRdmsr
  cases s.portLp.msr a <;> simp [eq_comm]

/-- RDMSR faults exactly on an invalid address (R120). -/
theorem primRdmsr_eq_error (a : U32) (s : State) (r : FaultRecord) :
    primRdmsr a s = .error r ↔ s.portLp.msr a = none ∧ r = .rdmsr a s.nextLp := by
  unfold primRdmsr
  cases s.portLp.msr a <;> simp [eq_comm]

/-- WRMSR writes one MSR of the processor drawn (R121). -/
theorem primWrmsr_eq_ok (a lo hi : U32) (s : State) (e : Env) :
    primWrmsr a lo hi s = .ok e ↔
      (s.portLp.msrValid a = true ∧ s.portLp.msrWriteOk a (msrValue lo hi) = true) ∧
        e = s.env.setLp s.nextLp (s.portLp.setMsr a (msrValue lo hi)) := by
  unfold primWrmsr
  rw [← Bool.and_eq_true]
  dsimp only
  split
  · rename_i h
    simp only [h, true_and, Except.ok.injEq]
    exact eq_comm
  · rename_i h
    simp only [h, false_and, reduceCtorEq]

/-- WRMSR faults exactly on an invalid address or a rejected value (R121). -/
theorem primWrmsr_eq_error (a lo hi : U32) (s : State) (r : FaultRecord) :
    primWrmsr a lo hi s = .error r ↔
      ¬ (s.portLp.msrValid a = true ∧ s.portLp.msrWriteOk a (msrValue lo hi) = true) ∧ r = .wrmsr a s.nextLp := by
  unfold primWrmsr
  rw [← Bool.and_eq_true]
  dsimp only
  split
  · rename_i h
    simp only [h, not_true_eq_false, false_and, reduceCtorEq]
  · rename_i h
    simp only [h, Bool.false_eq_true, not_false_eq_true, true_and, Except.error.injEq]
    exact eq_comm

/-- A MemRead takes one more byte from the processor that serves it (R124). -/
theorem memReadByte_eq_ok (job job' : MemJob) (s : State) :
    memReadByte job s = .ok job' ↔
      ∃ b, (s.env.lp (job.server s)).mem.read job.nextAddr.toNat = some b ∧
        job' = { job with lp := some (job.server s), got := job.got ++ [b] } := by
  unfold memReadByte
  cases (s.env.lp (job.server s)).mem.read job.nextAddr.toNat <;> simp [eq_comm]

/-- A MemRead faults exactly where the translation of the next byte's address does (R124). -/
theorem memReadByte_eq_error (job : MemJob) (s : State) (r : FaultRecord) :
    memReadByte job s = .error r ↔
      (s.env.lp (job.server s)).mem.read job.nextAddr.toNat = none ∧ r = .memread job.addr (job.server s) := by
  unfold memReadByte
  cases (s.env.lp (job.server s)).mem.read job.nextAddr.toNat <;> simp [eq_comm]

/-! ### Drawing for a MemRead -/

@[simp] theorem State.drawnFor_inst (s : State) (job : MemJob) : (s.drawnFor job).inst = s.inst := by
  unfold State.drawnFor; split <;> rfl
@[simp] theorem State.drawnFor_others (s : State) (job : MemJob) : (s.drawnFor job).others = s.others := by
  unfold State.drawnFor; split <;> rfl
@[simp] theorem State.drawnFor_params (s : State) (job : MemJob) : (s.drawnFor job).params = s.params := by
  unfold State.drawnFor; split <;> rfl
@[simp] theorem State.drawnFor_env (s : State) (job : MemJob) : (s.drawnFor job).env = s.env := by
  unfold State.drawnFor; split <;> rfl
@[simp] theorem State.drawnFor_callerMem (s : State) (job : MemJob) : (s.drawnFor job).callerMem = s.callerMem := by
  unfold State.drawnFor; split <;> rfl
@[simp] theorem State.drawnFor_agenda (s : State) (job : MemJob) : (s.drawnFor job).agenda = s.agenda := by
  unfold State.drawnFor; split <;> rfl

/-! ### SEG_MAP -/

/-- The six registers are all there are. -/
theorem mem_segRegs (r : Config.SegReg) : r ∈ Config.segRegs := by
  cases r <;> decide

/-- A legal SEG_MAP names every register, and no register twice (R232). -/
theorem Params.seg_bijective (c : Params) (h : c.wf = true) : Function.Bijective c.seg := by
  have hc : ∀ r, c.segMap.toList.count r = 1 := fun r =>
    beq_iff_eq.mp (List.all_eq_true.mp h r (mem_segRegs r))
  have hi : Function.Injective c.seg := by
    intro i j hij
    have hn : c.segMap.toList.Nodup := List.nodup_iff_count_le_one.mpr fun r => (hc r).le
    have hl : c.segMap.toList.length = 6 := by simp
    have := (List.Nodup.getElem_inj_iff hn (hi := by omega) (hj := by omega) (i := i.val) (j := j.val)).mp
      (by simpa [Params.seg] using hij)
    exact Fin.ext this
  refine ⟨hi, fun r => ?_⟩
  obtain ⟨n, hn, hr⟩ := List.mem_iff_getElem.mp (List.count_pos_iff.mp (by rw [hc r]; exact Nat.one_pos))
  exact ⟨⟨n, by simpa using hn⟩, by simpa [Params.seg] using hr⟩

/-- The default SEG_MAP is legal. -/
theorem Params.default_wf : Params.default.wf = true := by decide

/-! ### The dispatcher's steps -/

/-- What latching can answer (R186). -/
theorem latchStep_eq_next (h : Handler) (s t : State) :
    latchStep h s = .next t ↔
      ∃ base b, s.inst.inBuf = some base ∧ s.callerMem.readBytes base h.inMin = some b ∧
        t = State.toPhase { s with inst := latchOperands h b s.inst } (.validated .start) := by
  unfold latchStep
  rw [readLatch_eq_next]
  constructor
  · rintro ⟨base, hb, hk⟩
    cases hr : s.callerMem.readBytes base h.inMin with
    | none => simp [hr] at hk
    | some b =>
      simp only [hr, Host.Outcome.next.injEq] at hk
      exact ⟨base, b, hb, hr, hk.symm⟩
  · rintro ⟨base, b, hb, hr, rfl⟩
    exact ⟨base, hb, by simp [hr]⟩

/-- The phase aside, latching writes operand latches only. -/
theorem latchOperands_frame (h : Handler) (b : List Byte) (m : Inst) :
    (latchOperands h b m).thread = m.thread ∧ (latchOperands h b m).phase = m.phase ∧
      (latchOperands h b m).h = m.h ∧ (latchOperands h b m).inBuf = m.inBuf ∧
      (latchOperands h b m).outBuf = m.outBuf := by
  cases h <;> simp [latchOperands]

/-- The result image is made of written latches (R190). -/
theorem resultImage_eq_next (h : Handler) (m : Inst) (k : List Byte → Out) (t : State)
    (hn : resultImage h m k = .next t) : ∃ image, k image = .next t := by
  cases h with
  | readMsr =>
    simp only [resultImage, readLatch_eq_next] at hn
    obtain ⟨lo, -, hi, -, hk⟩ := hn
    exact ⟨_, hk⟩
  | querySegment =>
    simp only [resultImage, readLatch_eq_next] at hn
    obtain ⟨sel, -, r, -, v, -, lo, -, hi, -, hk⟩ := hn
    exact ⟨_, hk⟩
  | writeMsr => exact ⟨_, hn⟩
  | hNone => exact ⟨_, hn⟩

/-- What an output byte step can answer (R190): one byte written at `out[n]`, nothing else but the offset reached. -/
theorem outputByte_eq_next (h : Handler) (n : Nat) (s t : State) (hn : outputByte h n s = .next t) :
    ∃ base v, s.inst.outBuf = some base ∧ (s.callerMem.read (base + n)).isSome = true ∧
      t = State.toPhase { s with callerMem := s.callerMem.write (base + n) v } (.executed (n + 1)) := by
  unfold outputByte at hn
  obtain ⟨base, hb, hk⟩ := (readLatch_eq_next _ _ _ _).mp hn
  obtain ⟨image, hi⟩ := resultImage_eq_next _ _ _ _ hk
  cases hr : s.callerMem.read (base + n) with
  | none => simp [hr] at hi
  | some b =>
    simp only [hr, Host.Outcome.next.injEq] at hi
    exact ⟨base, _, hb, by simp [hr], hi.symm⟩

end Sys2Proof.Machine
end

