-- ==== Sys2Proof/Laws/Instructions.lean ====
section
/-! SUPPORT. What a step of a request can do, said once for each handler: if it answers a next state, which one. -/

namespace Sys2Proof.Machine

/-- Before the lookup the header is decoded (R184). -/
theorem fetchInstr_lookup (m : Inst) (k : Option Instr → Out) (h : m.phase = .received .lookup) :
    fetchInstr m k = headerOf m fun w => k (decode w).toOption := by
  unfold fetchInstr
  rw [h]

/-- From the lookup on the handler latch is read (R26, R30). -/
theorem fetchInstr_looked_up (m : Inst) (k : Option Instr → Out) (h : m.phase ≠ .received .lookup) :
    fetchInstr m k =
      readLatch .h m.h fun x =>
      readLatch .reqInLen m.reqInLen fun inLen =>
      readLatch .reqOutCap m.reqOutCap fun outCap =>
      k (x.instr inLen.toNat outCap.toNat) := by
  unfold fetchInstr
  split
  · exact absurd ‹_› h
  · rfl

/-- The phase decides what a step of a request does (R180). -/
theorem serve_eq_next (h : Handler) (inLen outCap : Nat) (execute : ExecStep → State → Out) (s t : State)
    (hn : serve h inLen outCap execute s = .next t) :
    (s.inst.phase = .idle ∧ t = s) ∨
    (s.inst.phase = .received .lookup ∧ t = s.lookupDone h) ∨
    (s.inst.phase = .received .gate ∧ sizesShort h inLen outCap = true ∧ t = s.complete .bufferTooSmall) ∨
    (s.inst.phase = .received .gate ∧ sizesShort h inLen outCap = false ∧ t = s.toPhase (.received .latch)) ∨
    (s.inst.phase = .received .latch ∧ ∃ base b, s.inst.inBuf = some base ∧
      s.callerMem.readBytes base h.inMin = some b ∧
      t = State.toPhase { s with inst := latchOperands h b s.inst } (.validated .start)) ∨
    (∃ w, s.inst.phase = .validated w ∧ executeStep h execute w s = .next t) ∨
    (∃ n, s.inst.phase = .executed n ∧ n < h.outSize ∧ ∃ base v, s.inst.outBuf = some base ∧
      (s.callerMem.read (base + n)).isSome = true ∧
      t = State.toPhase { s with callerMem := s.callerMem.write (base + n) v } (.executed (n + 1))) ∨
    (∃ n, s.inst.phase = .executed n ∧ h.outSize ≤ n ∧ t = s.succeed h.outSize) ∨
    (s.inst.phase = .completed ∧ t = s) := by
  unfold serve at hn
  split at hn
  · rename_i hp
    cases hn
    exact .inl ⟨hp, rfl⟩
  · rename_i hp
    cases hn
    exact .inr (.inl ⟨hp, rfl⟩)
  · rename_i hp
    unfold sizeGate at hn
    split at hn
    · rename_i hs
      cases hn
      exact .inr (.inr (.inl ⟨hp, hs, rfl⟩))
    · rename_i hs
      cases hn
      exact .inr (.inr (.inr (.inl ⟨hp, by simpa using hs, rfl⟩)))
  · rename_i hp
    exact .inr (.inr (.inr (.inr (.inl ⟨hp, (latchStep_eq_next h s t).mp hn⟩))))
  · rename_i w hp
    exact .inr (.inr (.inr (.inr (.inr (.inl ⟨w, hp, hn⟩)))))
  · rename_i n hp
    unfold resultStep at hn
    split at hn
    · rename_i hl
      obtain ⟨base, v, h1, h2, h3⟩ := outputByte_eq_next h n s t hn
      exact .inr (.inr (.inr (.inr (.inr (.inr (.inl ⟨n, hp, hl, base, v, h1, h2, h3⟩))))))
    · rename_i hl
      cases hn
      exact .inr (.inr (.inr (.inr (.inr (.inr (.inr (.inl ⟨n, hp, by omega, rfl⟩)))))))
  · rename_i hp
    cases hn
    exact .inr (.inr (.inr (.inr (.inr (.inr (.inr (.inr ⟨hp, rfl⟩)))))))
  · cases hn

/-- The execution of READ_MSR (R210): the two halves latched, or FAULTED; the draw used up. -/
theorem executeReadMsr_eq_next (s t : State) (hn : executeReadMsr s = .next t) :
    ∃ a, s.inst.opMsrAddr = some a ∧
      ((∃ v, s.portLp.msr a = some v ∧ t = State.executedAll { s.drawn with
          inst := { s.inst with resLo := some (msrLow v), resHi := some (msrHigh v) } }) ∨
        (s.portLp.msr a = none ∧ t = s.drawn.raise (.rdmsr a s.nextLp))) := by
  unfold executeReadMsr at hn
  obtain ⟨a, ha, hk⟩ := (readLatch_eq_next _ _ _ _).mp hn
  refine ⟨a, ha, ?_⟩
  split at hk
  · rename_i lo hi hr
    obtain ⟨v, hv, rfl, rfl⟩ := (primRdmsr_eq_ok _ _ _ _).mp hr
    cases hk
    exact .inl ⟨v, hv, rfl⟩
  · rename_i r hr
    obtain ⟨hv, rfl⟩ := (primRdmsr_eq_error _ _ _).mp hr
    cases hk
    exact .inr ⟨hv, rfl⟩

/-- The execution of WRITE_MSR (R212): one MSR written, or FAULTED; the draw used up. -/
theorem executeWriteMsr_eq_next (s t : State) (hn : executeWriteMsr s = .next t) :
    ∃ a lo hi, s.inst.opMsrAddr = some a ∧ s.inst.opLo = some lo ∧ s.inst.opHi = some hi ∧
      ((s.portLp.msrValid a = true ∧ s.portLp.msrWriteOk a (msrValue lo hi) = true ∧
          t = State.executedAll { s.drawn with
            env := s.env.setLp s.nextLp (s.portLp.setMsr a (msrValue lo hi)) }) ∨
        (¬ (s.portLp.msrValid a = true ∧ s.portLp.msrWriteOk a (msrValue lo hi) = true) ∧
          t = s.drawn.raise (.wrmsr a s.nextLp))) := by
  unfold executeWriteMsr at hn
  obtain ⟨a, ha, hk⟩ := (readLatch_eq_next _ _ _ _).mp hn
  obtain ⟨lo, hlo, hk⟩ := (readLatch_eq_next _ _ _ _).mp hk
  obtain ⟨hi, hhi, hk⟩ := (readLatch_eq_next _ _ _ _).mp hk
  refine ⟨a, lo, hi, ha, hlo, hhi, ?_⟩
  split at hk
  · rename_i e hr
    obtain ⟨⟨h1, h2⟩, rfl⟩ := (primWrmsr_eq_ok _ _ _ _ _).mp hr
    cases hk
    exact .inl ⟨h1, h2, rfl⟩
  · rename_i r hr
    obtain ⟨hv, rfl⟩ := (primWrmsr_eq_error _ _ _ _ _).mp hr
    cases hk
    exact .inr ⟨hv, rfl⟩

/-- The selector read ends execution unresolved or leaves SGDT next (R232 to R235). -/
theorem querySelector_cases (r : Config.SegReg) (s : State) :
    (noLookup s.params (primRdsreg r s) = true ∧ querySelector r s =
      State.unresolved { s.drawn with inst := { s.inst with resSel := some (primRdsreg r s) } }) ∨
    (noLookup s.params (primRdsreg r s) = false ∧ querySelector r s =
      State.toPhase { s.drawn with inst := { s.inst with resSel := some (primRdsreg r s) } } (.validated .sgdt)) := by
  unfold querySelector
  dsimp only [State.drawn_params]
  cases h : noLookup s.params (primRdsreg r s) <;> simp

/-- The table lookup ends execution unresolved or starts the first MemRead (R236). -/
theorem queryTable_cases (sel : U16) (s : State) :
    queryTable sel s = s.drawn.unresolved ∨
    queryTable sel s = s.drawn.toPhase (.validated (.readLo (primSgdt s).limit (tableOffset (selDecode sel).index)
      (MemJob.at ((primSgdt s).base + tableOffset (selDecode sel).index)))) := by
  unfold queryTable
  dsimp only
  split
  · exact .inl rfl
  · exact .inr rfl

/-- After the first half execution is over, or the second MemRead starts (R237 to R239). -/
theorem queryWidth_cases (glim : U16) (off ea rawLo : U64) (s : State) :
    (entryWide s.params rawLo = false ∧ queryWidth glim off ea rawLo s = s.resolved rawLo 0#64 0#1) ∨
    (entryWide s.params rawLo = true ∧ queryWidth glim off ea rawLo s = s.unresolved) ∨
    (entryWide s.params rawLo = true ∧
      queryWidth glim off ea rawLo s = s.toPhase (.validated (.readHi rawLo (MemJob.at (ea + 8#64))))) := by
  unfold queryWidth
  cases h : entryWide s.params rawLo
  · exact .inl ⟨rfl, if_neg Bool.false_ne_true⟩
  · rw [if_pos rfl]
    split
    · exact .inr (.inl ⟨rfl, rfl⟩)
    · exact .inr (.inr ⟨rfl, rfl⟩)

/-- A byte of the first MemRead faults, is added, or ends the first half (R124, R237). -/
theorem queryReadLo_cases (glim : U16) (off : U64) (job : MemJob) (s : State) :
    (∃ r, memReadByte job s = .error r ∧ queryReadLo glim off job s = (s.drawnFor job).raise r) ∨
    (∃ job', memReadByte job s = .ok job' ∧ job'.got.length < 8 ∧
      queryReadLo glim off job s = (s.drawnFor job).toPhase (.validated (.readLo glim off job'))) ∨
    (∃ job', memReadByte job s = .ok job' ∧ 8 ≤ job'.got.length ∧
      queryReadLo glim off job s = queryWidth glim off job.addr (le64 job'.got) (s.drawnFor job)) := by
  unfold queryReadLo
  cases h : memReadByte job s with
  | error r => exact .inl ⟨r, rfl, rfl⟩
  | ok job' =>
    dsimp only
    split
    · rename_i hl
      exact .inr (.inl ⟨job', rfl, hl, rfl⟩)
    · rename_i hl
      exact .inr (.inr ⟨job', rfl, by omega, rfl⟩)

/-- A byte of the second MemRead faults, is added, or ends execution resolved (R124, R238, R239). -/
theorem queryReadHi_cases (rawLo : U64) (job : MemJob) (s : State) :
    (∃ r, memReadByte job s = .error r ∧ queryReadHi rawLo job s = (s.drawnFor job).raise r) ∨
    (∃ job', memReadByte job s = .ok job' ∧ job'.got.length < 8 ∧
      queryReadHi rawLo job s = (s.drawnFor job).toPhase (.validated (.readHi rawLo job'))) ∨
    (∃ job', memReadByte job s = .ok job' ∧ 8 ≤ job'.got.length ∧
      queryReadHi rawLo job s = (s.drawnFor job).resolved rawLo (le64 job'.got) 1#1) := by
  unfold queryReadHi
  cases h : memReadByte job s with
  | error r => exact .inl ⟨r, rfl, rfl⟩
  | ok job' =>
    dsimp only
    split
    · rename_i hl
      exact .inr (.inl ⟨job', rfl, hl, rfl⟩)
    · rename_i hl
      exact .inr (.inr ⟨job', rfl, by omega, rfl⟩)

/-- The execution of QUERY_SEGMENT (R230), step by step. -/
theorem executeQuerySegment_eq_next (w : ExecStep) (s t : State) (hn : executeQuerySegment w s = .next t) :
    (w = .start ∧ ∃ v, s.inst.opSegIdx = some v ∧
      ((segIndex v = none ∧ t = s.complete .invalidOperand) ∨
        ∃ i, segIndex v = some i ∧ t = querySelector (s.params.seg i) s)) ∨
    (w = .sgdt ∧ ∃ sel, s.inst.resSel = some sel ∧ t = queryTable sel s) ∨
    (∃ glim off job, w = .readLo glim off job ∧ t = queryReadLo glim off job s) ∨
    (∃ rawLo job, w = .readHi rawLo job ∧ t = queryReadHi rawLo job s) := by
  cases w with
  | start =>
    obtain ⟨v, hv, hk⟩ := (readLatch_eq_next _ _ _ _).mp hn
    refine .inl ⟨rfl, v, hv, ?_⟩
    split at hk
    · rename_i i hi
      cases hk
      exact .inr ⟨i, hi, rfl⟩
    · rename_i hi
      cases hk
      exact .inl ⟨hi, rfl⟩
  | sgdt =>
    obtain ⟨sel, hv, hk⟩ := (readLatch_eq_next _ _ _ _).mp hn
    cases hk
    exact .inr (.inl ⟨rfl, sel, hv, rfl⟩)
  | readLo glim off job =>
    cases hn
    exact .inr (.inr (.inl ⟨glim, off, job, rfl, rfl⟩))
  | readHi rawLo job =>
    cases hn
    exact .inr (.inr (.inr ⟨rawLo, job, rfl, rfl⟩))

/-- A step in VALIDATED is the operand check's failure or a step of the execution rule (R187, R188). -/
theorem executeStep_eq_next (h : Handler) (execute : ExecStep → State → Out) (w : ExecStep) (s t : State)
    (hn : executeStep h execute w s = .next t) :
    execute w s = .next t ∨
      (w = .start ∧ h = .querySegment ∧ (∃ v, s.inst.opSegIdx = some v ∧ segIndex v = none) ∧
        t = s.complete .invalidOperand) := by
  cases w with
  | start =>
    cases h with
    | querySegment =>
      obtain ⟨v, hv, hk⟩ := (readLatch_eq_next _ _ _ _).mp hn
      cases hi : segIndex v with
      | some i => exact .inl (by simpa [hi] using hk)
      | none =>
        refine .inr ⟨rfl, rfl, ⟨v, hv, hi⟩, ?_⟩
        simp only [hi, Option.isSome_none, Bool.false_eq_true, if_false, Host.Outcome.next.injEq] at hk
        exact hk.symm
    | readMsr => exact .inl hn
    | writeMsr => exact .inl hn
    | hNone => exact .inl hn
  | sgdt => exact .inl hn
  | readLo glim off job => exact .inl hn
  | readHi rawLo job => exact .inl hn

end Sys2Proof.Machine
end

