-- ==== Sys2Proof/Laws/PerInstr.lean ====
section
/-! SUPPORT. The laws said once for each instruction. -/

namespace Sys2Proof.Laws.SelectorNamesHandler

open Sys2Proof.Machine

/-- An instruction's encoding is three words, the first its selector; the dispatch table gives its handler for that selector
(R32, R91), and the handler gives the instruction back with its declared sizes. -/
def Statement (i : Instr) : Prop :=
  (encode i).length = 3 ∧ (encode i).head? = some i.op ∧ Handler.ofOp i.op = instrHandler i ∧
    (instrHandler i).instr i.inLen i.outCap = some i

theorem readMsr (inLen outCap : Nat) : Statement (.readMsr inLen outCap) := ⟨rfl, rfl, rfl, rfl⟩

theorem writeMsr (inLen outCap : Nat) : Statement (.writeMsr inLen outCap) := ⟨rfl, rfl, rfl, rfl⟩

theorem querySegment (inLen outCap : Nat) : Statement (.querySegment inLen outCap) := ⟨rfl, rfl, rfl, rfl⟩

end Sys2Proof.Laws.SelectorNamesHandler
end

