-- ==== Sys2Proof/Tests/Slice0.lean ====
section
/-! SUPPORT. The model's own tests. The expected values are those of the test vectors of spec/95_test_vectors.md (named D, M,
W and Q there) or worked out by hand from the rule named. The `witness_` theorems show, for each statement with hypotheses, a
state and operands that meet all of them. -/

namespace Sys2Proof.Tests

open Sys2Proof Sys2Proof.Machine

/-! ### Well-formedness (R90, R105) -/

theorem test_wf_refuses_long_input : Instr.wf (.readMsr 4294967296 8) = false := by decide

theorem test_wf_refuses_large_output : Instr.wf (.querySegment 2 4294967296) = false := by decide

theorem test_wf_accepts_largest : Instr.wf (.writeMsr 4294967295 4294967295) = true := by decide

theorem test_line_refuses_wide_address : (LineInput.addr 4294967296).fits = false := by decide

theorem test_line_refuses_wide_halves :
    (LineInput.write 1 4294967296 0).fits = false ∧ (LineInput.write 1 0 4294967296).fits = false := by decide

theorem test_line_refuses_wide_index : (LineInput.idx 65536).fits = false := by decide

theorem test_line_refuses_wide_byte : (LineInput.raw [255, 256]).fits = false := by decide

theorem test_line_refuses_wide_selector : Line.fits ⟨.op 4294967296, .raw [], some 0, some 0⟩ = false := by decide

/-! ### Decoding: the words written out from R91, bit 31 first -/

theorem test_decode_readMsr :
    decode [0b00000000_00000000_00000000_00000001#32, 4#32, 8#32] = .ok (.readMsr 4 8) := by decide

theorem test_decode_writeMsr :
    decode [0b00000000_00000000_00000000_00000010#32, 12#32, 0#32] = .ok (.writeMsr 12 0) := by decide

theorem test_decode_querySegment :
    decode [0b00000000_00000000_00000000_00000011#32, 2#32, 40#32] = .ok (.querySegment 2 40) := by decide

/-- D1, D2, D3, D4: the neighbours of the table, all 32 bits, and a low byte of 1 are not in it. -/
theorem test_decode_rejects :
    decode [0#32, 0#32, 0#32] = .error (.unsupportedOperation 0#32) ∧
    decode [4#32, 4#32, 8#32] = .error (.unsupportedOperation 4#32) ∧
    decode [0xFFFFFFFF#32, 0#32, 0#32] = .error (.unsupportedOperation 0xFFFFFFFF#32) ∧
    decode [0x101#32, 4#32, 8#32] = .error (.unsupportedOperation 0x101#32) := by decide

theorem test_decodeTableWord :
    decodeTableWord 32 1 = some (.readMsr 0 0) ∧ decodeTableWord 32 2 = some (.writeMsr 0 0) ∧
    decodeTableWord 32 3 = some (.querySegment 0 0) ∧ decodeTableWord 32 4 = none := by decide

/-- A word of the table runs as the first instruction after reset: its lookup is done. -/
theorem test_withFetchWord :
    ∃ t, step (State.reset.withFetchWord 32 3) = .next t ∧ t.inst.h = some .querySegment ∧
      t.inst.phase = .received .gate := ⟨_, rfl, rfl, rfl⟩

/-! ### The decoders and the values, from 95_test_vectors.md sections 2.2, 2.3 and R98 -/

theorem test_status_codes :
    Status.success.code = 0#2 ∧ Status.bufferTooSmall.code = 1#2 ∧ Status.invalidOperand.code = 2#2 ∧
      Status.unsupportedOperation.code = 3#2 := by decide

/-- A system entry of Q3, wide: the upper base comes from the second half. -/
theorem test_decode_wide_entry :
    decodeDescriptor 0x1200893456780067#64 0x00000000FFFFF800#64 1#1 =
      ⟨0xFFFFF80012345678#64, 0x67#20, 9#4, 0#1, 0#2, 1#1, 0#1, 0#1, 0#1, 0#1, 1#1⟩ := by decide

/-- The same entry of Q4, narrow: the second half is ignored. -/
theorem test_decode_narrow_entry :
    decodeDescriptor 0x1200893456780067#64 0x00000000FFFFF800#64 0#1 =
      ⟨0x12345678#64, 0x67#20, 9#4, 0#1, 0#2, 1#1, 0#1, 0#1, 0#1, 0#1, 0#1⟩ := by decide

/-- R155, R157: 1010 is non-conforming readable code, not accessed; where the entry is not present it has no reading. -/
theorem test_type_reading :
    View.typeReading { View.zero with p := 1#1, s := 1#1, typ := 0b1010#4 } = some (.code 0#1 1#1 0#1) ∧
    View.typeReading { View.zero with p := 0#1, s := 1#1, typ := 0b1010#4 } = none := by decide

/-- FS of environment G, 0x0053: RPL 3, TI 0, index 10. -/
theorem test_selector_fields : selDecode 0x0053#16 = ⟨3#2, 0#1, 10#13⟩ := by decide

/-! ### A small machine: environment G of 95_test_vectors.md section 2.7, as far as the tests need it -/

/-- Bytes laid out from an address on. -/
def place (a : Nat) : List Byte → Memory → Memory
  | [], m => m
  | b :: bs, m => Memory.write (place (a + 1) bs m) a b

/-- Entries 8 and 9 of the global table of environment G: the one wide entry. -/
def tableG : List Byte := put64 0x1200893456780067#64 ++ put64 0x00000000FFFFF800#64

/-- Processor 0 of environment G, with the MSR of section 2.5 and the rejected write of W6; GS as in Q3. -/
def lpG : Lp where
  cs := 0x0010#16
  ss := 0x0018#16
  ds := 0x002B#16
  es := 0x000F#16
  fs := 0x0053#16
  gs := 0x0040#16
  gdtr := { limit := 0x006F#16, base := 0xFFFFF80000001000#64 }
  msrs := [(0xC0000082#32, 0xFFFFF80312345678#64)]
  rejects := [(0xC0000082#32, 0x8000000000000000#64)]
  mem := place 0xFFFFF80000001040 tableG []

/-- Processor 1: another MSR value (M6), no memory. -/
def lpH : Lp := { lpG with msrs := [(0xC0000082#32, 0xFFFFF80300000000#64)], mem := [] }

/-- The caller's memory: input bytes at 0, forty output bytes 0xEE at 100. -/
def buffers (input : List Byte) : Memory := place 0 input (place 100 (List.replicate 40 0xEE#8) [])

/-- What reads where bytes were laid out. -/
theorem read_place (bs : List Byte) : ∀ (a x : Nat) (m : Memory),
    (place a bs m).read x = if a ≤ x ∧ x < a + bs.length then bs[x - a]? else m.read x := by
  induction bs with
  | nil =>
    intro a x m
    rw [if_neg (by simp)]
    rfl
  | cons b bs ih =>
    intro a x m
    rw [place, Memory.read_write, ih, List.length_cons]
    by_cases h : x = a
    · simp [h]
    · by_cases hx : a ≤ x ∧ x < a + (bs.length + 1)
      · obtain ⟨k, rfl⟩ : ∃ k, x = a + 1 + k := ⟨x - (a + 1), by omega⟩
        have e : a + 1 + k - a = k + 1 := by omega
        rw [if_neg h, if_pos hx, if_pos (by omega), e, Nat.add_sub_cancel_left, List.getElem?_cons_succ]
      · rw [if_neg h, if_neg hx, if_neg (by omega)]

/-- The host provides the forty output bytes. -/
theorem buffers_output (input : List Byte) (h : input.length ≤ 100) (k : Nat) (hk : k < 40) :
    ((buffers input).read (100 + k)).isSome = true := by
  rw [buffers, read_place, if_neg (by omega), read_place, if_pos (by rw [List.length_replicate]; omega), Nat.add_sub_cancel_left,
    List.getElem?_replicate_of_lt hk]
  rfl

/-- The input bytes are at 0. -/
theorem buffers_input (input : List Byte) (k : Nat) (hk : k < input.length) :
    (buffers input).read (0 + k) = input[k]? := by
  rw [buffers, read_place, if_pos (by omega), Nat.add_sub_cancel_left]

/-- A machine with an instance in focus, every draw processor 0, nothing pending. -/
def machine (m : Inst) (input : List Byte) : State where
  inst := m
  others := []
  params := Params.default
  env := { first := lpG, rest := [lpH] }
  callerMem := buffers input
  agenda := []
  draws := [0, 0, 0, 0]
  drawCount := 0

/-- A received request with its buffers at 0 and 100. -/
def received (op inLen outCap : U32) : Inst := Inst.receive 0 ⟨op, inLen, outCap, 0, 100⟩

/-- READ_MSR of 0xC0000082 at some point of the request. -/
def reading (p : Phase) : Inst :=
  { received 1#32 4#32 8#32 with phase := p, h := some .readMsr, opMsrAddr := some 0xC0000082#32 }

/-- READ_MSR about to latch its operand. -/
def latching : Inst := { received 1#32 4#32 8#32 with phase := .received .latch, h := some .readMsr }

/-- READ_MSR with its result latched. -/
def readDone (p : Phase) : Inst := { reading p with resLo := some 0x12345678#32, resHi := some 0xFFFFF803#32 }

/-- WRITE_MSR of a value to 0xC0000082 at some point of the request. -/
def writing (p : Phase) (lo hi : U32) : Inst :=
  { received 2#32 12#32 0#32 with
    phase := p, h := some .writeMsr, opMsrAddr := some 0xC0000082#32, opLo := some lo, opHi := some hi }

/-- QUERY_SEGMENT of an index at some point of the request. -/
def querying (p : Phase) (idx : U16) : Inst :=
  { received 3#32 2#32 40#32 with phase := p, h := some .querySegment, opSegIdx := some idx }

/-- QUERY_SEGMENT with the selector of GS latched. -/
def seeking (p : Phase) : Inst := { querying p 5#16 with resSel := some 0x0040#16 }

/-- QUERY_SEGMENT with an unresolved result latched. -/
def queryDone (p : Phase) : Inst :=
  { seeking p with
    resResolved := some 0#1, resView := some View.zero, resRawLo := some 0#64, resRawHi := some 0#64 }

/-- The address of entry 8 of the table. -/
def entry8 : U64 := 0xFFFFF80000001040#64

/-- The first seven bytes of entry 8. -/
def sevenBytes : List Byte := [0x67#8, 0x00#8, 0x78#8, 0x56#8, 0x34#8, 0x89#8, 0x00#8]

/-- The input bytes of M1, W1 and Q3. -/
def inputM1 : List Byte := [0x82#8, 0x00#8, 0x00#8, 0xC0#8]

/-- The input bytes of W1. -/
def inputW1 : List Byte :=
  inputM1 ++ [0x21#8, 0x43#8, 0x65#8, 0x87#8, 0x03#8, 0xF8#8, 0xFF#8, 0xFF#8]

/-- The input bytes of Q3. -/
def inputQ3 : List Byte := [0x05#8, 0x00#8]

/-! ### One step of each instruction -/

/-- M1: the value read is latched in its two halves. -/
theorem test_readMsr_latches :
    ∃ t, exec (.readMsr 4 8) (machine (reading (.validated .start)) []) = .next t ∧
      t.inst.resLo = some 0x12345678#32 ∧ t.inst.resHi = some 0xFFFFF803#32 := ⟨_, rfl, by decide, by decide⟩

/-- M1: byte 4 of the output is the low byte of `high`. -/
theorem test_readMsr_writes_high_at_four :
    ∃ t, exec (.readMsr 4 8) (machine (readDone (.executed 4)) []) = .next t ∧
      t.callerMem.read 104 = some 0x03#8 ∧ t.callerMem.read 103 = some 0xEE#8 := ⟨_, rfl, by decide, by decide⟩

/-- W1: the MSR holds `high : low`, on processor 0 alone. -/
theorem test_writeMsr_writes :
    ∃ t, exec (.writeMsr 12 0) (machine (writing (.validated .start) 0x87654321#32 0xFFFFF803#32) []) = .next t ∧
      (t.env.lp 0).msr 0xC0000082#32 = some 0xFFFFF80387654321#64 ∧
      (t.env.lp 1).msr 0xC0000082#32 = some 0xFFFFF80300000000#64 := ⟨_, rfl, by decide, by decide⟩

/-- W6: a rejected value faults. -/
theorem test_writeMsr_rejected :
    ∃ t, exec (.writeMsr 12 0) (machine (writing (.validated .start) 0#32 0x80000000#32) []) = .next t ∧
      t.inst.phase = .faulted (.wrmsr 0xC0000082#32 0) ∧
      (t.env.lp 0).msr 0xC0000082#32 = some 0xFFFFF80312345678#64 := ⟨_, rfl, by decide, by decide⟩

/-- Q7: index 6 is an invalid operand. -/
theorem test_querySegment_index_six :
    ∃ t, exec (.querySegment 2 40) (machine (querying (.validated .start) 6#16) []) = .next t ∧
      t.inst.response = some (.invalidOperand, 0#32) ∧ t.drawCount = 0 := ⟨_, rfl, by decide, rfl⟩

/-- Q3: the first half of entry 8 is a wide entry, whose second half is sought eight bytes on. -/
theorem test_querySegment_wide :
    ∃ t, exec (.querySegment 2 40)
        (machine (seeking (.validated (.readLo 0x006F#16 0x40#64 ⟨entry8, some 0, sevenBytes⟩))) []) = .next t ∧
      t.inst.phase = .validated (.readHi 0x1200893456780067#64 ⟨0xFFFFF80000001048#64, none, []⟩) :=
  ⟨_, rfl, by decide⟩

/-! ### Witnesses: the hypotheses of the statements can be met -/

/-- OtherSelectorsAreRejected: on both sides of the table, and headers of 2 and 4 words. -/
theorem witness_other_selectors :
    ((0#32 ≠ 1#32 ∧ 0#32 ≠ 2#32 ∧ 0#32 ≠ 3#32) ∧ (4#32 ≠ 1#32 ∧ 4#32 ≠ 2#32 ∧ 4#32 ≠ 3#32)) ∧
    [1#32, 4#32].length ≠ 3 ∧ [1#32, 4#32, 8#32, 0#32].length ≠ 3 := by decide

/-- LineOperandsAreReassembled: every field at its largest value. -/
theorem witness_line_operands :
    (LineInput.addr 4294967295).fits = true ∧ (LineInput.write 4294967295 4294967295 4294967295).fits = true ∧
    (LineInput.idx 65535).fits = true := by decide

/-- StepRunsTheInstructionServed, with nothing pending, before the lookup. -/
theorem witness_step_runs_lookup :
    (machine (received 1#32 4#32 8#32) []).agenda = [] ∧
    (machine (received 1#32 4#32 8#32) []).inst.servingInstr (.readMsr 4 8) :=
  ⟨rfl, .inl rfl, 4#32, 8#32, rfl, rfl, .inl ⟨rfl, 1#32, rfl, by decide⟩⟩

/-- StepRunsTheInstructionServed, with a `run` pending, after the lookup. -/
theorem witness_step_runs_thread :
    let s : State := { machine (querying (.validated .start) 5#16) [] with agenda := [.run 0] }
    s.agenda = .run 0 :: [] ∧
    (State.focus { s with agenda := [] } 0).inst.servingInstr (.querySegment 2 40) :=
  ⟨rfl, .inr (.inl rfl), 2#32, 40#32, rfl, rfl, .inr ⟨by decide, .querySegment, rfl, rfl⟩⟩

/-- LookupStep: a selector of the table and the first above it. -/
theorem witness_lookup :
    let s := machine (received 3#32 2#32 40#32) []
    let u := machine (received 4#32 4#32 8#32) []
    (s.agenda = [] ∧ s.inst.phase = .received .lookup ∧ s.inst.reqOp = some 3#32 ∧ s.inst.reqInLen = some 2#32 ∧
      s.inst.reqOutCap = some 40#32) ∧
    (u.agenda = [] ∧ u.inst.phase = .received .lookup ∧ u.inst.reqOp = some 4#32 ∧ u.inst.reqInLen = some 4#32 ∧
      u.inst.reqOutCap = some 8#32) := by
  refine ⟨⟨rfl, rfl, rfl, rfl, rfl⟩, rfl, rfl, rfl, rfl, rfl⟩

/-- SizeGateStep: its one hypothesis, and the gate at its bounds (D9, M1, W2, Q10). -/
theorem witness_size_gate :
    (machine { reading (.received .gate) with opMsrAddr := none } []).inst.phase = .received .gate ∧
    sizesShort .readMsr 4 7 = true ∧ sizesShort .readMsr 3 8 = true ∧ sizesShort .readMsr 4 8 = false ∧
    sizesShort .writeMsr 11 0 = true ∧ sizesShort .writeMsr 12 0 = false ∧
    sizesShort .querySegment 1 40 = true ∧ sizesShort .querySegment 2 39 = true ∧
    sizesShort .querySegment 2 40 = false := by decide

/-- OperandLatchingStep: the twelve bytes of W1, which hold the shorter inputs too. -/
theorem witness_latching :
    let s := machine (received 2#32 12#32 0#32) inputW1
    let t := s.toPhase (.received .latch)
    t.inst.phase = .received .latch ∧ t.inst.inBuf = some 0 ∧
    ∀ k, k < 12 → t.callerMem.read (0 + k) = some (inputW1.getD k 0#8) := by
  refine ⟨rfl, rfl, ?_⟩
  decide

/-- MissingInputIsRefused: four bytes of twelve. -/
theorem witness_missing_input :
    let s := (machine (received 2#32 12#32 0#32) inputM1).toPhase (.received .latch)
    s.inst.phase = .received .latch ∧ s.inst.inBuf = some 0 ∧
    ∃ k, k < (instrHandler (.writeMsr 12 0)).inMin ∧ s.callerMem.read (0 + k) = none := by
  refine ⟨rfl, rfl, 4, ?_⟩
  decide

/-- SuccessResponse. -/
theorem witness_success :
    (machine (readDone (.executed 8)) []).inst.phase = .executed 8 ∧
    (machine (writing (.executed 0) 0#32 0#32) []).inst.phase = .executed 0 ∧
    (machine (queryDone (.executed 40)) []).inst.phase = .executed 40 := ⟨rfl, rfl, rfl⟩

/-- ReadMsrExecutes (M1). -/
theorem witness_readMsr_executes :
    let s := machine (reading (.validated .start)) []
    s.inst.phase = .validated .start ∧ s.inst.opMsrAddr = some 0xC0000082#32 ∧
    (s.env.lp s.nextLp).msr 0xC0000082#32 = some 0xFFFFF80312345678#64 := ⟨rfl, rfl, rfl⟩

/-- ReadMsrInvalidFaults (M5). -/
theorem witness_readMsr_invalid :
    let s := machine { reading (.validated .start) with opMsrAddr := some 0x12345678#32 } []
    s.inst.phase = .validated .start ∧ s.inst.opMsrAddr = some 0x12345678#32 ∧
    (s.env.lp s.nextLp).msrValid 0x12345678#32 = false := ⟨rfl, rfl, rfl⟩

/-- ReadMsrWritesItsResult: the first and the last byte, provided; a last byte that is not. -/
theorem witness_readMsr_output :
    let s := machine (readDone (.executed 0)) []
    let u := machine (readDone (.executed 7)) []
    let w := machine { readDone (.executed 7) with outBuf := some 200 } []
    (s.inst.phase = .executed 0 ∧ s.inst.outBuf = some 100 ∧ s.inst.resLo = some 0x12345678#32 ∧
      s.inst.resHi = some 0xFFFFF803#32 ∧ (s.callerMem.read (100 + 0)).isSome = true) ∧
    (u.inst.phase = .executed 7 ∧ u.inst.outBuf = some 100 ∧ u.inst.resLo = some 0x12345678#32 ∧
      u.inst.resHi = some 0xFFFFF803#32 ∧ (u.callerMem.read (100 + 7)).isSome = true) ∧
    (w.inst.phase = .executed 7 ∧ w.inst.outBuf = some 200 ∧ w.inst.resLo = some 0x12345678#32 ∧
      w.inst.resHi = some 0xFFFFF803#32 ∧ w.callerMem.read (200 + 7) = none) :=
  ⟨⟨rfl, rfl, rfl, rfl, rfl⟩, ⟨rfl, rfl, rfl, rfl, rfl⟩, rfl, rfl, rfl, rfl, rfl⟩

/-- WriteMsrExecutes (W1). -/
theorem witness_writeMsr_executes :
    let s := machine (writing (.validated .start) 0x87654321#32 0xFFFFF803#32) []
    s.inst.phase = .validated .start ∧ s.inst.opMsrAddr = some 0xC0000082#32 ∧
    s.inst.opLo = some 0x87654321#32 ∧ s.inst.opHi = some 0xFFFFF803#32 ∧
    (s.env.lp s.nextLp).msrValid 0xC0000082#32 = true ∧
    (0xC0000082#32, (0xFFFFF803#32 ++ 0x87654321#32 : BitVec (32 + 32))) ∉ (s.env.lp s.nextLp).rejects := by
  refine ⟨rfl, rfl, rfl, rfl, rfl, ?_⟩
  decide

/-- WriteMsrRejectedFaults: a rejected value (W6) and an invalid address (W5). -/
theorem witness_writeMsr_rejected :
    let s := machine (writing (.validated .start) 0#32 0x80000000#32) []
    let u := machine { writing (.validated .start) 1#32 0#32 with opMsrAddr := some 0xDEAD#32 } []
    (s.inst.phase = .validated .start ∧ s.inst.opMsrAddr = some 0xC0000082#32 ∧ s.inst.opLo = some 0#32 ∧
      s.inst.opHi = some 0x80000000#32 ∧
      (0xC0000082#32, (0x80000000#32 ++ 0#32 : BitVec (32 + 32))) ∈ (s.env.lp s.nextLp).rejects) ∧
    (u.inst.phase = .validated .start ∧ u.inst.opMsrAddr = some 0xDEAD#32 ∧ u.inst.opLo = some 1#32 ∧
      u.inst.opHi = some 0#32 ∧ (u.env.lp u.nextLp).msrValid 0xDEAD#32 = false) := by
  refine ⟨⟨rfl, rfl, rfl, rfl, ?_⟩, rfl, rfl, rfl, rfl, rfl⟩
  decide

/-- WriteBackIsIdempotent: a read and its write back. -/
theorem witness_write_back :
    let s := machine (reading (.validated .start)) []
    primRdmsr 0xC0000082#32 s = .ok (0x12345678#32, 0xFFFFF803#32) ∧
    ∃ e, primWrmsr 0xC0000082#32 0x12345678#32 0xFFFFF803#32 s = .ok e := ⟨by rfl, _, rfl⟩

/-- SegmentIndexChecked: 0, 5, 6 and 65535, each under one clause only (Q1, Q6, Q7, Q8). -/
theorem witness_segment_index :
    (∀ v ∈ [0#16, 5#16, 6#16, 65535#16],
      (machine (querying (.validated .start) v) []).inst.phase = .validated .start ∧
      (machine (querying (.validated .start) v) []).inst.opSegIdx = some v) ∧
    ((0#16).toNat ≤ 5 ∧ ¬ 6 ≤ (0#16).toNat) ∧ ((5#16).toNat ≤ 5 ∧ ¬ 6 ≤ (5#16).toNat) ∧
    (6 ≤ (6#16).toNat ∧ ¬ (6#16).toNat ≤ 5) ∧ 6 ≤ (65535#16).toNat ∧ ¬ (65535#16).toNat ≤ 5 :=
  ⟨fun _ _ => ⟨rfl, rfl⟩, by decide⟩

/-- SelectorIsRead: resolution off, the local-table selector of ES (Q15), a null selector, and GS as in Q3, which goes on to
the table. -/
theorem witness_selector :
    let off := { machine (querying (.validated .start) 5#16) [] with
      params := { Params.default with resolveDescriptor := false } }
    let es := machine (querying (.validated .start) 3#16) []
    let null := { machine (querying (.validated .start) 0#16) [] with env := { first := { lpG with cs := 2#16 }, rest := [] } }
    let gs := machine (querying (.validated .start) 5#16) []
    (off.inst.phase = .validated .start ∧ off.inst.opSegIdx = some 5#16 ∧ off.params.resolveDescriptor = false) ∧
    (es.inst.phase = .validated .start ∧ es.inst.opSegIdx = some 3#16 ∧ es.params.resolveDescriptor = true ∧
      ((es.env.lp es.nextLp).seg es.params.segMap[3]).extractLsb' 2 1 = 1#1) ∧
    (null.inst.phase = .validated .start ∧ null.inst.opSegIdx = some 0#16 ∧ null.params.resolveDescriptor = true ∧
      ((null.env.lp null.nextLp).seg null.params.segMap[0]).extractLsb' 2 1 = 0#1 ∧
      ((null.env.lp null.nextLp).seg null.params.segMap[0]).extractLsb' 3 13 = 0#13) ∧
    (gs.inst.phase = .validated .start ∧ gs.inst.opSegIdx = some 5#16 ∧ gs.params.resolveDescriptor = true ∧
      ((gs.env.lp gs.nextLp).seg gs.params.segMap[5]).extractLsb' 2 1 = 0#1 ∧
      ((gs.env.lp gs.nextLp).seg gs.params.segMap[5]).extractLsb' 3 13 ≠ 0#13) := by
  refine ⟨⟨rfl, rfl, rfl⟩, ⟨rfl, rfl, rfl, by decide⟩, ⟨rfl, rfl, rfl, by decide, by decide⟩, rfl, rfl, rfl, by decide, by decide⟩

/-- TableBoundsAreChecked: inside (Q3) and past the limit (Q16). -/
theorem witness_table_bounds :
    let s := machine (seeking (.validated .sgdt)) []
    let u := machine { seeking (.validated .sgdt) with resSel := some 0x0080#16 } []
    (s.inst.phase = .validated .sgdt ∧ s.inst.resSel = some 0x0040#16) ∧
    u.inst.phase = .validated .sgdt ∧ u.inst.resSel = some 0x0080#16 := ⟨⟨rfl, rfl⟩, rfl, rfl⟩

/-- DescriptorByteIsRead, in either half: the first, the seventh and the eighth byte, each mapped (Q3), and on processor 1 each
unmapped. -/
theorem witness_descriptor_byte :
    let jobs (p : Nat) : List MemJob := [MemJob.at entry8, ⟨entry8, some p, sevenBytes.take 6⟩, ⟨entry8, some p, sevenBytes⟩]
    let lo (job : MemJob) := machine (seeking (.validated (.readLo 0x6F#16 0x40#64 job))) []
    let hi (job : MemJob) := machine (seeking (.validated (.readHi 0x67#64 job))) []
    (∀ p, (∀ job ∈ jobs p, job.got.length < 8) ∧ (jobs p).map (fun job => job.got.length) = [0, 6, 7]) ∧
    (∀ job, (lo job).inst.phase = .validated (.readLo 0x6F#16 0x40#64 job) ∧
      (hi job).inst.phase = .validated (.readHi 0x67#64 job)) ∧
    (∀ job ∈ jobs 0, (((lo job).env.lp (job.lp.getD (lo job).nextLp)).mem.read
      (job.addr + BitVec.ofNat 64 job.got.length).toNat).isSome = true) ∧
    ∀ job ∈ jobs 1, (({ lo job with draws := [1] } : State).env.lp
      (job.lp.getD ({ lo job with draws := [1] } : State).nextLp)).mem.read
      (job.addr + BitVec.ofNat 64 job.got.length).toNat = none := by
  refine ⟨fun p => ⟨?_, rfl⟩, fun _ => ⟨rfl, rfl⟩, by decide, by decide⟩
  intro job hj
  simp only [List.mem_cons, List.not_mem_nil, or_false] at hj
  rcases hj with rfl | rfl | rfl <;> simp [MemJob.at, sevenBytes]

/-- FirstHalfIsFinished (Q3). -/
theorem witness_first_half :
    let job : MemJob := ⟨entry8, some 0, sevenBytes⟩
    let s := machine (seeking (.validated (.readLo 0x6F#16 0x40#64 job))) []
    job.got = [0x67#8, 0x00#8, 0x78#8, 0x56#8, 0x34#8, 0x89#8, 0x00#8] ∧ (0x40#64).toNat < 2 ^ 16 ∧
    s.inst.phase = .validated (.readLo 0x6F#16 0x40#64 job) ∧
    (s.env.lp (job.lp.getD s.nextLp)).mem.read (job.addr + 7#64).toNat = some 0x12#8 := by
  refine ⟨rfl, ?_, rfl, ?_⟩ <;> decide

/-- SecondHalfIsFinished (Q3). -/
theorem witness_second_half :
    let job : MemJob := ⟨0xFFFFF80000001048#64, some 0, [0x00#8, 0xF8#8, 0xFF#8, 0xFF#8, 0x00#8, 0x00#8, 0x00#8]⟩
    let s := machine (seeking (.validated (.readHi 0x1200893456780067#64 job))) []
    job.got = [0x00#8, 0xF8#8, 0xFF#8, 0xFF#8, 0x00#8, 0x00#8, 0x00#8] ∧
    s.inst.phase = .validated (.readHi 0x1200893456780067#64 job) ∧
    (s.env.lp (job.lp.getD s.nextLp)).mem.read (job.addr + 7#64).toNat = some 0x00#8 := by
  refine ⟨rfl, rfl, ?_⟩
  decide

/-- QuerySegmentWritesItsResult: the first and the last byte, provided; a last byte that is not. -/
theorem witness_query_output :
    (∀ n ∈ [0, 39], ∀ base ∈ [100, 200], let s := machine { queryDone (.executed n) with outBuf := some base } []
      s.inst.phase = .executed n ∧ s.inst.outBuf = some base ∧ s.inst.resSel = some 0x0040#16 ∧
      s.inst.resResolved = some 0#1 ∧ s.inst.resView = some View.zero ∧ s.inst.resRawLo = some 0#64 ∧
      s.inst.resRawHi = some 0#64 ∧ s.callerMem = buffers []) ∧
    ∀ n ∈ [0, 39], n < 40 ∧ ((buffers []).read (100 + n)).isSome = true ∧ (buffers []).read (200 + n) = none :=
  ⟨fun _ _ _ _ => ⟨rfl, rfl, rfl, rfl, rfl, rfl, rfl, rfl⟩, by decide⟩

/-- DecodeOfEncodedView: the wide view of Q3, and a narrow one. -/
theorem witness_encodable :
    View.encodable ⟨0xFFFFF80012345678#64, 0x67#20, 9#4, 0#1, 0#2, 1#1, 0#1, 0#1, 0#1, 0#1, 1#1⟩ = true ∧
    View.encodable ⟨0x12345678#64, 0x67#20, 9#4, 0#1, 0#2, 1#1, 0#1, 0#1, 0#1, 0#1, 0#1⟩ = true := by decide

/-- IgnoredEntryBits: two second halves that differ in their high half alone; two entries with one view. -/
theorem witness_ignored_bits :
    (0xFFFFF800#64).toNat % 2 ^ 32 = (0xAAAAAAAAFFFFF800#64).toNat % 2 ^ 32 ∧
    decodeDescriptor 0x67#64 5#64 0#1 = decodeDescriptor 0x67#64 5#64 0#1 := by decide

/-! #### Host steps and reset -/

/-- RequestIsReceived: the thread in focus, and a thread that has never called. -/
theorem witness_receipt :
    let r : Request := ⟨1#32, 4#32, 8#32, 0, 100⟩
    ∀ t ∈ [0, 7], let s : State := { machine (Inst.idle 0) [] with agenda := [.present t r] }
      s.agenda = .present t r :: [] ∧ (s.instAt t).phase = .idle := by
  intro r t ht
  rcases List.mem_cons.mp ht with rfl | ht
  · exact ⟨rfl, rfl⟩
  · cases List.mem_singleton.mp ht
    exact ⟨rfl, rfl⟩

/-- OutOfTurnHostStepsAreVoid: a request to a completed instance, an acknowledgement of an idle one. -/
theorem witness_out_of_turn :
    let r : Request := ⟨1#32, 4#32, 8#32, 0, 100⟩
    let s : State := { machine (reading .completed) [] with agenda := [.present 0 r] }
    let u : State := { machine (Inst.idle 0) [] with agenda := [.ack 0] }
    ((∃ r', s.agenda = .present 0 r' :: []) ∧ (s.instAt 0).phase ≠ .idle) ∧
    u.agenda = .ack 0 :: [] ∧ (u.instAt 0).phase ≠ .completed :=
  ⟨⟨⟨_, rfl⟩, by decide⟩, rfl, by decide⟩

/-- AcknowledgementClearsTheInstance. -/
theorem witness_acknowledgement :
    let s : State := { machine (reading .completed) [] with agenda := [.ack 0] }
    s.agenda = .ack 0 :: [] ∧ (s.instAt 0).phase = .completed := ⟨rfl, rfl⟩

/-- ResetEvent. -/
theorem witness_reset_event :
    let s : State := { machine (reading (.faulted (.rdmsr 5#32 0))) [] with agenda := [.reset] }
    s.agenda = .reset :: [] := rfl

/-- OtherAgentsTouchNoInstance: each kind of step is taken, an MSR with a valid address and one without among them. -/
theorem witness_other_agents :
    let m := machine (reading (.validated .start)) []
    (0 < m.env.numLp ∧ (m.env.lp 0).msrValid 0xC0000082#32 = true ∧ (m.env.lp 0).msrValid 5#32 = false) ∧
    ∀ e ∈ [Event.setMsr 0 0xC0000082#32 1#64, .setMsr 0 5#32 1#64, .setSeg 0 .cs 0#16, .setGdtr 0 ⟨0#16, 0#64⟩,
      .setMem 0 0#64 (some 1#8), .setMem 0 0#64 none, .poke 0 (some 1#8), .poke 0 none],
      ∃ s u, s = { m with agenda := [e] } ∧ s.agenda = e :: [] ∧ step s = .next u := by
  intro m
  refine ⟨⟨by decide, rfl, rfl⟩, fun e he => ?_⟩
  simp only [List.mem_cons, List.not_mem_nil, or_false] at he
  rcases he with rfl | rfl | rfl | rfl | rfl | rfl | rfl | rfl <;> exact ⟨_, _, rfl, rfl, rfl⟩

/-! #### Faults, frames, instances -/

/-- FaultedInstanceHasNoStep: in focus, and by its thread. -/
theorem witness_faulted :
    let s := machine (reading (.faulted (.rdmsr 0xC0000082#32 0))) []
    let u : State := { s with agenda := [.run 0] }
    (s.inst.phase = .faulted (.rdmsr 0xC0000082#32 0) ∧ s.agenda = []) ∧
    u.agenda = .run 0 :: [] ∧ (u.instAt 0).phase = .faulted (.rdmsr 0xC0000082#32 0) := ⟨⟨rfl, rfl⟩, rfl, rfl⟩

/-- OnlyResetLeavesFaulted: the host presents a request to it; the block is reset. -/
theorem witness_only_reset :
    let r : Request := ⟨1#32, 4#32, 8#32, 0, 100⟩
    let m := machine (reading (.faulted (.rdmsr 0xC0000082#32 0))) []
    let s : State := { m with agenda := [.present 0 r] }
    let u : State := { m with agenda := [.reset] }
    ((s.instAt 0).phase = .faulted (.rdmsr 0xC0000082#32 0) ∧ (∃ v, step s = .next v) ∧ ∀ es, s.agenda ≠ .reset :: es) ∧
    (u.instAt 0).phase = .faulted (.rdmsr 0xC0000082#32 0) ∧ (∃ v, step u = .next v) ∧ u.agenda = .reset :: [] :=
  ⟨⟨rfl, ⟨_, rfl⟩, fun es h => (by cases h)⟩, rfl, ⟨_, rfl⟩, rfl⟩

/-- InstructionsChangeOnlyOneMsr, InstructionsChangeOneOutputByte, InstructionsKeepForeignLatches: each instruction answers
a next state, in VALIDATED and, where it writes a byte, in EXECUTED. -/
theorem witness_frames :
    (∃ t, exec (.readMsr 4 8) (machine (reading (.validated .start)) []) = .next t) ∧
    (∃ t, exec (.writeMsr 12 0) (machine (writing (.validated .start) 1#32 0#32) []) = .next t) ∧
    (∃ t, exec (.querySegment 2 40) (machine (querying (.validated .start) 5#16) []) = .next t) ∧
    (∃ t, exec (.readMsr 4 8) (machine (readDone (.executed 3)) []) = .next t) ∧
    ∃ t, exec (.querySegment 2 40) (machine (queryDone (.executed 3)) []) = .next t :=
  ⟨⟨_, rfl⟩, ⟨_, rfl⟩, ⟨_, rfl⟩, ⟨_, rfl⟩, _, rfl⟩

/-- ExecutionIgnoresTheBuffers: WRITE_MSR in VALIDATED. -/
theorem witness_ignores_buffers :
    let s := machine (writing (.validated .start) 1#32 0#32) []
    s.inst.fsm = .validated ∧ ∃ t, exec (.writeMsr 12 0) s = .next t := ⟨rfl, _, rfl⟩

/-- InstancesAreIndependent: thread 7 takes a step beside thread 0. -/
theorem witness_independent :
    let s : State := { machine (reading (.validated .start)) [] with agenda := [.run 7] }
    s.agenda = .run 7 :: [] ∧ (∃ u, step s = .next u) ∧ (0 : Nat) ≠ 7 ∧
    ∃ t, exec (.readMsr 4 8) s = .next t := ⟨rfl, ⟨_, rfl⟩, by decide, _, rfl⟩

/-- ParametersAreFixed: a step that writes an MSR. -/
theorem witness_parameters :
    let s := machine (writing (.validated .start) 1#32 0#32) []
    (∃ u, step s = .next u) ∧ 0 < s.env.numLp ∧ (s.env.lp 0).msrValid 0xC0000082#32 = true :=
  ⟨⟨_, rfl⟩, by decide, rfl⟩

/-! #### The invariant -/

/-- The test machine's memories are in canonical form. -/
theorem machine_memories (m : Inst) (input : List Byte) (h : Memory.wf (buffers input) = true) :
    (machine m input).memoriesWf := by
  refine ⟨h, fun p => ?_⟩
  have hg : Memory.wf lpG.mem = true := by decide
  rcases p with _ | _ | p
  · exact hg
  · exact (rfl : Memory.wf [] = true)
  · exact hg

/-- A machine with one well-formed instance meets the invariant. -/
theorem machine_inv (m : Inst) (input : List Byte) (hm : m.ok Params.default 2) (h : Memory.wf (buffers input) = true) :
    (machine m input).Inv :=
  ⟨hm, fun _ hk => absurd hk (List.not_mem_nil), List.nodup_singleton _, machine_memories m input h, Params.default_wf⟩

theorem received_ok (op inLen outCap : U32) : (received op inLen outCap).ok Params.default 2 := by
  simp [Inst.ok, received, Inst.receive, Inst.idle, Inst.requestHeld, Inst.noOperands, Inst.noResults, Inst.noMsr,
    Inst.noView, Inst.noResponse]

theorem writing_ok (lo hi : U32) : (writing (.validated .start) lo hi).ok Params.default 2 := by
  simp [Inst.ok, writing, received, Inst.receive, Inst.idle, Inst.requestHeld, Inst.handlerNamed, Inst.handlerHeld,
    Inst.short, Inst.operandsHeld, Inst.executing, Inst.noResults, Inst.noMsr, Inst.noView, Inst.noResponse]
  decide

theorem latching_ok : latching.ok Params.default 2 := by
  simp [Inst.ok, latching, received, Inst.receive, Inst.idle, Inst.requestHeld, Inst.handlerNamed, Inst.handlerHeld,
    Inst.short, Inst.noOperands, Inst.noResults, Inst.noMsr, Inst.noView, Inst.noResponse]
  decide

theorem readDone_ok (n : Nat) (h : n ≤ 8) : (readDone (.executed n)).ok Params.default 2 := by
  refine ⟨⟨rfl, rfl, rfl, rfl, rfl⟩, ⟨⟨rfl, rfl⟩, fun h => nomatch h⟩, rfl, ⟨rfl, rfl, rfl, rfl⟩,
    ⟨rfl, rfl, rfl, rfl, rfl, rfl, rfl⟩,
    ⟨rfl, rfl⟩, .readMsr, rfl, h⟩

/-- StepKeepsTheInvariant, NoUnwrittenLatchIsRead: an instance in VALIDATED. -/
theorem witness_invariant_step :
    let s := machine (writing (.validated .start) 1#32 0#32) []
    s.Inv ∧ ∃ t, step s = .next t := ⟨machine_inv _ _ (writing_ok _ _) (by decide), _, rfl⟩

/-- NoUnwrittenLatchIsRead, its second clause: an instance at the gate whose handler latch holds no value. -/
theorem witness_unwritten_handler :
    let s := machine { received 1#32 4#32 8#32 with phase := .received .gate } []
    s.agenda = [] ∧ s.inst.serving ∧ s.inst.phase ≠ .received .lookup ∧ s.inst.h = none := ⟨rfl, .inl rfl, by decide, rfl⟩

/-- StepsFollowThePaths: VALIDATED to EXECUTED; an idle and a completed instance, in focus and by its thread. -/
theorem witness_paths :
    let s := machine (writing (.validated .start) 1#32 0#32) []
    let idle := machine (Inst.idle 0) []
    let done := machine (readDone .completed) []
    (s.Inv ∧ (∃ t, step s = .next t ∧ (t.instAt 0).fsm = .executed) ∧ ∀ es, s.agenda ≠ .reset :: es) ∧
    (idle.inst.phase = .idle ∧ idle.agenda = []) ∧ (done.inst.phase = .completed ∧ done.agenda = []) ∧
    ∀ u ∈ [idle, done], ∃ w : State, w = { u with agenda := [.run 0] } ∧ w.agenda = .run 0 :: [] ∧
      ((w.instAt 0).phase = .idle ∨ (w.instAt 0).phase = .completed) := by
  intro s idle done
  refine ⟨⟨machine_inv _ _ (writing_ok _ _) (by decide), ⟨_, rfl, rfl⟩, fun es h => (by cases h)⟩, ⟨rfl, rfl⟩, ⟨rfl, rfl⟩, ?_⟩
  intro u hu
  simp only [List.mem_cons, List.not_mem_nil, or_false] at hu
  rcases hu with rfl | rfl
  · exact ⟨_, rfl, rfl, .inl rfl⟩
  · exact ⟨_, rfl, rfl, .inr rfl⟩

/-- AccessesStayInsideTheBuffers: READ_MSR latching its operand, and writing its last byte; another memory that agrees with
the caller's inside the input buffer only. -/
theorem witness_inside_the_buffers :
    let s := machine latching inputM1
    let u := machine (readDone (.executed 7)) inputM1
    (s.Inv ∧ s.agenda = [] ∧ s.inst.inBuf = some 0 ∧ s.inst.outBuf = some 100 ∧ s.inst.reqInLen = some 4#32 ∧
      s.inst.reqOutCap = some 8#32 ∧ ∃ t, step s = .next t) ∧
    (u.Inv ∧ u.agenda = [] ∧ u.inst.inBuf = some 0 ∧ u.inst.outBuf = some 100 ∧ u.inst.reqInLen = some 4#32 ∧
      u.inst.reqOutCap = some 8#32 ∧ (∃ t, step u = .next t) ∧ u.inst.phase = .executed 7 ∧ u.inst.h = some .readMsr ∧
      7 < Handler.readMsr.outSize) ∧
    u.callerMem = s.callerMem ∧
    ∃ m : Memory, m ≠ s.callerMem ∧ (∀ a, (m.read a).isSome = (s.callerMem.read a).isSome) ∧
      ∀ a, 0 ≤ a → a < 0 + (4#32).toNat → m.read a = s.callerMem.read a := by
  refine ⟨⟨machine_inv _ _ latching_ok (by decide), rfl, rfl, rfl, rfl, rfl, _, rfl⟩,
    ⟨machine_inv _ _ (readDone_ok 7 (by decide)) (by decide), rfl, rfl, rfl, rfl, rfl, ⟨_, rfl⟩, rfl, rfl, by decide⟩, rfl,
    (buffers inputM1).write 100 0#8, by decide, fun a => ?_, fun a _ ha => ?_⟩
  · show (Memory.read ((buffers inputM1).write 100 0#8) a).isSome = (Memory.read (buffers inputM1) a).isSome
    rw [Memory.read_write]
    split
    · rename_i h
      subst h
      decide
    · rfl
  · exact Memory.read_write_other _ _ _ _ (by simp at ha; omega)

/-! #### Whole requests -/

/-- OneByteShort: an output one byte short (D9), and an input one byte short (W2). -/
theorem witness_one_byte_short :
    let s := machine (received 1#32 4#32 7#32) []
    let u := machine (received 2#32 11#32 0#32) []
    (s.agenda = [] ∧ s.inst.phase = .received .lookup ∧ s.inst.reqOp = some 1#32 ∧ s.inst.reqInLen = some 4#32 ∧
      s.inst.reqOutCap = some 7#32 ∧ Handler.ofOp 1#32 ≠ .hNone ∧ (7#32).toNat + 1 = (Handler.ofOp 1#32).outSize) ∧
    (u.agenda = [] ∧ u.inst.phase = .received .lookup ∧ u.inst.reqOp = some 2#32 ∧ u.inst.reqInLen = some 11#32 ∧
      u.inst.reqOutCap = some 0#32 ∧ Handler.ofOp 2#32 ≠ .hNone ∧ (11#32).toNat + 1 = (Handler.ofOp 2#32).inMin) := by
  refine ⟨⟨rfl, rfl, rfl, rfl, rfl, by decide, rfl⟩, rfl, rfl, rfl, rfl, rfl, by decide, rfl⟩

/-- FailureTouchesNothing: an unknown selector completes in one step (D2). -/
theorem witness_failure :
    let s := machine (received 4#32 4#32 8#32) []
    s.Inv ∧ s.agenda = [] ∧ s.inst.phase = .received .lookup ∧
    ∃ t, core.run 1 s = .next t ∧ t.inst.fsm = .completed ∧ t.inst.status ≠ some .success :=
  ⟨machine_inv _ _ (received_ok _ _ _) (by decide), rfl, rfl, _, rfl, rfl, by decide⟩

/-- EveryRequestEnds: Q3, just received. -/
theorem witness_request_ends :
    let s := machine (received 3#32 2#32 40#32) inputQ3
    s.Inv ∧ s.agenda = [] ∧ s.inst.serving ∧ s.inst.inBuf = some 0 ∧ s.inst.outBuf = some 100 ∧
    s.inst.reqInLen = some 2#32 ∧ s.inst.reqOutCap = some 40#32 ∧ s.provides 0 (2#32).toNat ∧
    s.provides 100 (40#32).toNat := by
  refine ⟨machine_inv _ _ (received_ok _ _ _) (by decide), rfl, .inl rfl, rfl, rfl, rfl, rfl, ?_,
    buffers_output inputQ3 (by decide)⟩
  show ∀ k, k < 2 → ((buffers inputQ3).read (0 + k)).isSome = true
  decide

/-- ReadMsrRequest (M1). -/
theorem witness_readMsr_request :
    let s := machine (received 1#32 4#32 8#32) inputM1
    s.agenda = [] ∧ s.inst = Inst.receive s.inst.thread ⟨0x00000001#32, 4#32, 8#32, 0, 100⟩ ∧ 4 ≤ (4#32).toNat ∧
    8 ≤ (8#32).toNat ∧ s.provides 100 8 ∧
    (∀ k, k < 4 → s.callerMem.read (0 + k) = some ((0xC0000082#32).extractLsb' (8 * k) 8)) ∧
    (s.env.lp s.nextLp).msr 0xC0000082#32 = some 0xFFFFF80312345678#64 := by
  exact ⟨rfl, rfl, by decide, by decide, fun k hk => buffers_output inputM1 (by decide) k (by omega), by decide, rfl⟩

/-- WriteMsrRequest (W1). -/
theorem witness_writeMsr_request :
    let s := machine (received 2#32 12#32 0#32) inputW1
    s.agenda = [] ∧ s.inst = Inst.receive s.inst.thread ⟨0x00000002#32, 12#32, 0#32, 0, 100⟩ ∧ 12 ≤ (12#32).toNat ∧
    (∀ k, k < 4 → s.callerMem.read (0 + k) = some ((0xC0000082#32).extractLsb' (8 * k) 8) ∧
      s.callerMem.read (0 + 4 + k) = some ((0x87654321#32).extractLsb' (8 * k) 8) ∧
      s.callerMem.read (0 + 8 + k) = some ((0xFFFFF803#32).extractLsb' (8 * k) 8)) ∧
    (s.env.lp s.nextLp).msrWriteOk 0xC0000082#32 (0xFFFFF803#32 ++ 0x87654321#32) = true := by
  refine ⟨rfl, rfl, by decide, by decide, by decide⟩

/-- A QUERY_SEGMENT just received, with processors 0 and 1 as given and the first four primitives drawn to `draws`. -/
def asking (idx : U16) (c : Params) (p0 p1 : Lp) (draws : List Nat) : State :=
  { machine (received 3#32 2#32 40#32) (put16 idx) with params := c, env := { first := p0, rest := [p1] }, draws := draws }

/-- Such a request has the operand and the buffers that the statements about whole requests ask for. -/
theorem asking_hasQuery (idx : U16) (c : Params) (p0 p1 : Lp) (draws : List Nat) :
    (asking idx c p0 p1 draws).hasQuery 0 100 idx := by
  refine ⟨rfl, ⟨2#32, 40#32, rfl, by decide, by decide⟩, fun k hk => ?_, fun k hk => ?_⟩
  · exact buffers_output (put16 idx) (by simp [put16]) k hk
  · show (buffers (put16 idx)).read (0 + k) = some (idx.extractLsb' (8 * k) 8)
    rw [buffers_input _ _ (by simpa [put16] using hk)]
    match k, hk with
    | 0, _ => rfl
    | 1, _ => rfl

/-- `lpG` with another table limit. -/
def lpLimit (limit : U16) : Lp := { lpG with gdtr := { lpG.gdtr with limit := limit } }

/-- Entry 8 of the table is in the linear memory of processor 0. -/
theorem lpG_holds : lpG.holds (lpG.gdtr.base + BitVec.ofNat 64 (entryOffset 0x0040#16)) 0x1200893456780067#64 ∧
    lpG.holds (lpG.gdtr.base + BitVec.ofNat 64 (entryOffset 0x0040#16) + 8#64) 0x00000000FFFFF800#64 := by
  constructor <;>
  · unfold Lp.holds
    decide

/-- UnresolvedQueryRequest: resolution off; the local-table selector of ES (Q15); a null selector; GS, whose entry ends past
the limit of processor 1; and GS as in Q3, its second half past the limit of processor 1. -/
theorem witness_unresolved_request :
    let off := asking 5#16 { Params.default with resolveDescriptor := false } lpG lpH []
    let es := asking 3#16 Params.default lpG lpH [0]
    let null := asking 0#16 Params.default { lpG with cs := 2#16 } lpH [0]
    let past := asking 5#16 Params.default lpG (lpLimit 0x0046#16) [0, 1, 0]
    let wide := asking 5#16 Params.default lpG (lpLimit 0x004E#16) [0, 1, 0]
    ∃ (h0 : (0#16).toNat < 6) (h3 : (3#16).toNat < 6) (h5 : (5#16).toNat < 6),
    (off.hasQuery 0 100 5#16 ∧ (∃ p, p < off.env.numLp ∧ off.nextLp = p) ∧ off.params.resolveDescriptor = false) ∧
    (es.hasQuery 0 100 3#16 ∧ es.nextLp = 0 ∧ 0 < es.env.numLp ∧
      (es.env.lp 0).seg (es.params.segMap[(3#16).toNat]'h3) = 0x000F#16 ∧ (0x000F#16).extractLsb' 2 1 = 1#1) ∧
    (null.hasQuery 0 100 0#16 ∧ null.nextLp = 0 ∧ 0 < null.env.numLp ∧
      (null.env.lp 0).seg (null.params.segMap[(0#16).toNat]'h0) = 2#16 ∧ (2#16).extractLsb' 3 13 = 0#13) ∧
    (past.hasQuery 0 100 5#16 ∧ 1 < past.env.numLp ∧ (∃ ds, past.draws = 0 :: 1 :: ds) ∧
      (past.env.lp 0).seg (past.params.segMap[(5#16).toNat]'h5) = 0x0040#16 ∧ past.seeks 0x0040#16 ∧
      (past.env.lp 1).gdtr.limit.toNat < entryOffset 0x0040#16 + 7) ∧
    (wide.hasQuery 0 100 5#16 ∧ 1 < wide.env.numLp ∧ (∃ ds, wide.draws = 0 :: 1 :: 0 :: ds) ∧
      (wide.env.lp 0).seg (wide.params.segMap[(5#16).toNat]'h5) = 0x0040#16 ∧ wide.seeks 0x0040#16 ∧
      entryOffset 0x0040#16 + 7 ≤ (wide.env.lp 1).gdtr.limit.toNat ∧
      (wide.env.lp 1).gdtr.limit.toNat < entryOffset 0x0040#16 + 15 ∧
      (wide.env.lp 0).holds ((wide.env.lp 1).gdtr.base + BitVec.ofNat 64 (entryOffset 0x0040#16)) 0x1200893456780067#64 ∧
      wide.params.longMode = true ∧ (0x1200893456780067#64).extractLsb' 44 1 = 0#1) := by
  intro off es null past wide
  refine ⟨by decide, by decide, by decide,
    ⟨asking_hasQuery _ _ _ _ _, ⟨off.nextLp, off.nextLp_lt, rfl⟩, rfl⟩,
    ⟨asking_hasQuery _ _ _ _ _, rfl, by decide, rfl, by decide⟩,
    ⟨asking_hasQuery _ _ _ _ _, rfl, by decide, rfl, by decide⟩,
    ⟨asking_hasQuery _ _ _ _ _, by decide, ⟨_, rfl⟩, rfl, ⟨rfl, by decide, by decide⟩, by decide⟩,
    asking_hasQuery _ _ _ _ _, by decide, ⟨_, rfl⟩, rfl, ⟨rfl, by decide, by decide⟩, by decide, by decide,
    lpG_holds.1, rfl, by decide⟩

/-- NarrowQueryRequest: Q4, entry 8 outside 64-bit mode, the selector and the table of processor 1, the entry of
processor 0. -/
theorem witness_narrow_request :
    let s := asking 5#16 { Params.default with longMode := false } lpG lpH [1, 1, 0]
    ∃ hv : (5#16).toNat < 6, s.hasQuery 0 100 5#16 ∧ 1 < s.env.numLp ∧ 0 < s.env.numLp ∧
    (∃ ds, s.draws = 1 :: 1 :: 0 :: ds) ∧ (s.env.lp 1).seg (s.params.segMap[(5#16).toNat]'hv) = 0x0040#16 ∧
    s.seeks 0x0040#16 ∧ entryOffset 0x0040#16 + 7 ≤ (s.env.lp 1).gdtr.limit.toNat ∧
    (s.env.lp 0).holds ((s.env.lp 1).gdtr.base + BitVec.ofNat 64 (entryOffset 0x0040#16)) 0x1200893456780067#64 ∧
    (s.params.longMode = false ∨ (0x1200893456780067#64).extractLsb' 44 1 = 1#1) :=
  ⟨by decide, asking_hasQuery _ _ _ _ _, by decide, by decide, ⟨_, rfl⟩, rfl, ⟨rfl, by decide, by decide⟩,
    by decide, lpG_holds.1, .inl rfl⟩

/-- WideQueryRequest: Q3, the selector and the table of processor 1, the entry of processor 0. -/
theorem witness_wide_request :
    let s := asking 5#16 Params.default lpG lpH [1, 1, 0, 0]
    ∃ hv : (5#16).toNat < 6, s.hasQuery 0 100 5#16 ∧ 1 < s.env.numLp ∧ 0 < s.env.numLp ∧
    (∃ ds, s.draws = 1 :: 1 :: 0 :: 0 :: ds) ∧ (s.env.lp 1).seg (s.params.segMap[(5#16).toNat]'hv) = 0x0040#16 ∧
    s.seeks 0x0040#16 ∧ entryOffset 0x0040#16 + 15 ≤ (s.env.lp 1).gdtr.limit.toNat ∧
    (s.env.lp 0).holds ((s.env.lp 1).gdtr.base + BitVec.ofNat 64 (entryOffset 0x0040#16)) 0x1200893456780067#64 ∧
    (s.env.lp 0).holds ((s.env.lp 1).gdtr.base + BitVec.ofNat 64 (entryOffset 0x0040#16) + 8#64) 0x00000000FFFFF800#64 ∧
    s.params.longMode = true ∧ (0x1200893456780067#64).extractLsb' 44 1 = 0#1 :=
  ⟨by decide, asking_hasQuery _ _ _ _ _, by decide, by decide, ⟨_, rfl⟩, rfl, ⟨rfl, by decide, by decide⟩,
    by decide, lpG_holds.1, lpG_holds.2, rfl, by decide⟩

end Sys2Proof.Tests
end

section
/-! PROOFS. The scope (spec/00_scope.md): the parameters at reset. -/

namespace Sys2Proof.Machine

/-- Reset takes the default parameters (R7). -/
theorem State.reset_params : State.reset.params = Params.default := rfl

/-- RESOLVE_DESCRIPTOR, LONG_MODE and SEG_MAP by default (R7, R232). -/
theorem Params.default_eq :
    Params.default =
      { resolveDescriptor := true, longMode := true, segMap := #v[.cs, .ss, .ds, .es, .fs, .gs] } := rfl

/-- NUM_LP is never 0, whatever the number of further processors (R7). -/
theorem Env.one_le_numLp (e : Env) : 1 ≤ e.numLp := Nat.le_add_left 1 e.rest.length

/-- Settles O38: the parameters at reset are the defaults, whose SEG_MAP is legal, so a bijection; an environment always
holds a processor. -/
theorem resetParameters : Obligations.ResetParameters := by
  unfold Obligations.ResetParameters
  rw [State.reset_params]
  have hseg : Function.Bijective Params.default.seg := Params.seg_bijective _ Params.default_wf
  refine ⟨?resolve, ?long, ?map, hseg, State.reset.env.one_le_numLp⟩
  all_goals rw [Params.default_eq]

end Sys2Proof.Machine
end

section
/-! PROOFS. What a step of a request does, said once for the three handlers together (spec/42_dispatcher.md R180): the two
inductive relations below list the cases, and `exec_eq_next` ties them to the model. -/

namespace Sys2Proof.Machine

/-- What a step of an execution rule can do (R210, R212, R230), with the operand check before it (R187): for each handler
and each step of VALIDATED, the states that may follow. -/
inductive Executes (s : State) : Handler → ExecStep → State → Prop
  | indexRejected {v : U16} (hv : s.inst.opSegIdx = some v) (hi : segIndex v = none) :
      Executes s .querySegment .start (s.complete .invalidOperand)
  | msrRead {w : ExecStep} {a : U32} {v : U64} (ha : s.inst.opMsrAddr = some a) (hv : s.portLp.msr a = some v) :
      Executes s .readMsr w (State.executedAll { s.drawn with
        inst := { s.inst with resLo := some (msrLow v), resHi := some (msrHigh v) } })
  | msrReadFaults {w : ExecStep} {a : U32} (ha : s.inst.opMsrAddr = some a) (hv : s.portLp.msr a = none) :
      Executes s .readMsr w (s.drawn.raise (.rdmsr a s.nextLp))
  | msrWritten {w : ExecStep} {a : U32} {v : U64} (ha : s.inst.opMsrAddr = some a) :
      Executes s .writeMsr w (State.executedAll { s.drawn with env := s.env.setLp s.nextLp (s.portLp.setMsr a v) })
  | msrWriteFaults {w : ExecStep} {a : U32} (ha : s.inst.opMsrAddr = some a) :
      Executes s .writeMsr w (s.drawn.raise (.wrmsr a s.nextLp))
  | selectorOnly {v sel : U16} (hv : s.inst.opSegIdx = some v) (hi : (segIndex v).isSome = true) :
      Executes s .querySegment .start
        (State.unresolved { s.drawn with inst := { s.inst with resSel := some sel } })
  | selectorSeeks {v sel : U16} (hv : s.inst.opSegIdx = some v) (hi : (segIndex v).isSome = true) :
      Executes s .querySegment .start
        (State.toPhase { s.drawn with inst := { s.inst with resSel := some sel } } (.validated .sgdt))
  | outsideTable : Executes s .querySegment .sgdt s.drawn.unresolved
  | insideTable {glim : U16} {off addr : U64} :
      Executes s .querySegment .sgdt (s.drawn.toPhase (.validated (.readLo glim off (MemJob.at addr))))
  | loFaults {glim : U16} {off : U64} {job : MemJob} {r : FaultRecord} (hr : memReadByte job s = .error r) :
      Executes s .querySegment (.readLo glim off job) ((s.drawnFor job).raise r)
  | loByte {glim : U16} {off : U64} {job job' : MemJob} (hr : memReadByte job s = .ok job')
      (hl : job'.got.length < 8) :
      Executes s .querySegment (.readLo glim off job) ((s.drawnFor job).toPhase (.validated (.readLo glim off job')))
  | narrow {glim : U16} {off rawLo : U64} {job : MemJob} (hw : entryWide s.params rawLo = false) :
      Executes s .querySegment (.readLo glim off job) ((s.drawnFor job).resolved rawLo 0#64 0#1)
  | wideOutside {glim : U16} {off : U64} {job : MemJob} :
      Executes s .querySegment (.readLo glim off job) (s.drawnFor job).unresolved
  | wideInside {glim : U16} {off rawLo addr : U64} {job : MemJob} (hw : entryWide s.params rawLo = true) :
      Executes s .querySegment (.readLo glim off job)
        ((s.drawnFor job).toPhase (.validated (.readHi rawLo (MemJob.at addr))))
  | hiFaults {rawLo : U64} {job : MemJob} {r : FaultRecord} (hr : memReadByte job s = .error r) :
      Executes s .querySegment (.readHi rawLo job) ((s.drawnFor job).raise r)
  | hiByte {rawLo : U64} {job job' : MemJob} (hr : memReadByte job s = .ok job') (hl : job'.got.length < 8) :
      Executes s .querySegment (.readHi rawLo job) ((s.drawnFor job).toPhase (.validated (.readHi rawLo job')))
  | wide {rawLo rawHi : U64} {job : MemJob} :
      Executes s .querySegment (.readHi rawLo job) ((s.drawnFor job).resolved rawLo rawHi 1#1)

/-- What a step of a request of handler `h` with the given declared sizes can do (R180 to R191). -/
inductive Serves (h : Handler) (inLen outCap : Nat) (s : State) : State → Prop
  | waits (hp : s.inst.phase = .idle ∨ s.inst.phase = .completed) : Serves h inLen outCap s s
  | looksUp (hp : s.inst.phase = .received .lookup) : Serves h inLen outCap s (s.lookupDone h)
  | gateFails (hp : s.inst.phase = .received .gate) (hs : sizesShort h inLen outCap = true) :
      Serves h inLen outCap s (s.complete .bufferTooSmall)
  | gatePasses (hp : s.inst.phase = .received .gate) (hs : sizesShort h inLen outCap = false) :
      Serves h inLen outCap s (s.toPhase (.received .latch))
  | latches {b : List Byte} (hp : s.inst.phase = .received .latch) :
      Serves h inLen outCap s (State.toPhase { s with inst := latchOperands h b s.inst } (.validated .start))
  | executes {w : ExecStep} {t : State} (hp : s.inst.phase = .validated w) (hx : Executes s h w t) :
      Serves h inLen outCap s t
  | writesByte {n k : Nat} {v : Byte} (hp : s.inst.phase = .executed n) (hl : n < h.outSize) :
      Serves h inLen outCap s (State.toPhase { s with callerMem := s.callerMem.write k v } (.executed (n + 1)))
  | responds {n : Nat} (hp : s.inst.phase = .executed n) : Serves h inLen outCap s (s.succeed h.outSize)

/-- The execution rule of a handler. -/
def Handler.execution : Handler → ExecStep → State → Out
  | .readMsr => fun _ => executeReadMsr
  | .writeMsr => fun _ => executeWriteMsr
  | .querySegment => executeQuerySegment
  | .hNone => fun _ => Host.Outcome.next

/-- Every instruction is a request of its handler. -/
theorem exec_eq_serve (i : Instr) (s : State) :
    exec i s = serve (instrHandler i) i.inLen i.outCap (instrHandler i).execution s := by
  cases i <;> rfl

theorem instrHandler_ne_hNone (i : Instr) : instrHandler i ≠ .hNone := by
  cases i <;> exact Handler.noConfusion

theorem executes_of_querySelector (s : State) (v : U16) (r : Config.SegReg) (hv : s.inst.opSegIdx = some v)
    (hi : (segIndex v).isSome = true) : Executes s .querySegment .start (querySelector r s) := by
  obtain ⟨-, hq⟩ | ⟨-, hq⟩ := querySelector_cases r s
  · exact hq ▸ .selectorOnly hv hi
  · exact hq ▸ .selectorSeeks hv hi

theorem executes_of_queryTable (s : State) (sel : U16) : Executes s .querySegment .sgdt (queryTable sel s) := by
  obtain hq | hq := queryTable_cases sel s
  · exact hq ▸ .outsideTable
  · exact hq ▸ .insideTable

theorem executes_of_queryReadLo (s : State) (glim : U16) (off : U64) (job : MemJob) :
    Executes s .querySegment (.readLo glim off job) (queryReadLo glim off job s) := by
  obtain ⟨r, hr, hq⟩ | ⟨job', hr, hl, hq⟩ | ⟨job', -, -, hq⟩ := queryReadLo_cases glim off job s
  · exact hq ▸ .loFaults hr
  · exact hq ▸ .loByte hr hl
  · rw [hq]
    obtain ⟨hw, hq⟩ | ⟨-, hq⟩ | ⟨hw, hq⟩ := queryWidth_cases glim off job.addr (le64 job'.got) (s.drawnFor job)
    · exact hq ▸ .narrow (by simpa using hw)
    · exact hq ▸ .wideOutside
    · exact hq ▸ .wideInside (by simpa using hw)

theorem executes_of_queryReadHi (s : State) (rawLo : U64) (job : MemJob) :
    Executes s .querySegment (.readHi rawLo job) (queryReadHi rawLo job s) := by
  obtain ⟨r, hr, hq⟩ | ⟨job', hr, hl, hq⟩ | ⟨job', -, -, hq⟩ := queryReadHi_cases rawLo job s
  · exact hq ▸ .hiFaults hr
  · exact hq ▸ .hiByte hr hl
  · exact hq ▸ .wide

/-- An execution rule answers only the states `Executes` lists. -/
theorem execution_eq_next (h : Handler) (w : ExecStep) (s t : State) (hh : h ≠ .hNone)
    (hn : h.execution w s = .next t) : Executes s h w t := by
  cases h with
  | readMsr =>
    obtain ⟨a, ha, ⟨v, hv, rfl⟩ | ⟨hv, rfl⟩⟩ := executeReadMsr_eq_next s t hn
    · exact .msrRead ha hv
    · exact .msrReadFaults ha hv
  | writeMsr =>
    obtain ⟨a, lo, hi, ha, -, -, ⟨-, -, rfl⟩ | ⟨-, rfl⟩⟩ := executeWriteMsr_eq_next s t hn
    · exact .msrWritten ha
    · exact .msrWriteFaults ha
  | querySegment =>
    obtain ⟨rfl, v, hv, ⟨hi, rfl⟩ | ⟨i, hi, rfl⟩⟩ | ⟨rfl, sel, -, rfl⟩ | ⟨glim, off, job, rfl, rfl⟩ |
      ⟨rawLo, job, rfl, rfl⟩ := executeQuerySegment_eq_next w s t hn
    · exact .indexRejected hv hi
    · exact executes_of_querySelector s v _ hv (by simp [hi])
    · exact executes_of_queryTable s sel
    · exact executes_of_queryReadLo s glim off job
    · exact executes_of_queryReadHi s rawLo job
  | hNone => exact absurd rfl hh

/-- A step of a request answers only the states `Serves` lists for its handler and sizes. -/
theorem serves_of_serve_eq_next (h : Handler) (inLen outCap : Nat) (s t : State) (hh : h ≠ .hNone)
    (hn : serve h inLen outCap h.execution s = .next t) : Serves h inLen outCap s t := by
  obtain ⟨hp, rfl⟩ | ⟨hp, rfl⟩ | ⟨hp, hs, rfl⟩ | ⟨hp, hs, rfl⟩ | ⟨hp, base, b, -, -, rfl⟩ | ⟨w, hp, hx⟩ |
    ⟨n, hp, hl, base, v, -, -, rfl⟩ | ⟨n, hp, -, rfl⟩ | ⟨hp, rfl⟩ := serve_eq_next _ _ _ _ s t hn
  · exact .waits (.inl hp)
  · exact .looksUp hp
  · exact .gateFails hp hs
  · exact .gatePasses hp hs
  · exact .latches hp
  · refine .executes hp ?_
    obtain hx | ⟨rfl, rfl, ⟨v, hv, hi⟩, rfl⟩ := executeStep_eq_next _ _ _ s t hx
    · exact execution_eq_next h w s t hh hx
    · exact .indexRejected hv hi
  · exact .writesByte hp hl
  · exact .responds hp
  · exact .waits (.inr hp)

/-- An instruction answers only the states `Serves` lists for its handler and sizes. -/
theorem exec_eq_next (i : Instr) (s t : State) (hn : exec i s = .next t) :
    Serves (instrHandler i) i.inLen i.outCap s t :=
  serves_of_serve_eq_next _ _ _ s t (instrHandler_ne_hNone i) (exec_eq_serve i s ▸ hn)

end Sys2Proof.Machine
end

section
/-! PROOFS. What the steps of the host and of the environment leave alone (spec/10_state.md R20, R21, R35 to R42). -/

namespace Sys2Proof.Machine

/-! ### Processors -/

/-- Processor `q` after processor `p` is replaced. -/
theorem Env.lp_setLp (e : Env) (p q : Nat) (l : Lp) (hq : q < e.numLp) :
    (e.setLp p l).lp q = if q = p then l else e.lp q := by
  split
  · rename_i h
    subst h
    exact e.lp_setLp_same q l hq
  · rename_i h
    exact e.lp_setLp_other p q l h hq

/-- Replacing a processor puts no other processor in any place, also past NUM_LP, where processor 0 is read. -/
theorem Env.lp_setLp_cases (e : Env) (p q : Nat) (l : Lp) : (e.setLp p l).lp q = l ∨ (e.setLp p l).lp q = e.lp q := by
  cases p with
  | zero =>
    cases q with
    | zero => exact .inl rfl
    | succ q =>
      by_cases hq : q < e.rest.length
      · exact .inr (by simp [Env.setLp, Env.lp, hq])
      · exact .inl (by simp [Env.setLp, Env.lp, hq])
  | succ p =>
    cases q with
    | zero => exact .inr rfl
    | succ q =>
      by_cases hpq : p = q
      · subst hpq
        by_cases hp : p < e.rest.length
        · exact .inl (by simp [Env.setLp, Env.lp, hp])
        · exact .inr (by simp [Env.setLp, Env.lp, hp])
      · exact .inr (by simp [Env.setLp, Env.lp, hpq])

/-- An MSR after a write of one that may be invalid (R37). -/
theorem Lp.msr_setMsr (l : Lp) (a b : U32) (v : U64) :
    (l.setMsr a v).msr b = if b = a ∧ l.msrValid a = true then some v else l.msr b := by
  by_cases hb : b = a
  · subst hb
    cases hv : l.msrValid b with
    | true => simp [l.msr_setMsr_same b v hv]
    | false =>
      have hold : l.msr b = none := by simpa [Lp.msrValid] using hv
      have hnew : (l.setMsr b v).msr b = none := by simpa [Lp.msrValid] using (l.msrValid_setMsr b b v).trans hv
      simp [hold, hnew]
  · simp [l.msr_setMsr_other a b v hb, hb]

/-- A segment register after the environment changes one. -/
theorem Lp.seg_setSeg (l : Lp) (r q : Config.SegReg) (v : U16) :
    (l.setSeg r v).seg q = if q = r then v else l.seg q := by
  cases r <;> cases q <;> rfl

@[simp] theorem Lp.setSeg_gdtr (l : Lp) (r : Config.SegReg) (v : U16) : (l.setSeg r v).gdtr = l.gdtr := by
  cases r <;> rfl

/-! ### A pending step -/

/-- A pending step that is no step of an instance is applied, and always happens (R74). -/
theorem step_of_event (s : State) (e : Event) (es : List Event) (hs : s.agenda = e :: es) (he : ∀ t, e ≠ .run t) :
    step s = .next (State.apply { s with agenda := es } e) := by
  unfold step
  rw [hs]
  cases e with
  | run t => exact absurd rfl (he t)
  | _ => rfl

/-- A change of a processor keeps their number, and gives each the state that follows it. -/
theorem State.changeLp_lp (s : State) (p q : Nat) (f : Lp → Lp) (hq : q < s.env.numLp) :
    (s.changeLp p f).env.lp q = if q = p then f (s.env.lp q) else s.env.lp q := by
  rw [State.changeLp_env, Env.lp_setLp _ _ _ _ hq]
  split
  · rename_i h
    rw [h]
  · rfl

/-- A pending change of a processor changes that processor and the agenda only. -/
theorem step_of_changeLp (s : State) (e : Event) (es : List Event) (p : Nat) (f : Lp → Lp) (hs : s.agenda = e :: es)
    (he : ∀ u : State, u.apply e = u.changeLp p f) (hr : ∀ t, e ≠ .run t) :
    ∃ env, step s = .next { s with agenda := es, env := env } ∧ env.numLp = s.env.numLp ∧
      ∀ q, q < s.env.numLp → env.lp q = if q = p then f (s.env.lp q) else s.env.lp q := by
  refine ⟨s.env.setLp p (f (s.env.lp p)), ?_, by simp, fun q hq => s.changeLp_lp p q f hq⟩
  rw [step_of_event s e es hs hr, he]
  rfl

/-- Settles O40: four events are changes of one processor, the fifth a change of one byte. -/
theorem otherAgentsTouchNoInstance : Obligations.OtherAgentsTouchNoInstance := by
  unfold Obligations.OtherAgentsTouchNoInstance
  intro s es
  refine ⟨?msr, ?seg, ?gdtr, ?mem, ?poke⟩
  case msr =>
    intro p addr v hs
    obtain ⟨env, hstep, hnum, hlp⟩ := step_of_changeLp s _ es p (·.setMsr addr v) hs (fun _ => rfl) nofun
    refine ⟨env, hstep, hnum, fun q hq => ?_⟩
    rw [hlp q hq]
    by_cases hqp : q = p
    · subst hqp
      simp [Lp.msr_setMsr]
    · simp [hqp]
  case seg =>
    intro p reg v hs
    obtain ⟨env, hstep, hnum, hlp⟩ := step_of_changeLp s _ es p (·.setSeg reg v) hs (fun _ => rfl) nofun
    refine ⟨env, hstep, hnum, fun q hq => ?_⟩
    rw [hlp q hq]
    by_cases hqp : q = p
    · simp [hqp, Lp.seg_setSeg]
    · simp [hqp]
  case gdtr =>
    intro p g hs
    exact step_of_changeLp s _ es p ({ · with gdtr := g }) hs (fun _ => rfl) nofun
  case mem =>
    intro p addr b hs
    obtain ⟨env, hstep, hnum, hlp⟩ :=
      step_of_changeLp s _ es p (fun l => { l with mem := l.mem.update addr.toNat b }) hs (fun _ => rfl) nofun
    refine ⟨env, hstep, hnum, fun q hq => ?_⟩
    rw [hlp q hq]
    by_cases hqp : q = p
    · simp [hqp, Memory.read_update]
    · simp [hqp]
  case poke =>
    intro addr b hs
    exact ⟨s.callerMem.update addr b, step_of_event s _ es hs nofun,
      fun k => Memory.read_update s.callerMem addr k b⟩

/-- A host step whose effect on the instance in focus is void only moves the focus. -/
theorem State.focus_only (s : State) (t : Nat) (es : List Event) :
    let u := State.focus { s with agenda := es } t
    (∀ th, u.instAt th = s.instAt th) ∧ u.params = s.params ∧ u.env = s.env ∧ u.callerMem = s.callerMem ∧
      u.agenda = es ∧ u.draws = s.draws ∧ u.drawCount = s.drawCount := by
  refine ⟨fun th => State.focus_instAt _ t th, ?_⟩
  simp

/-- Settles O35: out of turn, a request or an acknowledgement only moves the focus. -/
theorem outOfTurnHostStepsAreVoid : Obligations.OutOfTurnHostStepsAreVoid := by
  unfold Obligations.OutOfTurnHostStepsAreVoid
  intro s t es hturn
  have hinst : (State.focus { s with agenda := es } t).inst = s.instAt t := State.focus_inst _ t
  refine ⟨State.focus { s with agenda := es } t, ?_, s.focus_only t es⟩
  obtain ⟨⟨r, hs⟩, hp⟩ | ⟨hs, hp⟩ := hturn
  · rw [step_of_event s _ es hs nofun, State.apply, State.present_of_not_idle _ r (hinst ▸ hp)]
  · rw [step_of_event s _ es hs nofun, State.apply, State.ack_of_not_completed _ (hinst ▸ hp)]

/-! ### MSR values and reset -/

/-- Settles O32: concatenation puts the high half above the low one. -/
theorem msrValueHalves : Obligations.MsrValueHalves := by
  unfold Obligations.MsrValueHalves
  have hvalue (low high : U32) : (msrValue low high).toNat = high.toNat * 2 ^ 32 + low.toNat := by
    rw [msrValue, BitVec.toNat_append, ← Nat.shiftLeft_add_eq_or_of_lt low.isLt, Nat.shiftLeft_eq]
  have hlow (v : U64) : (msrLow v).toNat = v.toNat % 2 ^ 32 := by simp [msrLow]
  have hhigh (v : U64) : (msrHigh v).toNat = v.toNat / 2 ^ 32 := by
    have hv := v.isLt
    simp only [msrHigh, BitVec.extractLsb'_toNat, Nat.shiftRight_eq_div_pow]
    omega
  refine ⟨hvalue, fun v => ⟨BitVec.eq_of_toNat_eq ?_, hlow v, hhigh v⟩⟩
  rw [hvalue, hlow, hhigh]
  omega

/-- At reset every thread's instance is idle (R42). -/
theorem State.reset_instAt (t : Nat) : State.reset.instAt t = Inst.idle t := by
  unfold State.instAt
  split
  · rename_i h
    exact congrArg Inst.idle h
  · rfl

/-- Settles O37: the instance found at reset is the idle one, whose latches hold no value. -/
theorem resetLeavesNoValue : Obligations.ResetLeavesNoValue := by
  unfold Obligations.ResetLeavesNoValue
  intro t
  rw [State.reset_instAt]
  simp [Inst.idle, Inst.fsm, Phase.fsm]

end Sys2Proof.Machine
end

section
/-! PROOFS. The frames of the instructions (spec/10_state.md R25 to R29, R36 to R39). -/

namespace Sys2Proof.Machine

/-! ### Execution -/

/-- Execution leaves the environment, but for one MSR that WRITE_MSR names (R36 to R39). -/
theorem Executes.env_eq {s t : State} {h : Handler} {w : ExecStep} (hx : Executes s h w t) :
    t.env = s.env ∨ h = .writeMsr ∧ ∃ a v, s.inst.opMsrAddr = some a ∧
      t.env = s.env.setLp s.nextLp (s.portLp.setMsr a v) := by
  cases hx with
  | msrWritten ha => exact .inr ⟨rfl, _, _, ha, rfl⟩
  | _ => exact .inl (by simp)

/-- Execution keeps the request, handler and operand latches, and writes the response only where it completes (R25 to R29,
R188). -/
theorem Executes.inst_frame {s t : State} {h : Handler} {w : ExecStep} (hx : Executes s h w t) :
    (t.inst.thread = s.inst.thread ∧ t.inst.reqOp = s.inst.reqOp ∧ t.inst.reqInLen = s.inst.reqInLen ∧
      t.inst.reqOutCap = s.inst.reqOutCap ∧ t.inst.inBuf = s.inst.inBuf ∧ t.inst.outBuf = s.inst.outBuf) ∧
    (t.inst.h = s.inst.h ∧ t.inst.opMsrAddr = s.inst.opMsrAddr ∧
      t.inst.opLo = s.inst.opLo ∧ t.inst.opHi = s.inst.opHi ∧ t.inst.opSegIdx = s.inst.opSegIdx) ∧
    (t.inst.fsm ≠ .completed → t.inst.status = s.inst.status ∧ t.inst.bytesWritten = s.inst.bytesWritten) := by
  cases hx <;> simp [Inst.fsm, Phase.fsm]

/-- Execution touches no other instance, no parameter, no buffer and no pending step (R196, R194). -/
theorem Executes.state_frame {s t : State} {h : Handler} {w : ExecStep} (hx : Executes s h w t) :
    t.others = s.others ∧ t.params = s.params ∧ t.agenda = s.agenda ∧ t.callerMem = s.callerMem := by
  cases hx <;> simp

/-! ### Every step of a request -/

/-- A step of a request leaves the environment, but for one MSR that WRITE_MSR names in VALIDATED (R36 to R39). -/
theorem Serves.env_eq {s t : State} {h : Handler} {inLen outCap : Nat} (hs : Serves h inLen outCap s t) :
    t.env = s.env ∨ h = .writeMsr ∧ s.inst.fsm = .validated ∧ ∃ a v, s.inst.opMsrAddr = some a ∧
      t.env = s.env.setLp s.nextLp (s.portLp.setMsr a v) := by
  cases hs with
  | executes hp hx => exact hx.env_eq.imp_right fun ⟨hh, hw⟩ => ⟨hh, by rw [Inst.fsm, hp]; rfl, hw⟩
  | _ => exact .inl rfl

/-- A step of a request touches no other instance, no parameter and no pending step (R196, R291). -/
theorem Serves.state_frame {s t : State} {h : Handler} {inLen outCap : Nat} (hs : Serves h inLen outCap s t) :
    t.others = s.others ∧ t.params = s.params ∧ t.agenda = s.agenda := by
  cases hs with
  | executes _ hx =>
    obtain ⟨ho, hc, ha, -⟩ := hx.state_frame
    exact ⟨ho, hc, ha⟩
  | _ => exact ⟨rfl, rfl, rfl⟩

/-- The request latches keep their values (R25). -/
theorem Serves.request_frame {s t : State} {h : Handler} {inLen outCap : Nat} (hs : Serves h inLen outCap s t) :
    t.inst.thread = s.inst.thread ∧ t.inst.reqOp = s.inst.reqOp ∧ t.inst.reqInLen = s.inst.reqInLen ∧
      t.inst.reqOutCap = s.inst.reqOutCap ∧ t.inst.inBuf = s.inst.inBuf ∧ t.inst.outBuf = s.inst.outBuf := by
  cases hs with
  | executes _ hx => exact hx.inst_frame.1
  | latches _ => cases h <;> exact ⟨rfl, rfl, rfl, rfl, rfl, rfl⟩
  | _ => exact ⟨rfl, rfl, rfl, rfl, rfl, rfl⟩

/-- The handler and operand latches change in RECEIVED only (R26, R27). -/
theorem Serves.operand_frame {s t : State} {h : Handler} {inLen outCap : Nat} (hs : Serves h inLen outCap s t)
    (hf : s.inst.fsm ≠ .received) :
    t.inst.h = s.inst.h ∧ t.inst.opMsrAddr = s.inst.opMsrAddr ∧ t.inst.opLo = s.inst.opLo ∧
      t.inst.opHi = s.inst.opHi ∧ t.inst.opSegIdx = s.inst.opSegIdx := by
  have received {r : RecvStep} (hp : s.inst.phase = .received r) : False := hf (by rw [Inst.fsm, hp]; rfl)
  cases hs with
  | looksUp hp => exact (received hp).elim
  | latches hp => exact (received hp).elim
  | executes _ hx => exact hx.inst_frame.2.1
  | _ => exact ⟨rfl, rfl, rfl, rfl, rfl⟩

/-- The result latches and the draws change in VALIDATED only (R28, R40). -/
theorem Serves.result_frame {s t : State} {h : Handler} {inLen outCap : Nat} (hs : Serves h inLen outCap s t)
    (hf : s.inst.fsm ≠ .validated) :
    t.inst.resLo = s.inst.resLo ∧ t.inst.resHi = s.inst.resHi ∧ t.inst.resSel = s.inst.resSel ∧
      t.inst.resResolved = s.inst.resResolved ∧ t.inst.resView = s.inst.resView ∧
      t.inst.resRawLo = s.inst.resRawLo ∧ t.inst.resRawHi = s.inst.resRawHi ∧
      t.draws = s.draws ∧ t.drawCount = s.drawCount := by
  cases hs with
  | executes hp _ => exact absurd (by rw [Inst.fsm, hp]; rfl) hf
  | latches _ => cases h <;> exact ⟨rfl, rfl, rfl, rfl, rfl, rfl, rfl, rfl, rfl⟩
  | _ => exact ⟨rfl, rfl, rfl, rfl, rfl, rfl, rfl, rfl, rfl⟩

/-- The response is written only where the request completes (R29, R189, R190). -/
theorem Serves.response_frame {s t : State} {h : Handler} {inLen outCap : Nat} (hs : Serves h inLen outCap s t)
    (hf : t.inst.fsm ≠ .completed) :
    t.inst.status = s.inst.status ∧ t.inst.bytesWritten = s.inst.bytesWritten := by
  cases hs with
  | gateFails _ _ => exact absurd rfl hf
  | responds _ => exact absurd rfl hf
  | executes _ hx => exact hx.inst_frame.2.2 hf
  | latches _ => cases h <;> exact ⟨rfl, rfl⟩
  | _ => exact ⟨rfl, rfl⟩

/-! ### The statements -/

/-- A write of one MSR on the processor drawn keeps every other item of every processor. -/
theorem State.setMsr_frame (s : State) (a : U32) (v : U64) (p : Nat) (hp : p < s.env.numLp) :
    let l := (s.env.setLp s.nextLp (s.portLp.setMsr a v)).lp p
    (∀ r, l.seg r = (s.env.lp p).seg r) ∧ l.gdtr = (s.env.lp p).gdtr ∧ l.mem = (s.env.lp p).mem ∧
      ∀ b, p ≠ s.nextLp ∨ b ≠ a → l.msr b = (s.env.lp p).msr b := by
  rw [Env.lp_setLp _ _ _ _ hp, State.portLp]
  by_cases hdrawn : p = s.nextLp
  · subst hdrawn
    simp +contextual [Lp.msr_setMsr]
  · simp [hdrawn]

/-- Settles O43: the environment is the same, or WRITE_MSR has written the MSR it names. -/
theorem instructionsChangeOnlyOneMsr : Obligations.InstructionsChangeOnlyOneMsr := by
  unfold Obligations.InstructionsChangeOnlyOneMsr
  intro i s t hn
  obtain he | ⟨hi, hf, a, v, ha, he⟩ := (exec_eq_next i s t hn).env_eq
  · simp [he]
  · refine ⟨by simp [he], fun p hp => ?_, fun hnot => ?_⟩
    · obtain ⟨hseg, hgdtr, hmem, hmsr⟩ := s.setMsr_frame a v p hp
      rw [he]
      refine ⟨hseg, hgdtr, fun k => by rw [hmem], fun b hb => hmsr b (hb.imp_right fun hne hba => hne ?_)⟩
      rw [hba, ha]
    · cases i with
      | writeMsr inLen outCap => exact absurd hf (hnot inLen outCap rfl)
      | readMsr _ _ => cases hi
      | querySegment _ _ => cases hi

/-- Settles O45: the frames of the step, one for each group of latches. -/
theorem instructionsKeepForeignLatches : Obligations.InstructionsKeepForeignLatches := by
  unfold Obligations.InstructionsKeepForeignLatches
  intro i s t hn
  have hs := exec_eq_next i s t hn
  exact ⟨hs.request_frame, hs.operand_frame, hs.result_frame, hs.response_frame, hs.state_frame⟩

end Sys2Proof.Machine
end

section
/-! PROOFS. The request that an instance is serving, told from its latches (spec/10_state.md R26, R32): what `stepInst` runs,
said without the decoder. -/

namespace Sys2Proof.Machine

/-- The latches of an instance say that it serves a request of handler `h` with the given declared sizes: before the lookup
by its selector (R184), from then on by the handler latch (R26). -/
structure Inst.Requests (m : Inst) (h : Handler) (inLen outCap : U32) : Prop where
  inLen_held : m.reqInLen = some inLen
  outCap_held : m.reqOutCap = some outCap
  before_lookup : m.phase = .received .lookup → m.reqOp.map Handler.ofOp = some h
  after_lookup : m.phase ≠ .received .lookup → m.h = some h

/-- The decoder and the dispatch table name the same handler (R32, R91). -/
theorem decode_toOption (op inLen outCap : U32) :
    (decode [op, inLen, outCap]).toOption = (Handler.ofOp op).instr inLen.toNat outCap.toNat := by
  unfold decode Handler.ofOp
  dsimp only
  split_ifs <;> rfl

/-- The instruction fetched is the one of the handler and the sizes. -/
theorem fetchInstr_of_requests {m : Inst} {h : Handler} {inLen outCap : U32} (hm : m.Requests h inLen outCap)
    (k : Option Instr → Out) : fetchInstr m k = k (h.instr inLen.toNat outCap.toNat) := by
  by_cases hp : m.phase = .received .lookup
  · obtain ⟨op, hop, rfl⟩ := Option.map_eq_some_iff.mp (hm.before_lookup hp)
    rw [fetchInstr_lookup m k hp, headerOf, hop, hm.inLen_held, hm.outCap_held]
    simp only [readLatch_some, decode_toOption]
  · rw [fetchInstr_looked_up m k hp, hm.after_lookup hp, hm.inLen_held, hm.outCap_held]
    rfl

/-- An instance serving a request runs the instruction fetched, if there is one (R180, R184). -/
theorem stepInst_of_serving (s : State) (hs : s.inst.serving) :
    stepInst s = fetchInstr s.inst fun i => i.elim (.next s.lookupNone) (exec · s) := by
  unfold stepInst
  unfold Inst.serving Inst.fsm at hs
  cases hp : s.inst.phase with
  | idle => simp [hp, Phase.fsm] at hs
  | completed => simp [hp, Phase.fsm] at hs
  | faulted r => simp [hp, Phase.fsm] at hs
  | _ => exact congrArg (fetchInstr s.inst) (funext fun i => by cases i <;> rfl)

/-- An instance serving a request of a handler takes that handler's step (R180). -/
theorem stepInst_eq_serve {s : State} {h : Handler} {inLen outCap : U32} (hs : s.inst.serving)
    (hm : s.inst.Requests h inLen outCap) (hh : h ≠ .hNone) :
    stepInst s = serve h inLen.toNat outCap.toNat h.execution s := by
  rw [stepInst_of_serving s hs, fetchInstr_of_requests hm]
  cases h with
  | readMsr => exact exec_eq_serve (.readMsr inLen.toNat outCap.toNat) s
  | writeMsr => exact exec_eq_serve (.writeMsr inLen.toNat outCap.toNat) s
  | querySegment => exact exec_eq_serve (.querySegment inLen.toNat outCap.toNat) s
  | hNone => exact absurd rfl hh

/-- An instance serving a request that names no handler completes it as unsupported (R184). -/
theorem stepInst_eq_lookupNone {s : State} {inLen outCap : U32} (hs : s.inst.serving)
    (hm : s.inst.Requests .hNone inLen outCap) : stepInst s = .next s.lookupNone := by
  rw [stepInst_of_serving s hs, fetchInstr_of_requests hm]
  rfl

/-- An instance serving no request waits for the host, or has no step at all (R182, R191, R262). -/
theorem stepInst_of_not_serving (s : State) (hs : ¬ s.inst.serving) :
    ((s.inst.phase = .idle ∨ s.inst.phase = .completed) ∧ stepInst s = .next s) ∨
      ∃ r, s.inst.phase = .faulted r ∧ stepInst s = .fault (.hwFault r) := by
  unfold stepInst
  unfold Inst.serving Inst.fsm at hs
  cases hp : s.inst.phase with
  | idle => exact .inl ⟨.inl rfl, rfl⟩
  | completed => exact .inl ⟨.inr rfl, rfl⟩
  | faulted r => exact .inr ⟨r, rfl, rfl⟩
  | _ => simp [hp, Phase.fsm] at hs

/-- The step of a pending event, or of the instance in focus (R74). -/
theorem step_cases (s : State) :
    step s = stepInst s ∨ ∃ e es, s.agenda = e :: es ∧
      (step s = .next (State.apply { s with agenda := es } e) ∨
        step s = stepInst (State.apply { s with agenda := es } e)) := by
  cases ha : s.agenda with
  | nil => exact .inl (by rw [step, ha])
  | cons e es =>
    refine .inr ⟨e, es, rfl, ?_⟩
    cases e with
    | run t => exact .inr (by rw [step, ha])
    | _ => exact .inl (step_of_event s _ es ha nofun)

end Sys2Proof.Machine
end

section
/-! PROOFS. The invariant of one instance: what it says in each dispatcher state (spec/42_dispatcher.md R180), and that every
step of the instance keeps it. -/

namespace Sys2Proof.Machine

/-! ### What the invariant says, state by state -/

section

variable {m : Inst} {c : Params} {numLp : Nat}

theorem Inst.ok_idle_iff (hp : m.phase = .idle) : m.ok c numLp ↔ m = Inst.idle m.thread := by
  unfold Inst.ok
  rw [hp]

theorem Inst.ok_lookup_iff (hp : m.phase = .received .lookup) :
    m.ok c numLp ↔ m.requestHeld ∧ m.h = none ∧ m.noOperands ∧ m.noResults ∧ m.noResponse := by
  unfold Inst.ok
  rw [hp]

theorem Inst.ok_gate_iff (hp : m.phase = .received .gate) :
    m.ok c numLp ↔ m.requestHeld ∧ m.handlerNamed ∧ m.noOperands ∧ m.noResults ∧ m.noResponse := by
  unfold Inst.ok
  rw [hp]

theorem Inst.ok_latch_iff (hp : m.phase = .received .latch) :
    m.ok c numLp ↔
      m.requestHeld ∧ m.handlerNamed ∧ m.short = false ∧ m.noOperands ∧ m.noResults ∧ m.noResponse := by
  unfold Inst.ok
  rw [hp]

theorem Inst.ok_validated_iff {w : ExecStep} (hp : m.phase = .validated w) :
    m.ok c numLp ↔
      m.requestHeld ∧ m.handlerNamed ∧ m.short = false ∧ m.operandsHeld ∧ m.executing c numLp w ∧ m.noResponse := by
  unfold Inst.ok
  rw [hp]

theorem Inst.ok_executed_iff {n : Nat} (hp : m.phase = .executed n) :
    m.ok c numLp ↔
      m.requestHeld ∧ m.handlerNamed ∧ m.short = false ∧ m.operandsHeld ∧ m.resultsHeld c ∧ m.noResponse ∧
        ∃ h, m.h = some h ∧ n ≤ h.outSize := by
  unfold Inst.ok
  rw [hp]

theorem Inst.ok_completed_iff (hp : m.phase = .completed) :
    m.ok c numLp ↔ m.requestHeld ∧ m.handlerHeld ∧ m.responseHeld c := by
  unfold Inst.ok
  rw [hp]

theorem Inst.ok_faulted_iff {r : FaultRecord} (hp : m.phase = .faulted r) :
    m.ok c numLp ↔
      m.requestHeld ∧ m.handlerNamed ∧ m.short = false ∧ m.operandsHeld ∧ m.noResponse ∧ m.faultOf numLp r := by
  unfold Inst.ok
  rw [hp]

/-- An idle instance meets the invariant (R42). -/
theorem Inst.ok_idle (t : Nat) : (Inst.idle t).ok c numLp := rfl

/-- An instance that has just received a request meets the invariant (R183). -/
theorem Inst.ok_receive (t : Nat) (r : Request) : (Inst.receive t r).ok c numLp := by
  refine (Inst.ok_lookup_iff rfl).mpr ⟨?_, rfl, ?_, ?_, ?_⟩
  · simp [Inst.requestHeld, Inst.receive]
  · exact ⟨rfl, rfl, rfl, rfl⟩
  · exact ⟨⟨rfl, rfl⟩, rfl, rfl, rfl, rfl, rfl⟩
  · exact ⟨rfl, rfl⟩

/-! ### What the handler's name says of the groups of latches -/

theorem Inst.operandsHeld_readMsr_iff (hh : m.h = some .readMsr) :
    m.operandsHeld ↔ m.opMsrAddr.isSome ∧ m.opLo = none ∧ m.opHi = none ∧ m.opSegIdx = none := by
  unfold Inst.operandsHeld
  rw [hh]

theorem Inst.operandsHeld_writeMsr_iff (hh : m.h = some .writeMsr) :
    m.operandsHeld ↔ m.opMsrAddr.isSome ∧ m.opLo.isSome ∧ m.opHi.isSome ∧ m.opSegIdx = none := by
  unfold Inst.operandsHeld
  rw [hh]

theorem Inst.operandsHeld_querySegment_iff (hh : m.h = some .querySegment) :
    m.operandsHeld ↔ m.opMsrAddr = none ∧ m.opLo = none ∧ m.opHi = none ∧ m.opSegIdx.isSome := by
  unfold Inst.operandsHeld
  rw [hh]

theorem Inst.resultsHeld_readMsr_iff (hh : m.h = some .readMsr) :
    m.resultsHeld c ↔ m.resLo.isSome ∧ m.resHi.isSome ∧ m.resSel = none ∧ m.noView := by
  unfold Inst.resultsHeld
  rw [hh]

theorem Inst.resultsHeld_writeMsr_iff (hh : m.h = some .writeMsr) : m.resultsHeld c ↔ m.noResults := by
  unfold Inst.resultsHeld
  rw [hh]

theorem Inst.resultsHeld_querySegment_iff (hh : m.h = some .querySegment) :
    m.resultsHeld c ↔ m.noMsr ∧ m.resSel.isSome ∧
      ∃ r v lo hi, m.resResolved = some r ∧ m.resView = some v ∧ m.resRawLo = some lo ∧ m.resRawHi = some hi ∧
        viewConsistent c r v lo hi := by
  unfold Inst.resultsHeld
  rw [hh]

theorem Inst.responseHeld_unsupported_iff (hs : m.status = some .unsupportedOperation) :
    m.responseHeld c ↔ m.h = some .hNone ∧ m.bytesWritten = some 0#32 ∧ m.noOperands ∧ m.noResults := by
  unfold Inst.responseHeld
  rw [hs]

theorem Inst.responseHeld_tooSmall_iff (hs : m.status = some .bufferTooSmall) :
    m.responseHeld c ↔
      m.h ≠ some .hNone ∧ m.short = true ∧ m.bytesWritten = some 0#32 ∧ m.noOperands ∧ m.noResults := by
  unfold Inst.responseHeld
  rw [hs]

theorem Inst.responseHeld_invalid_iff (hs : m.status = some .invalidOperand) :
    m.responseHeld c ↔
      m.short = false ∧ m.h = some .querySegment ∧ m.operandsHeld ∧ ¬ m.indexNamed ∧ m.bytesWritten = some 0#32 ∧
        m.noResults := by
  unfold Inst.responseHeld
  rw [hs]

theorem Inst.responseHeld_success_iff (hs : m.status = some .success) :
    m.responseHeld c ↔
      m.short = false ∧ m.operandsHeld ∧ m.resultsHeld c ∧
        m.bytesWritten = m.h.map (fun h => BitVec.ofNat 32 h.outSize) := by
  unfold Inst.responseHeld
  rw [hs]

/-- The gate's test is over the latched handler and sizes (R185). -/
theorem Inst.short_eq {h : Handler} {inLen outCap : U32} (hh : m.h = some h) (hi : m.reqInLen = some inLen)
    (ho : m.reqOutCap = some outCap) : m.short = sizesShort h inLen.toNat outCap.toNat := by
  unfold Inst.short
  rw [hh, hi, ho]

/-- Only QUERY_SEGMENT leaves results behind before its execution is over (R230). -/
theorem Inst.executing.noResults_of_msr {w : ExecStep} (hx : m.executing c numLp w) (hq : m.h ≠ some .querySegment) :
    m.noResults := by
  cases w with
  | start => exact hx
  | sgdt => exact absurd hx.1 hq
  | readLo glim off job => exact absurd hx.1 hq
  | readHi rawLo job => exact absurd hx.1 hq

/-! ### A request past the gate and the latching -/

/-- What holds of a request of handler `h` from the latching to its end: all but the results (R25 to R27, R29). -/
def Inst.underway (m : Inst) (h : Handler) : Prop :=
  m.requestHeld ∧ m.handlerNamed ∧ m.short = false ∧ m.operandsHeld ∧ m.noResponse ∧ m.h = some h

theorem Inst.ok_of_validated {h : Handler} {w : ExecStep} (hp : m.phase = .validated w) (hu : m.underway h)
    (hx : m.executing c numLp w) : m.ok c numLp := by
  obtain ⟨hreq, hnamed, hshort, hops, hresp, -⟩ := hu
  exact (Inst.ok_validated_iff hp).mpr ⟨hreq, hnamed, hshort, hops, hx, hresp⟩

theorem Inst.ok_of_executed {h : Handler} {n : Nat} (hp : m.phase = .executed n) (hu : m.underway h)
    (hr : m.resultsHeld c) (hn : n ≤ h.outSize) : m.ok c numLp := by
  obtain ⟨hreq, hnamed, hshort, hops, hresp, hh⟩ := hu
  exact (Inst.ok_executed_iff hp).mpr ⟨hreq, hnamed, hshort, hops, hr, hresp, h, hh, hn⟩

theorem Inst.ok_of_faulted {h : Handler} {r : FaultRecord} (hp : m.phase = .faulted r) (hu : m.underway h)
    (hf : m.faultOf numLp r) : m.ok c numLp := by
  obtain ⟨hreq, hnamed, hshort, hops, hresp, -⟩ := hu
  exact (Inst.ok_faulted_iff hp).mpr ⟨hreq, hnamed, hshort, hops, hresp, hf⟩

theorem viewConsistent_unresolved (c : Params) : viewConsistent c 0#1 View.zero 0#64 0#64 := by
  simp [viewConsistent]

/-- The unresolved result is a result of QUERY_SEGMENT (R240). -/
theorem Inst.resultsHeld_unresolved (hh : m.h = some .querySegment) (hm : m.noMsr) (hs : m.resSel.isSome = true) :
    Inst.resultsHeld { m with
      resResolved := some 0#1, resRawLo := some 0#64, resRawHi := some 0#64, resView := some View.zero } c :=
  Iff.mpr (Inst.resultsHeld_querySegment_iff hh)
    ⟨hm, hs, _, _, _, _, rfl, rfl, rfl, rfl, viewConsistent_unresolved c⟩

/-- A resolved result is a result of QUERY_SEGMENT, if its width is the entry's (R237, R239). -/
theorem Inst.resultsHeld_resolved {rawLo rawHi : U64} {wide : BitVec 1} (hh : m.h = some .querySegment) (hm : m.noMsr)
    (hs : m.resSel.isSome = true) (hw : wide = 1#1 ↔ entryWide c rawLo = true) (hn : wide = 0#1 → rawHi = 0#64) :
    Inst.resultsHeld { m with
      resView := some (decodeDescriptor rawLo rawHi wide), resRawLo := some rawLo, resRawHi := some rawHi,
      resResolved := some 1#1 } c :=
  Iff.mpr (Inst.resultsHeld_querySegment_iff hh) ⟨hm, hs, _, _, _, _, rfl, rfl, rfl, rfl, rfl, hw, hn⟩

/-! ### An instance serving a request -/

/-- Outside IDLE the request latches hold values (R25). -/
theorem Inst.ok.requestHeld (hok : m.ok c numLp) (hp : m.phase ≠ .idle) : m.requestHeld := by
  cases hm : m.phase with
  | idle => exact absurd hm hp
  | received r =>
    cases r with
    | lookup => exact ((Inst.ok_lookup_iff hm).mp hok).1
    | gate => exact ((Inst.ok_gate_iff hm).mp hok).1
    | latch => exact ((Inst.ok_latch_iff hm).mp hok).1
  | validated w => exact ((Inst.ok_validated_iff hm).mp hok).1
  | executed n => exact ((Inst.ok_executed_iff hm).mp hok).1
  | completed => exact ((Inst.ok_completed_iff hm).mp hok).1
  | faulted r => exact ((Inst.ok_faulted_iff hm).mp hok).1

/-- From the lookup on, the handler latch of a request being served names a handler (R26). -/
theorem Inst.ok.handlerNamed (hok : m.ok c numLp) (hs : m.serving) (hl : m.phase ≠ .received .lookup) :
    m.handlerNamed := by
  unfold Inst.serving Inst.fsm at hs
  cases hm : m.phase with
  | received r =>
    cases r with
    | lookup => exact absurd hm hl
    | gate => exact ((Inst.ok_gate_iff hm).mp hok).2.1
    | latch => exact ((Inst.ok_latch_iff hm).mp hok).2.1
  | validated w => exact ((Inst.ok_validated_iff hm).mp hok).2.1
  | executed n => exact ((Inst.ok_executed_iff hm).mp hok).2.1
  | _ => simp [hm, Phase.fsm] at hs

/-- An instance that meets the invariant and serves a request has latched which one. -/
theorem Inst.ok.exists_requests (hok : m.ok c numLp) (hs : m.serving) :
    ∃ h inLen outCap, m.Requests h inLen outCap := by
  have hidle : m.phase ≠ .idle := by
    intro hp
    simp [Inst.serving, Inst.fsm, hp, Phase.fsm] at hs
  obtain ⟨hop, hin, hout, -, -⟩ := hok.requestHeld hidle
  obtain ⟨op, hop⟩ := Option.isSome_iff_exists.mp hop
  obtain ⟨inLen, hin⟩ := Option.isSome_iff_exists.mp hin
  obtain ⟨outCap, hout⟩ := Option.isSome_iff_exists.mp hout
  by_cases hl : m.phase = .received .lookup
  · exact ⟨Handler.ofOp op, inLen, outCap, hin, hout, fun _ => by rw [hop]; rfl, absurd hl⟩
  · obtain ⟨⟨hsome, -⟩, -⟩ := hok.handlerNamed hs hl
    obtain ⟨h, hh⟩ := Option.isSome_iff_exists.mp hsome
    exact ⟨h, inLen, outCap, hin, hout, (absurd · hl), fun _ => hh⟩

end

/-! ### Progress of a MemRead -/

theorem MemJob.ok_at (addr : U64) (numLp : Nat) : (MemJob.at addr).ok numLp :=
  ⟨Nat.zero_lt_succ 7, by simp [MemJob.at], nofun⟩

/-- The processor that serves a MemRead exists (R40). -/
theorem MemJob.ok.server_lt {job : MemJob} {s : State} (hj : job.ok s.env.numLp) : job.server s < s.env.numLp := by
  obtain ⟨-, -, hlp⟩ := hj
  unfold MemJob.server
  cases hp : job.lp with
  | none => exact s.nextLp_lt
  | some p => exact hlp p hp

/-- A MemRead with one more byte, if that is not its last, is still in progress (R124). -/
theorem MemJob.ok.of_memReadByte {job job' : MemJob} {s : State} (hj : job.ok s.env.numLp)
    (hr : memReadByte job s = .ok job') (hl : job'.got.length < 8) : job'.ok s.env.numLp := by
  obtain ⟨b, -, rfl⟩ := (memReadByte_eq_ok job job' s).mp hr
  refine ⟨hl, by simp, fun p hp => ?_⟩
  cases hp
  exact hj.server_lt

/-! ### Steps in VALIDATED -/

/-- Every step of an execution rule keeps the invariant of its instance (R187, R188, R230). -/
theorem Executes.keeps_ok {s t : State} {h : Handler} {w : ExecStep} (hx : Executes s h w t)
    (hp : s.inst.phase = .validated w) (hh : s.inst.h = some h) (hok : s.inst.ok s.params s.env.numLp) :
    t.inst.ok s.params s.env.numLp := by
  obtain ⟨hreq, hnamed, hshort, hops, hexec, hresp⟩ := (Inst.ok_validated_iff hp).mp hok
  have hu : s.inst.underway h := ⟨hreq, hnamed, hshort, hops, hresp, hh⟩
  cases hx with
  | indexRejected hv hi =>
    have hindex : ¬ s.inst.indexNamed := by
      rintro ⟨v', hv', hi'⟩
      cases hv.symm.trans hv'
      simp [hi] at hi'
    exact (Inst.ok_completed_iff rfl).mpr ⟨hreq, hnamed.1,
      (Inst.responseHeld_invalid_iff rfl).mpr ⟨hshort, hh, hops, hindex, rfl, hexec⟩⟩
  | msrRead ha hv =>
    obtain ⟨-, hsel, hview⟩ := hexec.noResults_of_msr (by simp [hh])
    exact Inst.ok_of_executed rfl hu (Iff.mpr (Inst.resultsHeld_readMsr_iff hh) ⟨rfl, rfl, hsel, hview⟩) (Nat.zero_le _)
  | msrReadFaults ha hv =>
    refine Inst.ok_of_faulted rfl hu ?_
    exact ⟨hh, ha, s.nextLp_lt⟩
  | msrWritten ha =>
    have hnone : s.inst.noResults := hexec.noResults_of_msr (by simp [hh])
    exact Inst.ok_of_executed rfl hu (Iff.mpr (Inst.resultsHeld_writeMsr_iff hh) hnone) (Nat.zero_le _)
  | msrWriteFaults ha =>
    refine Inst.ok_of_faulted rfl hu ?_
    exact ⟨hh, ha, s.nextLp_lt⟩
  | selectorOnly hv hi =>
    obtain ⟨hmsr, -, -⟩ := hexec
    exact Inst.ok_of_executed rfl hu (Inst.resultsHeld_unresolved hh hmsr rfl) (Nat.zero_le _)
  | selectorSeeks hv hi =>
    obtain ⟨hmsr, -, hview⟩ := hexec
    refine Inst.ok_of_validated rfl hu ?_
    exact ⟨hh, ⟨_, hv, hi⟩, hmsr, rfl, hview⟩
  | outsideTable =>
    obtain ⟨-, -, hmsr, hsel, -⟩ := hexec
    exact Inst.ok_of_executed rfl hu (Inst.resultsHeld_unresolved hh hmsr hsel) (Nat.zero_le _)
  | insideTable =>
    obtain ⟨-, hindex, hmsr, hsel, hview⟩ := hexec
    refine Inst.ok_of_validated rfl hu ?_
    exact ⟨hh, hindex, hmsr, hsel, hview, MemJob.ok_at _ _⟩
  | loFaults hr =>
    obtain ⟨-, -, -, -, -, hjob⟩ := hexec
    obtain ⟨-, rfl⟩ := (memReadByte_eq_error _ _ _).mp hr
    rw [State.raise_inst, State.drawnFor_inst]
    refine Inst.ok_of_faulted rfl hu ?_
    exact ⟨hh, hjob.server_lt⟩
  | loByte hr hl =>
    obtain ⟨-, hindex, hmsr, hsel, hview, hjob⟩ := hexec
    rw [State.toPhase_inst, State.drawnFor_inst]
    refine Inst.ok_of_validated rfl hu ?_
    exact ⟨hh, hindex, hmsr, hsel, hview, hjob.of_memReadByte hr hl⟩
  | narrow hw =>
    obtain ⟨-, -, hmsr, hsel, -, -⟩ := hexec
    rw [State.resolved_inst, State.drawnFor_inst]
    exact Inst.ok_of_executed rfl hu (Inst.resultsHeld_resolved hh hmsr hsel (by simp [hw]) fun _ => rfl) (Nat.zero_le _)
  | wideOutside =>
    obtain ⟨-, -, hmsr, hsel, -, -⟩ := hexec
    rw [State.unresolved_inst, State.drawnFor_inst]
    exact Inst.ok_of_executed rfl hu (Inst.resultsHeld_unresolved hh hmsr hsel) (Nat.zero_le _)
  | wideInside hw =>
    obtain ⟨-, hindex, hmsr, hsel, hview, -⟩ := hexec
    rw [State.toPhase_inst, State.drawnFor_inst]
    refine Inst.ok_of_validated rfl hu ?_
    exact ⟨hh, hindex, hmsr, hsel, hview, MemJob.ok_at _ _, hw⟩
  | hiFaults hr =>
    obtain ⟨-, -, -, -, -, hjob, -⟩ := hexec
    obtain ⟨-, rfl⟩ := (memReadByte_eq_error _ _ _).mp hr
    rw [State.raise_inst, State.drawnFor_inst]
    refine Inst.ok_of_faulted rfl hu ?_
    exact ⟨hh, hjob.server_lt⟩
  | hiByte hr hl =>
    obtain ⟨-, hindex, hmsr, hsel, hview, hjob, hw⟩ := hexec
    rw [State.toPhase_inst, State.drawnFor_inst]
    refine Inst.ok_of_validated rfl hu ?_
    exact ⟨hh, hindex, hmsr, hsel, hview, hjob.of_memReadByte hr hl, hw⟩
  | wide =>
    obtain ⟨-, -, hmsr, hsel, -, -, hw⟩ := hexec
    rw [State.resolved_inst, State.drawnFor_inst]
    exact Inst.ok_of_executed rfl hu (Inst.resultsHeld_resolved hh hmsr hsel (by simp [hw]) nofun) (Nat.zero_le _)

/-! ### Every step -/

/-- Latching fills exactly the operand latches of the handler (R27, R186). -/
theorem latchOperands_operandsHeld {m : Inst} {h : Handler} (b : List Byte) (hh : m.h = some h) (hne : h ≠ .hNone)
    (hno : m.noOperands) : (latchOperands h b m).operandsHeld := by
  obtain ⟨haddr, hlo, hhi, hidx⟩ := hno
  cases h with
  | readMsr => exact Iff.mpr (Inst.operandsHeld_readMsr_iff hh) ⟨rfl, hlo, hhi, hidx⟩
  | writeMsr => exact Iff.mpr (Inst.operandsHeld_writeMsr_iff hh) ⟨rfl, rfl, rfl, hidx⟩
  | querySegment => exact Iff.mpr (Inst.operandsHeld_querySegment_iff hh) ⟨haddr, hlo, hhi, rfl⟩
  | hNone => exact absurd rfl hne

/-- Every step of a request keeps the invariant of its instance (R180). -/
theorem Serves.keeps_ok {s t : State} {h : Handler} {inLen outCap : U32}
    (hs : Serves h inLen.toNat outCap.toNat s t) (hm : s.inst.Requests h inLen outCap) (hne : h ≠ .hNone)
    (hok : s.inst.ok s.params s.env.numLp) : t.inst.ok s.params s.env.numLp := by
  have latched {p : Phase} (hp : s.inst.phase = p) (hl : p ≠ .received .lookup) : s.inst.h = some h :=
    hm.after_lookup (hp ▸ hl)
  have hshort (hh : s.inst.h = some h) : s.inst.short = sizesShort h inLen.toNat outCap.toNat :=
    Inst.short_eq hh hm.inLen_held hm.outCap_held
  cases hs with
  | waits _ => exact hok
  | looksUp hp =>
    obtain ⟨hreq, -, hrest⟩ := (Inst.ok_lookup_iff hp).mp hok
    have hnamed : (s.lookupDone h).inst.handlerNamed :=
      ⟨⟨rfl, (hm.before_lookup hp).symm⟩, fun heq => hne (Option.some.inj heq)⟩
    exact (Inst.ok_gate_iff rfl).mpr ⟨hreq, hnamed, hrest⟩
  | gateFails hp hsh =>
    obtain ⟨hreq, hnamed, hops, hres, -⟩ := (Inst.ok_gate_iff hp).mp hok
    exact (Inst.ok_completed_iff rfl).mpr ⟨hreq, hnamed.1, (Inst.responseHeld_tooSmall_iff rfl).mpr
      ⟨hnamed.2, (hshort (latched hp nofun)).trans hsh, rfl, hops, hres⟩⟩
  | gatePasses hp hsh =>
    obtain ⟨hreq, hnamed, hrest⟩ := (Inst.ok_gate_iff hp).mp hok
    exact (Inst.ok_latch_iff rfl).mpr ⟨hreq, hnamed, (hshort (latched hp nofun)).trans hsh, hrest⟩
  | @latches b hp =>
    obtain ⟨hreq, hnamed, hsh, hno, hres, hresp⟩ := (Inst.ok_latch_iff hp).mp hok
    have hh := latched hp nofun
    have hops := latchOperands_operandsHeld b hh hne hno
    refine (Inst.ok_validated_iff rfl).mpr ⟨?_, ?_, ?_, hops, ?_, ?_⟩
    all_goals cases h <;> assumption
  | executes hp hx => exact hx.keeps_ok hp (latched hp nofun) hok
  | writesByte hp hl =>
    obtain ⟨hreq, hnamed, hsh, hops, hres, hresp, -⟩ := (Inst.ok_executed_iff hp).mp hok
    exact (Inst.ok_executed_iff rfl).mpr ⟨hreq, hnamed, hsh, hops, hres, hresp, h, latched hp nofun, hl⟩
  | responds hp =>
    obtain ⟨hreq, hnamed, hsh, hops, hres, -⟩ := (Inst.ok_executed_iff hp).mp hok
    have hwritten : some (BitVec.ofNat 32 h.outSize) = s.inst.h.map fun h => BitVec.ofNat 32 h.outSize := by
      rw [latched hp nofun]
      rfl
    exact (Inst.ok_completed_iff rfl).mpr ⟨hreq, hnamed.1,
      (Inst.responseHeld_success_iff rfl).mpr ⟨hsh, hops, hres, hwritten⟩⟩

/-- A lookup that finds no handler keeps the invariant of its instance (R184). -/
theorem State.lookupNone_keeps_ok {s : State} {inLen outCap : U32} (hs : s.inst.serving)
    (hm : s.inst.Requests .hNone inLen outCap) (hok : s.inst.ok s.params s.env.numLp) :
    s.lookupNone.inst.ok s.params s.env.numLp := by
  have hp : s.inst.phase = .received .lookup := by
    by_contra hl
    exact (hok.handlerNamed hs hl).2 (hm.after_lookup hl)
  obtain ⟨hreq, -, hops, hres, -⟩ := (Inst.ok_lookup_iff hp).mp hok
  exact (Inst.ok_completed_iff rfl).mpr ⟨hreq, ⟨rfl, (hm.before_lookup hp).symm⟩,
    (Inst.responseHeld_unsupported_iff rfl).mpr ⟨rfl, rfl, hops, hres⟩⟩

end Sys2Proof.Machine
end

section
/-! PROOFS. The invariant of the machine: reset meets it, and every step of every agent keeps it. -/

namespace Sys2Proof.Machine

/-! ### Reset -/

theorem Env.initial_memoriesWf (p : Nat) : Memory.wf (Env.initial.lp p).mem = true := by
  cases p with
  | zero => exact Lp.initial_mem_wf 0
  | succ p =>
    unfold Env.initial Env.lp
    by_cases hp : p < Config.extraLps
    · simp [hp, Lp.initial_mem_wf]
    · simp [hp, Lp.initial_mem_wf]

/-- Settles O49: at reset the only instance is idle, and every memory is built in its canonical form. -/
theorem resetMeetsTheInvariant : Obligations.ResetMeetsTheInvariant := by
  unfold Obligations.ResetMeetsTheInvariant
  exact
    { focused := Inst.ok_idle 0
      others := fun _ hm => absurd hm List.not_mem_nil
      threads := List.nodup_singleton 0
      memories := ⟨State.reset_callerMem_wf, Env.initial_memoriesWf⟩
      segMap := by
        rw [State.reset_params]
        exact Params.default_wf }

/-! ### Steps of an instance -/

/-- A change of the instance in focus, of the environment and of the caller's memory keeps the invariant of the machine, if
it keeps that of the instance and the canonical form of the memories. -/
theorem State.Inv.of_frame {s t : State} (hs : s.Inv) (ht : t.inst.thread = s.inst.thread) (ho : t.others = s.others)
    (hc : t.params = s.params) (hn : t.env.numLp = s.env.numLp) (hm : t.memoriesWf)
    (hok : t.inst.ok s.params s.env.numLp) : t.Inv where
  focused := by rwa [hc, hn]
  others := by
    rw [ho, hc, hn]
    exact hs.others
  threads := by
    unfold State.threads
    rw [ht, ho]
    exact hs.threads
  memories := hm
  segMap := by
    rw [hc]
    exact hs.segMap

/-- Replacing a processor by one whose memory is in canonical form keeps every memory so. -/
theorem Env.setLp_memoriesWf {e : Env} (p : Nat) {l : Lp} (hl : Memory.wf l.mem = true)
    (he : ∀ q, Memory.wf (e.lp q).mem = true) (q : Nat) : Memory.wf ((e.setLp p l).lp q).mem = true := by
  obtain hq | hq := e.lp_setLp_cases p q l
  · rw [hq]
    exact hl
  · rw [hq]
    exact he q

/-- No step of a request changes the number of processors (R291). -/
theorem Serves.numLp_eq {s t : State} {h : Handler} {inLen outCap : Nat} (hs : Serves h inLen outCap s t) :
    t.env.numLp = s.env.numLp := by
  obtain he | ⟨-, -, a, v, -, he⟩ := hs.env_eq
  · rw [he]
  · rw [he, Env.numLp_setLp]

/-- A step of a request keeps the caller's memory in canonical form. -/
theorem Serves.callerMem_wf {s t : State} {h : Handler} {inLen outCap : Nat} (hs : Serves h inLen outCap s t)
    (hm : Memory.wf s.callerMem = true) : Memory.wf t.callerMem = true := by
  cases hs with
  | writesByte _ _ => exact Memory.wf_write _ _ _ hm
  | executes _ hx =>
    obtain ⟨-, -, -, hcm⟩ := hx.state_frame
    rwa [hcm]
  | _ => exact hm

/-- A step of a request keeps every memory in canonical form. -/
theorem Serves.keeps_memoriesWf {s t : State} {h : Handler} {inLen outCap : Nat} (hs : Serves h inLen outCap s t)
    (hm : s.memoriesWf) : t.memoriesWf := by
  refine ⟨hs.callerMem_wf hm.1, ?_⟩
  obtain he | ⟨-, -, a, v, -, he⟩ := hs.env_eq
  · rw [he]
    exact hm.2
  · rw [he]
    exact Env.setLp_memoriesWf _ (hm.2 s.nextLp) hm.2

/-- A step of the instance in focus keeps the invariant. -/
theorem stepInst_keeps_inv {s t : State} (hs : s.Inv) (hn : stepInst s = .next t) : t.Inv := by
  by_cases hserv : s.inst.serving
  · obtain ⟨h, inLen, outCap, hm⟩ := hs.focused.exists_requests hserv
    by_cases hh : h = .hNone
    · subst hh
      rw [stepInst_eq_lookupNone hserv hm] at hn
      cases hn
      exact hs.of_frame rfl rfl rfl rfl hs.memories (State.lookupNone_keeps_ok hserv hm hs.focused)
    · rw [stepInst_eq_serve hserv hm hh] at hn
      have hx := serves_of_serve_eq_next h _ _ s t hh hn
      obtain ⟨ho, hc, -⟩ := hx.state_frame
      exact hs.of_frame hx.request_frame.1 ho hc hx.numLp_eq (hx.keeps_memoriesWf hs.memories)
        (hx.keeps_ok hm hh hs.focused)
  · obtain ⟨-, hsame⟩ | ⟨r, -, hfault⟩ := stepInst_of_not_serving s hserv
    · rw [hsame] at hn
      cases hn
      exact hs
    · rw [hfault] at hn
      cases hn

/-! ### Steps of the other agents -/

/-- What is pending is no part of the invariant. -/
theorem State.Inv.agenda {s : State} (hs : s.Inv) (es : List Event) : State.Inv { s with agenda := es } :=
  ⟨hs.focused, hs.others, hs.threads, hs.memories, hs.segMap⟩

/-- The threads stay different from each other when one is brought into focus. -/
theorem State.focus_threads_nodup (s : State) (t : Nat) (hn : s.threads.Nodup) : (s.focus t).threads.Nodup := by
  unfold State.focus
  split
  · exact hn
  · rename_i hne
    obtain ⟨hnot, hrest⟩ := List.nodup_cons.mp hn
    have hsub : List.Sublist ((instsBut t s.others).map fun m => m.thread) (s.others.map fun m => m.thread) :=
      List.filter_sublist.map _
    have hold : s.inst.thread ∉ (instsBut t s.others).map fun m => m.thread := fun h => hnot (hsub.mem h)
    have hnew : t ∉ s.inst.thread :: (instsBut t s.others).map fun m => m.thread := by
      simp [instsBut, Ne.symm hne]
    simp only [State.threads, instOf_thread, List.map_cons]
    exact List.nodup_cons.mpr ⟨hnew, List.nodup_cons.mpr ⟨hold, hrest.sublist hsub⟩⟩

/-- Bringing a thread's instance into focus keeps the invariant. -/
theorem State.Inv.focus {s : State} (hs : s.Inv) (t : Nat) : (s.focus t).Inv := by
  have hthreads := s.focus_threads_nodup t hs.threads
  unfold State.focus at *
  split at hthreads
  · rename_i h
    rwa [if_pos h]
  · rename_i h
    rw [if_neg h]
    refine ⟨?_, fun m hm => ?_, hthreads, hs.memories, hs.segMap⟩
    · obtain hmem | hidle := instOf_mem t s.others
      · exact hs.others _ hmem
      · rw [hidle]
        exact Inst.ok_idle t
    · obtain rfl | hm := List.mem_cons.mp hm
      · exact hs.focused
      · exact hs.others m (List.mem_filter.mp hm).1

/-- A change of a processor that keeps its memory in canonical form keeps the invariant. -/
theorem State.Inv.changeLp {s : State} (hs : s.Inv) (p : Nat) (f : Lp → Lp)
    (hf : ∀ l : Lp, Memory.wf l.mem = true → Memory.wf (f l).mem = true) : (s.changeLp p f).Inv :=
  hs.of_frame rfl rfl rfl (Env.numLp_setLp _ _ _)
    ⟨hs.memories.1, Env.setLp_memoriesWf p (hf _ (hs.memories.2 p)) hs.memories.2⟩ hs.focused

/-- A request presented keeps the invariant (R183). -/
theorem State.Inv.present {s : State} (hs : s.Inv) (r : Request) : (s.present r).Inv := by
  by_cases hp : s.inst.phase = .idle
  · rw [State.present_of_idle s r hp]
    exact hs.of_frame rfl rfl rfl rfl hs.memories (Inst.ok_receive _ r)
  · rwa [State.present_of_not_idle s r hp]

/-- An acknowledgement keeps the invariant (R191). -/
theorem State.Inv.ack {s : State} (hs : s.Inv) : s.ack.Inv := by
  by_cases hp : s.inst.phase = .completed
  · rw [State.ack_of_completed s hp]
    exact hs.of_frame rfl rfl rfl rfl hs.memories (Inst.ok_idle _)
  · rwa [State.ack_of_not_completed s hp]

/-- A reset keeps the invariant (R290, R292). -/
theorem State.Inv.blockReset {s : State} (hs : s.Inv) : s.blockReset.Inv where
  focused := Inst.ok_idle _
  others := by
    intro m hm
    obtain ⟨m', -, rfl⟩ := List.mem_map.mp hm
    exact Inst.ok_idle _
  threads := by
    have hsame : s.blockReset.threads = s.threads := by
      simp [State.threads, Inst.idle, Function.comp_def]
    rw [hsame]
    exact hs.threads
  memories := hs.memories
  segMap := hs.segMap

/-- Every step of the host, of the environment and the reset keep the invariant (R74, R290). -/
theorem State.Inv.apply {s : State} (hs : s.Inv) (e : Event) : (s.apply e).Inv := by
  cases e with
  | run t => exact hs.focus t
  | present t r => exact (hs.focus t).present r
  | ack t => exact (hs.focus t).ack
  | poke a b => exact hs.of_frame rfl rfl rfl rfl ⟨Memory.wf_update _ a b hs.memories.1, hs.memories.2⟩ hs.focused
  | setMsr p a v => exact hs.changeLp p (·.setMsr a v) fun _ hl => hl
  | setSeg p r v =>
    refine hs.changeLp p (·.setSeg r v) fun l hl => ?_
    rwa [Lp.setSeg_mem]
  | setGdtr p g => exact hs.changeLp p ({ · with gdtr := g }) fun _ hl => hl
  | setMem p a b => exact hs.changeLp p (fun l => { l with mem := l.mem.update a.toNat b }) fun _ hl => Memory.wf_update _ _ b hl
  | reset => exact hs.blockReset

/-- Settles O50: the step is an agent's, or an instance's after the focus has moved to it. -/
theorem stepKeepsTheInvariant : Obligations.StepKeepsTheInvariant := by
  unfold Obligations.StepKeepsTheInvariant
  intro s t hs hn
  obtain hstep | ⟨e, es, -, hstep | hstep⟩ := step_cases s
  · exact stepInst_keeps_inv hs (hstep ▸ hn)
  · rw [hstep] at hn
    cases hn
    exact (hs.agenda es).apply e
  · exact stepInst_keeps_inv ((hs.agenda es).apply e) (hstep ▸ hn)

end Sys2Proof.Machine
end

section
/-! PROOFS. Unwritten latches (spec/10_state.md R30): no step reads one in a state that meets the invariant. -/

namespace Sys2Proof.Machine

/-- A step's answer is not the fault of a read of an unwritten latch (R30). -/
def ReadsWritten (o : Out) : Prop := ∀ l : Latch, o ≠ .fault (.unwrittenLatch l)

theorem readsWritten_next (s : State) : ReadsWritten (.next s) := nofun

theorem readsWritten_refused (r : Refusal) : ReadsWritten (.refused r) := nofun

theorem readsWritten_hwFault (r : FaultRecord) : ReadsWritten (.fault (.hwFault r)) := nofun

/-- Reading a latch that holds a value leaves the question to what follows. -/
theorem readsWritten_readLatch {α : Type} {l : Latch} {held : Option α} {k : α → Out} (hh : held.isSome = true)
    (hk : ∀ a, ReadsWritten (k a)) : ReadsWritten (readLatch l held k) := by
  obtain ⟨a, rfl⟩ := Option.isSome_iff_exists.mp hh
  exact hk a

/-! ### Each step, given the latches it reads -/

theorem latchStep_readsWritten {s : State} (h : Handler) (hb : s.inst.inBuf.isSome = true) :
    ReadsWritten (latchStep h s) := by
  refine readsWritten_readLatch hb fun base => ?_
  split
  · exact readsWritten_next _
  · exact readsWritten_refused _

theorem resultImage_readsWritten {m : Inst} {c : Params} {h : Handler} {k : List Byte → Out} (hh : m.h = some h)
    (hr : m.resultsHeld c) (hk : ∀ image, ReadsWritten (k image)) : ReadsWritten (resultImage h m k) := by
  cases h with
  | readMsr =>
    obtain ⟨hlo, hhi, -, -⟩ := (Inst.resultsHeld_readMsr_iff hh).mp hr
    exact readsWritten_readLatch hlo fun _ => readsWritten_readLatch hhi fun _ => hk _
  | querySegment =>
    obtain ⟨-, hsel, r, v, lo, hi, hr, hv, hlo, hhi, -⟩ := (Inst.resultsHeld_querySegment_iff hh).mp hr
    refine readsWritten_readLatch hsel fun _ => ?_
    rw [hr, hv, hlo, hhi]
    exact hk _
  | writeMsr => exact hk []
  | hNone => exact hk []

theorem outputByte_readsWritten {s : State} {h : Handler} (n : Nat) (hb : s.inst.outBuf.isSome = true)
    (hh : s.inst.h = some h) (hr : s.inst.resultsHeld s.params) : ReadsWritten (outputByte h n s) := by
  refine readsWritten_readLatch hb fun base => resultImage_readsWritten hh hr fun image => ?_
  split
  · exact readsWritten_next _
  · exact readsWritten_refused _

theorem executeReadMsr_readsWritten {s : State} (ha : s.inst.opMsrAddr.isSome = true) :
    ReadsWritten (executeReadMsr s) := by
  refine readsWritten_readLatch ha fun a => ?_
  split <;> exact readsWritten_next _

theorem executeWriteMsr_readsWritten {s : State} (ha : s.inst.opMsrAddr.isSome = true)
    (hlo : s.inst.opLo.isSome = true) (hhi : s.inst.opHi.isSome = true) : ReadsWritten (executeWriteMsr s) := by
  refine readsWritten_readLatch ha fun a => readsWritten_readLatch hlo fun lo => readsWritten_readLatch hhi fun hi => ?_
  split <;> exact readsWritten_next _

theorem executeQuerySegment_readsWritten {s : State} (w : ExecStep) (hi : s.inst.opSegIdx.isSome = true)
    (hs : w = .sgdt → s.inst.resSel.isSome = true) : ReadsWritten (executeQuerySegment w s) := by
  cases w with
  | start =>
    refine readsWritten_readLatch hi fun v => ?_
    split <;> exact readsWritten_next _
  | sgdt => exact readsWritten_readLatch (hs rfl) fun sel => readsWritten_next _
  | readLo glim off job => exact readsWritten_next _
  | readHi rawLo job => exact readsWritten_next _

/-- The operand check reads the index of QUERY_SEGMENT, and nothing of the other handlers (R187). -/
theorem operandCheck_readsWritten {s : State} {h : Handler} {k : Bool → Out}
    (hi : h = .querySegment → s.inst.opSegIdx.isSome = true) (hk : ∀ b, ReadsWritten (k b)) :
    ReadsWritten (operandCheck h s k) := by
  cases h with
  | querySegment => exact readsWritten_readLatch (hi rfl) fun v => hk _
  | readMsr => exact hk true
  | writeMsr => exact hk true
  | hNone => exact hk true

/-- A step in VALIDATED reads nothing unwritten if its execution rule and its operand check do not. -/
theorem executeStep_readsWritten {s : State} {h : Handler} {execute : ExecStep → State → Out} {w : ExecStep}
    (hi : h = .querySegment → s.inst.opSegIdx.isSome = true) (hx : ReadsWritten (execute w s)) :
    ReadsWritten (executeStep h execute w s) := by
  cases w with
  | start =>
    unfold executeStep
    refine operandCheck_readsWritten hi fun b => ?_
    split
    · exact hx
    · exact readsWritten_next _
  | sgdt => exact hx
  | readLo glim off job => exact hx
  | readHi rawLo job => exact hx

/-! ### Under the invariant -/

/-- The operand latches that a handler's execution reads are those that its latching writes (R27, R188). -/
theorem execution_readsWritten {s : State} {h : Handler} {w : ExecStep} (hh : s.inst.h = some h)
    (hops : s.inst.operandsHeld) (hx : s.inst.executing s.params s.env.numLp w) :
    ReadsWritten (executeStep h h.execution w s) := by
  cases h with
  | readMsr =>
    obtain ⟨haddr, -⟩ := (Inst.operandsHeld_readMsr_iff hh).mp hops
    exact executeStep_readsWritten nofun (executeReadMsr_readsWritten haddr)
  | writeMsr =>
    obtain ⟨haddr, hlo, hhi, -⟩ := (Inst.operandsHeld_writeMsr_iff hh).mp hops
    exact executeStep_readsWritten nofun (executeWriteMsr_readsWritten haddr hlo hhi)
  | querySegment =>
    obtain ⟨-, -, -, hidx⟩ := (Inst.operandsHeld_querySegment_iff hh).mp hops
    refine executeStep_readsWritten (fun _ => hidx) (executeQuerySegment_readsWritten w hidx ?_)
    rintro rfl
    obtain ⟨-, -, -, hsel, -⟩ := hx
    exact hsel
  | hNone => exact executeStep_readsWritten nofun (readsWritten_next s)

/-- A step of a request reads no unwritten latch of an instance that meets the invariant (R30). -/
theorem serve_readsWritten {s : State} {h : Handler} {inLen outCap : U32} (hm : s.inst.Requests h inLen outCap)
    (hok : s.inst.ok s.params s.env.numLp) : ReadsWritten (serve h inLen.toNat outCap.toNat h.execution s) := by
  unfold serve
  split
  case h_1 => exact readsWritten_next _
  case h_2 => exact readsWritten_next _
  case h_3 =>
    unfold sizeGate
    split <;> exact readsWritten_next _
  case h_4 hp =>
    obtain ⟨-, -, -, hin, -⟩ := hok.requestHeld (by simp [hp])
    exact latchStep_readsWritten h hin
  case h_5 w hp =>
    obtain ⟨-, -, -, hops, hx, -⟩ := (Inst.ok_validated_iff hp).mp hok
    exact execution_readsWritten (hm.after_lookup (by simp [hp])) hops hx
  case h_6 n hp =>
    obtain ⟨⟨-, -, -, -, hout⟩, -, -, -, hr, -⟩ := (Inst.ok_executed_iff hp).mp hok
    unfold resultStep
    split
    · exact outputByte_readsWritten n hout (hm.after_lookup (by simp [hp])) hr
    · exact readsWritten_next _
  case h_7 => exact readsWritten_next _
  case h_8 => exact readsWritten_hwFault _

theorem stepInst_readsWritten {s : State} (hok : s.inst.ok s.params s.env.numLp) : ReadsWritten (stepInst s) := by
  by_cases hserv : s.inst.serving
  · obtain ⟨h, inLen, outCap, hm⟩ := hok.exists_requests hserv
    by_cases hh : h = .hNone
    · subst hh
      rw [stepInst_eq_lookupNone hserv hm]
      exact readsWritten_next _
    · rw [stepInst_eq_serve hserv hm hh]
      exact serve_readsWritten hm hok
  · obtain ⟨-, hsame⟩ | ⟨r, -, hfault⟩ := stepInst_of_not_serving s hserv
    · rw [hsame]
      exact readsWritten_next _
    · rw [hfault]
      exact readsWritten_hwFault r

theorem step_readsWritten {s : State} (hs : s.Inv) : ReadsWritten (step s) := by
  obtain hstep | ⟨e, es, -, hstep | hstep⟩ := step_cases s
  · rw [hstep]
    exact stepInst_readsWritten hs.focused
  · rw [hstep]
    exact readsWritten_next _
  · rw [hstep]
    exact stepInst_readsWritten ((hs.agenda es).apply e).focused

/-- A request past the lookup reads the handler latch first, and faults where it holds no value (R26, R30). -/
theorem stepInst_of_no_handler (s : State) (hserv : s.inst.serving) (hl : s.inst.phase ≠ .received .lookup)
    (hh : s.inst.h = none) : stepInst s = .fault (.unwrittenLatch .h) := by
  rw [stepInst_of_serving s hserv, fetchInstr_looked_up _ _ hl, hh, readLatch_none]

/-- Settles O51: under the invariant each step finds the latches it reads written; the handler latch is read first. -/
theorem noUnwrittenLatchIsRead : Obligations.NoUnwrittenLatchIsRead := by
  unfold Obligations.NoUnwrittenLatchIsRead
  refine ⟨fun s l hs => step_readsWritten hs l, fun s ha hserv hl hh => ?_⟩
  rw [step, ha]
  exact stepInst_of_no_handler s hserv hl hh

end Sys2Proof.Machine
end

section
/-! PROOFS. The operands and the write-back (spec/20_memory.md R63, R70): bytes put down are assembled back to the value, and
an MSR written with the value it holds reads as before. -/

namespace Sys2Proof.Machine

/-! ### Little-endian fields -/

/-- The bytes of a value, the highest first, are the value. -/
theorem bytes_append_eq (v : U32) :
    v.extractLsb' 24 8 ++ v.extractLsb' 16 8 ++ v.extractLsb' 8 8 ++ v.extractLsb' 0 8 = v := by
  have top : v.extractLsb' 24 8 ++ v.extractLsb' 16 8 = v.extractLsb' 16 16 :=
    BitVec.extractLsb'_append_extractLsb'_eq_extractLsb' rfl
  have middle : v.extractLsb' 16 16 ++ v.extractLsb' 8 8 = v.extractLsb' 8 24 :=
    BitVec.extractLsb'_append_extractLsb'_eq_extractLsb' rfl
  have all : v.extractLsb' 8 24 ++ v.extractLsb' 0 8 = v.extractLsb' 0 32 :=
    BitVec.extractLsb'_append_extractLsb'_eq_extractLsb' rfl
  rw [top, middle, all, BitVec.extractLsb'_eq_self]

/-- What PUT32 writes behind some bytes and before others, LE32 reads back at its offset (R10). -/
theorem le32_append_put32_append (before : List Byte) (v : U32) (after : List Byte) :
    le32 (before ++ put32 v ++ after) before.length = v := by
  simpa [le32, put32, List.getD_eq_getElem?_getD] using bytes_append_eq v

/-- What PUT16 writes, LE16 reads back (R10). -/
theorem le16_put16 (v : U16) : le16 (put16 v) 0 = v :=
  (BitVec.extractLsb'_append_extractLsb'_eq_extractLsb' rfl).trans BitVec.extractLsb'_eq_self

/-- Three words put down one behind the other are read back at offsets 0, 4 and 8. -/
theorem le32_three_words (a b c : U32) :
    let bytes := put32 a ++ put32 b ++ put32 c
    le32 bytes 0 = a ∧ le32 bytes 4 = b ∧ le32 bytes 8 = c :=
  ⟨le32_append_put32_append [] a (put32 b ++ put32 c), le32_append_put32_append (put32 a) b (put32 c),
    le32_append_put32_append (put32 a ++ put32 b) c []⟩

/-! ### The operands of a line -/

/-- A number that fits a field of `w` bits is the value of the field. -/
theorem toNat_ofNat_of_fits {w n : Nat} (hn : Nat.blt n (2 ^ w) = true) : (BitVec.ofNat w n).toNat = n := by
  rw [BitVec.toNat_ofNat, Nat.mod_eq_of_lt (Nat.blt_eq.mp hn)]

/-- READ_MSR latches the address that its line puts down (R92). -/
theorem latchOperands_readMsr_addr (a : Nat) (m : Inst) :
    latchOperands .readMsr (LineInput.addr a).bytes m = { m with opMsrAddr := some (BitVec.ofNat 32 a) } := by
  have ha : le32 (put32 (BitVec.ofNat 32 a)) 0 = BitVec.ofNat 32 a := le32_append_put32_append [] _ []
  rw [latchOperands, LineInput.bytes, ha]

/-- WRITE_MSR latches the address and the two halves that its line puts down, one behind the other (R93). -/
theorem latchOperands_writeMsr_write (a lo hi : Nat) (m : Inst) :
    latchOperands .writeMsr (LineInput.write a lo hi).bytes m =
      { m with
        opMsrAddr := some (BitVec.ofNat 32 a), opLo := some (BitVec.ofNat 32 lo), opHi := some (BitVec.ofNat 32 hi) } := by
  obtain ⟨ha, hlo, hhi⟩ := le32_three_words (BitVec.ofNat 32 a) (BitVec.ofNat 32 lo) (BitVec.ofNat 32 hi)
  rw [latchOperands, LineInput.bytes, ha, hlo, hhi]

/-- QUERY_SEGMENT latches the index that its line puts down (R94). -/
theorem latchOperands_querySegment_idx (i : Nat) (m : Inst) :
    latchOperands .querySegment (LineInput.idx i).bytes m = { m with opSegIdx := some (BitVec.ofNat 16 i) } := by
  rw [latchOperands, LineInput.bytes, le16_put16]

/-- Settles O4: the latches hold the fields as words, and a field that fits is the value of its word. -/
theorem lineOperandsAreReassembled : Obligations.LineOperandsAreReassembled := by
  unfold Obligations.LineOperandsAreReassembled
  refine ⟨fun a m hf => ?addr, fun a lo hi m hf => ?write, fun i m hf => ?idx⟩
  case addr =>
    rw [latchOperands_readMsr_addr]
    exact ⟨_, rfl, toNat_ofNat_of_fits hf⟩
  case write =>
    rw [latchOperands_writeMsr_write]
    simp only [LineInput.fits, Bool.and_eq_true] at hf
    obtain ⟨⟨ha, hlo⟩, hhi⟩ := hf
    exact ⟨_, _, _, rfl, rfl, rfl, toNat_ofNat_of_fits ha, toNat_ofNat_of_fits hlo, toNat_ofNat_of_fits hhi⟩
  case idx =>
    rw [latchOperands_querySegment_idx]
    exact ⟨_, rfl, toNat_ofNat_of_fits hf⟩

/-! ### Writing back -/

/-- A value is what its halves put together (R35). -/
theorem msrValue_msrLow_msrHigh (v : U64) : msrValue (msrLow v) (msrHigh v) = v := (msrValueHalves.2 v).1

/-- An MSR written with the value it holds, and so every MSR, reads as before (R70). -/
theorem Lp.msr_setMsr_of_msr (l : Lp) (a b : U32) (v : U64) (ha : l.msr a = some v) :
    (l.setMsr a v).msr b = l.msr b := by
  rw [Lp.msr_setMsr]
  split
  · rename_i h
    rw [h.1, ha]
  · rfl

/-- Replacing a processor by one that reads the same MSRs leaves every MSR of every processor reading as it did. -/
theorem Env.msr_setLp {e : Env} {p q : Nat} {l : Lp} (hl : ∀ b, l.msr b = (e.lp p).msr b) (hq : q < e.numLp) (b : U32) :
    ((e.setLp p l).lp q).msr b = (e.lp q).msr b := by
  rw [Env.lp_setLp _ _ _ _ hq]
  split
  · rename_i h
    rw [hl, h]
  · rfl

/-- Settles O16: the halves read make up the value the MSR holds, so writing them back changes no reading. -/
theorem writeBackIsIdempotent : Obligations.WriteBackIsIdempotent := by
  unfold Obligations.WriteBackIsIdempotent
  intro s a lo hi e hread hwrite
  obtain ⟨v, hv, rfl, rfl⟩ := (primRdmsr_eq_ok a s lo hi).mp hread
  obtain ⟨-, he⟩ := (primWrmsr_eq_ok _ _ _ _ _).mp hwrite
  rw [msrValue_msrLow_msrHigh] at he
  have hmsr (p : Nat) (hp : p < s.env.numLp) (b : U32) : (e.lp p).msr b = (s.env.lp p).msr b :=
    he ▸ Env.msr_setLp (fun b => s.portLp.msr_setMsr_of_msr a b v hv) hp b
  have hdraw : State.nextLp { s with env := e } = s.nextLp := by simp [State.nextLp, he]
  refine ⟨(primRdmsr_eq_ok _ _ _ _).mpr ⟨v, ?_, rfl, rfl⟩, hmsr⟩
  rw [State.portLp, hdraw, hmsr _ s.nextLp_lt]
  exact hv

end Sys2Proof.Machine
end

section
/-! PROOFS. The step at an instance that serves an instruction (spec/42_dispatcher.md R180, R184; log 7). -/

namespace Sys2Proof.Machine

/-- The latches of an instance that serves an instruction name its handler, before the lookup by the decoded selector. -/
theorem Inst.servingInstr.exists_requests {m : Inst} {i : Instr} (hm : m.servingInstr i) :
    ∃ h inLen outCap, m.Requests h inLen outCap ∧ h.instr inLen.toNat outCap.toNat = some i := by
  obtain ⟨-, inLen, outCap, hin, hout, ⟨hp, op, hop, hdec⟩ | ⟨hp, h, hh, hi⟩⟩ := hm
  · refine ⟨Handler.ofOp op, inLen, outCap, ⟨hin, hout, fun _ => by rw [hop]; rfl, absurd hp⟩, ?_⟩
    rw [← decode_toOption, hdec]
    rfl
  · exact ⟨h, inLen, outCap, ⟨hin, hout, (absurd · hp), fun _ => hh⟩, hi⟩

/-- The step of an instance that serves an instruction is `exec` of it (R180). -/
theorem stepInst_of_servingInstr (s : State) (i : Instr) (hs : s.inst.servingInstr i) : stepInst s = exec i s := by
  obtain ⟨h, inLen, outCap, hm, hi⟩ := hs.exists_requests
  rw [stepInst_of_serving s hs.1, fetchInstr_of_requests hm, hi]
  rfl

/-- Settles O5: a step with nothing or a run pending is the step of the instance it brings into focus. -/
theorem stepRunsTheInstructionServed : Obligations.StepRunsTheInstructionServed := by
  unfold Obligations.StepRunsTheInstructionServed
  refine ⟨fun s i ha hs => ?_, fun s t es i ha hs => ?_⟩
  · rw [step, ha]
    exact stepInst_of_servingInstr s i hs
  · rw [step, ha]
    exact stepInst_of_servingInstr _ i hs

end Sys2Proof.Machine
end

section
/-! PROOFS. The caller's memory (spec/20_memory.md R61, R62, R69): what a step writes of it, and what it reads. -/

namespace Sys2Proof.Machine

/-! ### Writes -/

/-- A step of a request leaves the caller's memory, or writes the next result byte at its place in the output buffer (R62,
R69). -/
theorem serve_callerMem {h : Handler} {inLen outCap : Nat} {s t : State} (hh : h ≠ .hNone)
    (hn : serve h inLen outCap h.execution s = .next t) :
    t.callerMem = s.callerMem ∨ ∃ n base v, s.inst.phase = .executed n ∧ n < h.outSize ∧ s.inst.outBuf = some base ∧
      t.callerMem = s.callerMem.write (base + n) v := by
  obtain ⟨-, rfl⟩ | ⟨-, rfl⟩ | ⟨-, -, rfl⟩ | ⟨-, -, rfl⟩ | ⟨-, base, b, -, -, rfl⟩ | ⟨w, hp, hx⟩ |
    ⟨n, hp, hl, base, v, hb, -, rfl⟩ | ⟨n, -, -, rfl⟩ | ⟨-, rfl⟩ := serve_eq_next _ _ _ _ s t hn
  · exact .inl rfl
  · exact .inl rfl
  · exact .inl rfl
  · exact .inl rfl
  · exact .inl rfl
  · obtain hx | ⟨-, -, -, rfl⟩ := executeStep_eq_next _ _ _ s t hx
    · obtain ⟨-, -, -, hmem⟩ := (execution_eq_next h w s t hh hx).state_frame
      exact .inl hmem
    · exact .inl rfl
  · exact .inr ⟨n, base, v, hp, hl, hb, rfl⟩
  · exact .inl rfl
  · exact .inl rfl

/-- Settles O44: the one write of a step is the result byte at its offset. -/
theorem instructionsChangeOneOutputByte : Obligations.InstructionsChangeOneOutputByte := by
  unfold Obligations.InstructionsChangeOneOutputByte
  intro i s t hn a ha
  obtain hmem | ⟨n, base, v, hp, hl, hb, hmem⟩ := serve_callerMem (instrHandler_ne_hNone i) (exec_eq_serve i s ▸ hn)
  · rw [hmem]
  · rw [hmem, Memory.read_write_other _ _ _ _ (ha n base hp hl hb)]

/-! ### Execution on another caller's memory -/

/-- The state with the caller's memory replaced. -/
def State.withCallerMem (m : Memory) (s : State) : State := { s with callerMem := m }

/-- An answer with the caller's memory replaced in the next state, if there is one. -/
def answerWithCallerMem (m : Memory) : Out → Out
  | .next t => .next (t.withCallerMem m)
  | .fault r => .fault r
  | .refused r => .refused r

/-- Reading a latch leaves the question to what follows. -/
theorem answerWithCallerMem_readLatch {α : Type} (m : Memory) (l : Latch) (held : Option α) (k : α → Out) :
    answerWithCallerMem m (readLatch l held k) = readLatch l held fun a => answerWithCallerMem m (k a) := by
  cases held <;> rfl

/-! No primitive, and so no execution rule, reads the caller's memory: each of them commutes with its replacement. -/

section

variable (m : Memory) (s : State)

theorem drawnFor_withCallerMem (job : MemJob) :
    (s.withCallerMem m).drawnFor job = (s.drawnFor job).withCallerMem m := by
  unfold State.drawnFor
  rw [apply_ite (State.withCallerMem m)]
  rfl

theorem querySelector_withCallerMem (r : Config.SegReg) :
    querySelector r (s.withCallerMem m) = (querySelector r s).withCallerMem m := by
  unfold querySelector
  dsimp only
  rw [apply_ite (State.withCallerMem m)]
  rfl

theorem queryTable_withCallerMem (sel : U16) :
    queryTable sel (s.withCallerMem m) = (queryTable sel s).withCallerMem m := by
  unfold queryTable
  dsimp only
  rw [apply_ite (State.withCallerMem m)]
  rfl

theorem queryWidth_withCallerMem (glim : U16) (off ea rawLo : U64) :
    queryWidth glim off ea rawLo (s.withCallerMem m) = (queryWidth glim off ea rawLo s).withCallerMem m := by
  unfold queryWidth
  rw [apply_ite (State.withCallerMem m), apply_ite (State.withCallerMem m)]
  rfl

theorem queryReadLo_withCallerMem (glim : U16) (off : U64) (job : MemJob) :
    queryReadLo glim off job (s.withCallerMem m) = (queryReadLo glim off job s).withCallerMem m := by
  have hread : memReadByte job (s.withCallerMem m) = memReadByte job s := rfl
  unfold queryReadLo
  rw [hread, drawnFor_withCallerMem]
  cases memReadByte job s with
  | error r => rfl
  | ok job' =>
    dsimp only
    rw [queryWidth_withCallerMem, apply_ite (State.withCallerMem m)]
    rfl

theorem queryReadHi_withCallerMem (rawLo : U64) (job : MemJob) :
    queryReadHi rawLo job (s.withCallerMem m) = (queryReadHi rawLo job s).withCallerMem m := by
  have hread : memReadByte job (s.withCallerMem m) = memReadByte job s := rfl
  unfold queryReadHi
  rw [hread, drawnFor_withCallerMem]
  cases memReadByte job s with
  | error r => rfl
  | ok job' =>
    dsimp only
    rw [apply_ite (State.withCallerMem m)]
    rfl

theorem executeReadMsr_withCallerMem :
    executeReadMsr (s.withCallerMem m) = answerWithCallerMem m (executeReadMsr s) := by
  unfold executeReadMsr
  rw [answerWithCallerMem_readLatch]
  refine congrArg (readLatch _ _) (funext fun a => ?_)
  have hread : primRdmsr a (s.withCallerMem m) = primRdmsr a s := rfl
  rw [hread]
  cases primRdmsr a s <;> rfl

theorem executeWriteMsr_withCallerMem :
    executeWriteMsr (s.withCallerMem m) = answerWithCallerMem m (executeWriteMsr s) := by
  unfold executeWriteMsr
  simp only [answerWithCallerMem_readLatch]
  refine congrArg (readLatch _ _) (funext fun a => congrArg (readLatch _ _) (funext fun lo =>
    congrArg (readLatch _ _) (funext fun hi => ?_)))
  have hwrite : primWrmsr a lo hi (s.withCallerMem m) = primWrmsr a lo hi s := rfl
  rw [hwrite]
  cases primWrmsr a lo hi s <;> rfl

theorem executeQuerySegment_withCallerMem (w : ExecStep) :
    executeQuerySegment w (s.withCallerMem m) = answerWithCallerMem m (executeQuerySegment w s) := by
  cases w with
  | start =>
    unfold executeQuerySegment
    rw [answerWithCallerMem_readLatch]
    refine congrArg (readLatch _ _) (funext fun v => ?_)
    cases segIndex v with
    | none => rfl
    | some i => exact congrArg Host.Outcome.next (querySelector_withCallerMem m s _)
  | sgdt =>
    unfold executeQuerySegment
    rw [answerWithCallerMem_readLatch]
    exact congrArg (readLatch _ _) (funext fun sel => congrArg Host.Outcome.next (queryTable_withCallerMem m s sel))
  | readLo glim off job => exact congrArg Host.Outcome.next (queryReadLo_withCallerMem m s glim off job)
  | readHi rawLo job => exact congrArg Host.Outcome.next (queryReadHi_withCallerMem m s rawLo job)

/-- The execution of a handler does the same whatever the caller's memory holds (R300). -/
theorem execution_withCallerMem (h : Handler) (w : ExecStep) :
    h.execution w (s.withCallerMem m) = answerWithCallerMem m (h.execution w s) := by
  cases h with
  | readMsr => exact executeReadMsr_withCallerMem m s
  | writeMsr => exact executeWriteMsr_withCallerMem m s
  | querySegment => exact executeQuerySegment_withCallerMem m s w
  | hNone => rfl

/-- A step in VALIDATED does the same whatever the caller's memory holds (R187, R300). -/
theorem executeStep_withCallerMem (h : Handler) (w : ExecStep) :
    executeStep h h.execution w (s.withCallerMem m) = answerWithCallerMem m (executeStep h h.execution w s) := by
  cases w with
  | start =>
    cases h with
    | querySegment =>
      unfold executeStep operandCheck
      dsimp only
      rw [answerWithCallerMem_readLatch]
      refine congrArg (readLatch _ _) (funext fun v => ?_)
      rw [execution_withCallerMem, apply_ite (answerWithCallerMem m)]
      rfl
    | readMsr => exact execution_withCallerMem m s .readMsr .start
    | writeMsr => exact execution_withCallerMem m s .writeMsr .start
    | hNone => rfl
  | _ => exact execution_withCallerMem m s h _

theorem sizeGate_withCallerMem (h : Handler) (inLen outCap : Nat) :
    sizeGate h inLen outCap (s.withCallerMem m) = answerWithCallerMem m (sizeGate h inLen outCap s) := by
  unfold sizeGate
  rw [apply_ite (answerWithCallerMem m)]
  rfl

end

/-! ### The steps that reach a buffer, on another caller's memory -/

/-- A result image that lets a step go on is the same whatever is done with it (R190). -/
theorem exists_resultImage {h : Handler} {m : Inst} {k : List Byte → Out} {t : State}
    (hn : resultImage h m k = .next t) : ∃ image, ∀ k', resultImage h m k' = k' image := by
  cases h with
  | readMsr =>
    simp only [resultImage, readLatch_eq_next] at hn
    obtain ⟨lo, hlo, hi, hhi, -⟩ := hn
    exact ⟨readMsrImage lo hi, fun k' => by simp only [resultImage, hlo, hhi, readLatch_some]⟩
  | querySegment =>
    simp only [resultImage, readLatch_eq_next] at hn
    obtain ⟨sel, hsel, r, hr, v, hv, lo, hlo, hi, hhi, -⟩ := hn
    exact ⟨querySegmentImage sel r v lo hi, fun k' => by
      simp only [resultImage, hsel, hr, hv, hlo, hhi, readLatch_some]⟩
  | writeMsr => exact ⟨[], fun _ => rfl⟩
  | hNone => exact ⟨[], fun _ => rfl⟩

/-- A step puts out a byte exactly where the result latches give an image and the host provides its address (R190). -/
theorem outputByte_eq_next_iff (h : Handler) (n : Nat) (s t : State) :
    outputByte h n s = .next t ↔ ∃ base image, s.inst.outBuf = some base ∧
      (∀ k, resultImage h s.inst k = k image) ∧ (s.callerMem.read (base + n)).isSome = true ∧
      t = State.toPhase { s with callerMem := s.callerMem.write (base + n) (image.getD n 0#8) } (.executed (n + 1)) := by
  unfold outputByte
  rw [readLatch_eq_next]
  constructor
  · rintro ⟨base, hb, hk⟩
    obtain ⟨image, himage⟩ := exists_resultImage hk
    rw [himage] at hk
    cases hr : s.callerMem.read (base + n) with
    | none => simp [hr] at hk
    | some b =>
      simp only [hr, Host.Outcome.next.injEq] at hk
      exact ⟨base, image, hb, himage, by simp [hr], hk.symm⟩
  · rintro ⟨base, image, hb, himage, hr, rfl⟩
    obtain ⟨b, hr⟩ := Option.isSome_iff_exists.mp hr
    exact ⟨base, hb, by rw [himage]; simp only [hr]⟩

/-- The byte put out comes from the result latches: any memory that provides its address gets the same (R62, R190). -/
theorem outputByte_withCallerMem {h : Handler} {n base : Nat} {s t : State} {m : Memory}
    (hn : outputByte h n s = .next t) (hb : s.inst.outBuf = some base)
    (hm : (m.read (base + n)).isSome = (s.callerMem.read (base + n)).isSome) :
    ∃ v, t.callerMem.read (base + n) = some v ∧
      outputByte h n (s.withCallerMem m) = .next (t.withCallerMem (m.write (base + n) v)) := by
  obtain ⟨base', image, hb', himage, hr, rfl⟩ := (outputByte_eq_next_iff h n s t).mp hn
  cases hb.symm.trans hb'
  exact ⟨_, Memory.read_write_same _ _ _,
    (outputByte_eq_next_iff h n _ _).mpr ⟨base, image, hb, himage, hm.trans hr, rfl⟩⟩

/-- Latching does the same on a memory that holds the same input bytes (R61, R186). -/
theorem latchStep_withCallerMem {h : Handler} {s t : State} {m : Memory} (hn : latchStep h s = .next t)
    (hm : ∀ base, s.inst.inBuf = some base → m.readBytes base h.inMin = s.callerMem.readBytes base h.inMin) :
    latchStep h (s.withCallerMem m) = .next (t.withCallerMem m) := by
  obtain ⟨base, b, hb, hread, rfl⟩ := (latchStep_eq_next h s t).mp hn
  exact (latchStep_eq_next h _ _).mpr ⟨base, b, hb, (hm base hb).trans hread, rfl⟩

/-! ### Every step of a request, on another caller's memory -/

/-- With a result byte still to write, the step puts it out (R190). -/
theorem serve_of_output {h : Handler} {n : Nat} {s : State} (inLen outCap : Nat) (execute : ExecStep → State → Out)
    (hp : s.inst.phase = .executed n) (hl : n < h.outSize) : serve h inLen outCap execute s = outputByte h n s := by
  unfold serve
  rw [hp]
  exact if_pos hl

/-- A step that puts out no byte does the same on a memory that gives the operand latching the same bytes (R61). -/
theorem serve_withCallerMem {h : Handler} {inLen outCap : Nat} {s t : State} {m : Memory}
    (hn : serve h inLen outCap h.execution s = .next t)
    (hin : s.inst.phase = .received .latch → ∀ base, s.inst.inBuf = some base →
      m.readBytes base h.inMin = s.callerMem.readBytes base h.inMin)
    (hout : ∀ n, s.inst.phase = .executed n → h.outSize ≤ n) :
    serve h inLen outCap h.execution (s.withCallerMem m) = .next (t.withCallerMem m) := by
  have hinst : (s.withCallerMem m).inst = s.inst := rfl
  unfold serve at hn ⊢
  rw [hinst]
  revert hn
  cases hp : s.inst.phase with
  | idle =>
    rintro ⟨⟩
    rfl
  | received r =>
    cases r with
    | lookup =>
      rintro ⟨⟩
      rfl
    | gate =>
      dsimp only
      intro hn
      rw [sizeGate_withCallerMem, hn]
      rfl
    | latch => exact fun hn => latchStep_withCallerMem hn (hin hp)
  | validated w =>
    dsimp only
    intro hn
    rw [executeStep_withCallerMem, hn]
    rfl
  | executed n =>
    have hl : ¬ n < h.outSize := Nat.not_lt.mpr (hout n hp)
    dsimp only [resultStep]
    rw [if_neg hl, if_neg hl]
    rintro ⟨⟩
    rfl
  | completed =>
    rintro ⟨⟩
    rfl
  | faulted r => exact nofun

/-! ### Under the invariant -/

theorem sizesShort_eq_false_iff (h : Handler) (inLen outCap : Nat) :
    sizesShort h inLen outCap = false ↔ h.inMin ≤ inLen ∧ h.outSize ≤ outCap := by
  rw [sizesShort, Bool.or_eq_false_iff, ← Bool.not_eq_true, ← Bool.not_eq_true, Nat.blt_eq, Nat.blt_eq, Nat.not_lt,
    Nat.not_lt]

/-- Past the size gate the declared sizes suffice for the bytes the handler reads and writes (R185). -/
theorem Inst.ok.sizes_suffice {m : Inst} {c : Params} {numLp : Nat} {h : Handler} {inLen outCap : U32}
    (hok : m.ok c numLp) (hm : m.Requests h inLen outCap)
    (hp : m.phase = .received .latch ∨ ∃ n, m.phase = .executed n) :
    h.inMin ≤ inLen.toNat ∧ h.outSize ≤ outCap.toNat := by
  have hshort : m.short = false := by
    obtain hp | ⟨n, hp⟩ := hp
    · obtain ⟨-, -, hs, -⟩ := (Inst.ok_latch_iff hp).mp hok
      exact hs
    · obtain ⟨-, -, hs, -⟩ := (Inst.ok_executed_iff hp).mp hok
      exact hs
  have hh : m.h = some h := hm.after_lookup (by obtain hp | ⟨n, hp⟩ := hp <;> simp [hp])
  rwa [Inst.short_eq hh hm.inLen_held hm.outCap_held, sizesShort_eq_false_iff] at hshort

/-- In IDLE and COMPLETED an instance waits (R182, R191). -/
theorem stepInst_of_waiting (s : State) (hp : s.inst.phase = .idle ∨ s.inst.phase = .completed) :
    stepInst s = .next s := by
  unfold stepInst
  obtain hp | hp := hp <;> rw [hp]

/-- What a step of an instance that meets the invariant can do, by the request it serves (R180, R184). -/
theorem stepInst_eq_next {s t : State} (hok : s.inst.ok s.params s.env.numLp) (hn : stepInst s = .next t) :
    ((s.inst.phase = .idle ∨ s.inst.phase = .completed) ∧ t = s) ∨
      s.inst.serving ∧ ∃ h inLen outCap, s.inst.Requests h inLen outCap ∧
        (h = .hNone ∧ t = s.lookupNone ∨
          h ≠ .hNone ∧ serve h inLen.toNat outCap.toNat h.execution s = .next t) := by
  by_cases hserv : s.inst.serving
  · obtain ⟨h, inLen, outCap, hm⟩ := hok.exists_requests hserv
    refine .inr ⟨hserv, h, inLen, outCap, hm, ?_⟩
    by_cases hh : h = .hNone
    · subst hh
      rw [stepInst_eq_lookupNone hserv hm] at hn
      cases hn
      exact .inl ⟨rfl, rfl⟩
    · exact .inr ⟨hh, stepInst_eq_serve hserv hm hh ▸ hn⟩
  · obtain ⟨hp, hsame⟩ | ⟨r, -, hfault⟩ := stepInst_of_not_serving s hserv
    · rw [hsame] at hn
      cases hn
      exact .inl ⟨hp, rfl⟩
    · rw [hfault] at hn
      cases hn

section

variable {s t : State} {inBase outBase : Nat} {inLen outCap : U32} {m : Memory}

/-- A step changes the caller's memory inside the declared output buffer only (R61). -/
theorem stepInst_writes_inside (hok : s.inst.ok s.params s.env.numLp) (hout : s.inst.outBuf = some outBase)
    (hcap : s.inst.reqOutCap = some outCap) (hn : stepInst s = .next t) (a : Nat)
    (ha : t.callerMem.read a ≠ s.callerMem.read a) : outBase ≤ a ∧ a < outBase + outCap.toNat := by
  obtain ⟨-, rfl⟩ | ⟨-, h, inLen', outCap', hm, ⟨-, rfl⟩ | ⟨hh, hserve⟩⟩ := stepInst_eq_next hok hn
  · exact absurd rfl ha
  · exact absurd rfl ha
  · obtain hmem | ⟨n, base, v, hp, hl, hb, hmem⟩ := serve_callerMem hh hserve
    · exact absurd (by rw [hmem]) ha
    · cases hout.symm.trans hb
      cases hcap.symm.trans hm.outCap_held
      obtain ⟨-, hsize⟩ := hok.sizes_suffice hm (.inr ⟨n, hp⟩)
      have hat : a = outBase + n := by
        by_contra hne
        exact ha (by rw [hmem, Memory.read_write_other _ _ _ _ hne])
      omega

/-- A step that puts out no byte reads the caller's memory inside the declared input buffer only (R61). -/
theorem stepInst_reads_inside (hok : s.inst.ok s.params s.env.numLp) (hin : s.inst.inBuf = some inBase)
    (hlen : s.inst.reqInLen = some inLen)
    (hm : ∀ a, inBase ≤ a → a < inBase + inLen.toNat → m.read a = s.callerMem.read a) (hn : stepInst s = .next t)
    (hdone : ∀ n h, s.inst.phase = .executed n → s.inst.h = some h → h.outSize ≤ n) :
    stepInst (s.withCallerMem m) = .next (t.withCallerMem m) := by
  obtain ⟨hp, rfl⟩ | ⟨hserv, h, inLen', outCap, hreq, ⟨rfl, rfl⟩ | ⟨hh, hserve⟩⟩ := stepInst_eq_next hok hn
  · exact stepInst_of_waiting _ hp
  · exact stepInst_eq_lookupNone (s := s.withCallerMem m) hserv hreq
  · rw [stepInst_eq_serve (s := s.withCallerMem m) hserv hreq hh]
    refine serve_withCallerMem hserve (fun hp base hb => ?_) fun n hp => hdone n h hp (hreq.after_lookup (by simp [hp]))
    cases hin.symm.trans hb
    cases hlen.symm.trans hreq.inLen_held
    obtain ⟨hsize, -⟩ := hok.sizes_suffice hreq (.inl hp)
    exact Memory.readBytes_congr m s.callerMem inBase h.inMin fun j hj hj' => hm j hj (by omega)

/-- A step that puts out a byte puts out the same one on every memory that provides its address (R61). -/
theorem stepInst_output_independent {n : Nat} {h : Handler} (hok : s.inst.ok s.params s.env.numLp)
    (hout : s.inst.outBuf = some outBase)
    (hm : (m.read (outBase + n)).isSome = (s.callerMem.read (outBase + n)).isSome) (hn : stepInst s = .next t)
    (hp : s.inst.phase = .executed n) (hh : s.inst.h = some h) (hl : n < h.outSize) :
    ∃ v, t.callerMem.read (outBase + n) = some v ∧
      stepInst (s.withCallerMem m) = .next (t.withCallerMem (m.write (outBase + n) v)) := by
  obtain ⟨hwait, -⟩ | ⟨hserv, h', inLen, outCap, hreq, hcase⟩ := stepInst_eq_next hok hn
  · simp [hp] at hwait
  · cases hh.symm.trans (hreq.after_lookup (by simp [hp]))
    obtain ⟨rfl, -⟩ | ⟨hne, hserve⟩ := hcase
    · exact absurd hl (Nat.not_lt_zero n)
    · rw [serve_of_output _ _ _ hp hl] at hserve
      rw [stepInst_eq_serve (s := s.withCallerMem m) hserv hreq hne,
        serve_of_output (s := s.withCallerMem m) _ _ _ hp hl]
      exact outputByte_withCallerMem hserve hout hm

end

/-- Settles O52: the size gate keeps the bytes latched and put out inside the declared buffers, and no other step reaches
the caller's memory. -/
theorem accessesStayInsideTheBuffers : Obligations.AccessesStayInsideTheBuffers := by
  unfold Obligations.AccessesStayInsideTheBuffers
  intro s inBase outBase inLen outCap hs ha hin hout hlen hcap
  have hstep (m : Memory) : step (s.withCallerMem m) = stepInst (s.withCallerMem m) := by
    rw [step, State.withCallerMem, ha]
  have hok := hs.focused
  rw [show step s = stepInst s from hstep s.callerMem]
  refine ⟨fun t hn a => stepInst_writes_inside hok hout hcap hn a, fun m t hprov hagree hn => ⟨fun hdone => ?_, ?_⟩⟩
  · exact (hstep m).trans (stepInst_reads_inside hok hin hlen hagree hn hdone)
  · intro n h hp hh hl
    obtain ⟨v, hv, hn'⟩ := stepInst_output_independent hok hout (hprov _) hn hp hh hl
    refine ⟨m.write (outBase + n) v, (hstep m).trans hn', fun a => ?_⟩
    rw [Memory.read_write]
    split
    · rename_i hat
      rw [hat, hv]
    · rfl

end Sys2Proof.Machine
end

section
/-! PROOFS. The request header (spec/30_encoding.md R90, R91, R101): which headers decode to an instruction, and to which. -/

namespace Sys2Proof.Machine

/-! ### The decoder -/

/-- A header of three words decodes to an instruction exactly when they are its selector and its declared sizes (R90, R91). -/
theorem decode_eq_ok_iff (op inLen outCap : U32) (i : Instr) :
    decode [op, inLen, outCap] = .ok i ↔ op = i.op ∧ inLen.toNat = i.inLen ∧ outCap.toNat = i.outCap := by
  constructor
  · unfold decode
    dsimp only
    split_ifs with hread hwrite hquery
    · rintro ⟨⟩
      exact ⟨hread, rfl, rfl⟩
    · rintro ⟨⟩
      exact ⟨hwrite, rfl, rfl⟩
    · rintro ⟨⟩
      exact ⟨hquery, rfl, rfl⟩
    · exact nofun
  · rintro ⟨rfl, hin, hout⟩
    cases i <;> (cases hin; cases hout; rfl)

/-- A list of words that is not three words long is no request (log 10). -/
theorem decode_of_length_ne_three {w : List U32} (hw : w.length ≠ 3) : decode w = .error .notARequest :=
  match w with
  | [] | [_] | [_, _] | _ :: _ :: _ :: _ :: _ => rfl
  | [_, _, _] => absurd rfl hw

/-- A selector outside the table is rejected with its value (R101). -/
theorem decode_of_unknown_op {op : U32} (inLen outCap : U32) (hread : op ≠ Config.opcReadMsr)
    (hwrite : op ≠ Config.opcWriteMsr) (hquery : op ≠ Config.opcQuerySegment) :
    decode [op, inLen, outCap] = .error (.unsupportedOperation op) := by
  rw [decode, if_neg hread, if_neg hwrite, if_neg hquery]

/-! ### The encoder -/

/-- A word has the value `n` exactly when `n` fits a declared size and the word is its field (R90). -/
theorem toNat_eq_iff_sizeFits (x : U32) (n : Nat) : x.toNat = n ↔ sizeFits n = true ∧ x = BitVec.ofNat 32 n := by
  constructor
  · rintro rfl
    exact ⟨Nat.blt_eq.mpr x.isLt, by simp⟩
  · rintro ⟨hn, rfl⟩
    exact toNat_ofNat_of_fits hn

/-- Three words are the encoding of a well-formed instruction exactly when they have the values of its fields (R90). -/
theorem wf_and_eq_encode_iff (op inLen outCap : U32) (i : Instr) :
    i.wf = true ∧ [op, inLen, outCap] = encode i ↔
      op = i.op ∧ inLen.toNat = i.inLen ∧ outCap.toNat = i.outCap := by
  simp only [Instr.wf, encode, Bool.and_eq_true, List.cons.injEq, and_true, toNat_eq_iff_sizeFits]
  tauto

/-! ### The statements -/

/-- Settles O3: on three words both sides say that the words have the values of the instruction's fields; no other list of
words decodes, and none is an encoding. -/
theorem decodeExactlyInvertsEncode : Obligations.DecodeExactlyInvertsEncode := by
  unfold Obligations.DecodeExactlyInvertsEncode
  intro w i
  by_cases hw : w.length = 3
  · obtain ⟨op, inLen, outCap, rfl⟩ := List.length_eq_three.mp hw
    exact (decode_eq_ok_iff op inLen outCap i).trans (wf_and_eq_encode_iff op inLen outCap i).symm
  · have hne : w ≠ encode i := fun he => hw (congrArg List.length he)
    simp [decode_of_length_ne_three hw, hne]

/-- Settles O1: the three words are the fields of the instruction named. -/
theorem threeSelectorsDecode : Obligations.ThreeSelectorsDecode := by
  unfold Obligations.ThreeSelectorsDecode
  exact fun inLen outCap => ⟨(decode_eq_ok_iff _ _ _ _).mpr ⟨rfl, rfl, rfl⟩, (decode_eq_ok_iff _ _ _ _).mpr ⟨rfl, rfl, rfl⟩,
    (decode_eq_ok_iff _ _ _ _).mpr ⟨rfl, rfl, rfl⟩⟩

/-- Settles O2: a selector outside the table, and a list of words of another length. -/
theorem otherSelectorsAreRejected : Obligations.OtherSelectorsAreRejected := by
  unfold Obligations.OtherSelectorsAreRejected
  exact ⟨fun _ inLen outCap hread hwrite hquery => decode_of_unknown_op inLen outCap hread hwrite hquery,
    fun _ hw => decode_of_length_ne_three hw⟩

end Sys2Proof.Machine
end

section
/-! PROOFS. The output layouts (spec/30_encoding.md R95, R97) and the step that puts out one byte of a result
(spec/42_dispatcher.md R190). -/

namespace Sys2Proof.Machine

/-! ### The step that puts out a byte -/

/-- With a result byte still to write, an instruction puts it out (R190). -/
theorem exec_of_output {i : Instr} {n : Nat} {s : State} (hp : s.inst.phase = .executed n)
    (hl : n < (instrHandler i).outSize) : exec i s = outputByte (instrHandler i) n s := by
  rw [exec_eq_serve, serve_of_output _ _ _ hp hl]

/-- A byte of the output that the host does not provide is refused by its address (R294; log 4). -/
theorem outputByte_of_missing {h : Handler} {n base : Nat} {s : State} {image : List Byte}
    (hb : s.inst.outBuf = some base) (himage : ∀ k, resultImage h s.inst k = k image)
    (hr : s.callerMem.read (base + n) = none) : outputByte h n s = .refused (.bufferNotProvided (base + n)) := by
  rw [outputByte, hb, readLatch_some, himage, hr]

/-- The step of an instruction that puts out byte `n` of its result image: the byte goes to `out[n]` and nothing else
changes but the offset reached (R62, R190); where the host does not provide it, the step is refused (log 4). -/
theorem exec_puts_out_byte (i : Instr) {n base : Nat} {s : State} {image : List Byte} {byte : Byte}
    (hp : s.inst.phase = .executed n) (hl : n < (instrHandler i).outSize) (hb : s.inst.outBuf = some base)
    (himage : ∀ k, resultImage (instrHandler i) s.inst k = k image) (hbyte : image[n]? = some byte) :
    ((s.callerMem.read (base + n)).isSome = true →
      ∃ t, exec i s = .next t ∧
        (∀ a, t.callerMem.read a = if a = base + n then some byte else s.callerMem.read a) ∧
        t = { s with callerMem := t.callerMem, inst := { s.inst with phase := .executed (n + 1) } }) ∧
    (s.callerMem.read (base + n) = none → exec i s = .refused (.bufferNotProvided (base + n))) := by
  rw [exec_of_output hp hl]
  refine ⟨fun hr => ?provided, outputByte_of_missing hb himage⟩
  have hget : image.getD n 0#8 = byte := by rw [List.getD_eq_getElem?_getD, hbyte, Option.getD_some]
  refine ⟨_, (outputByte_eq_next_iff _ n s _).mpr ⟨base, image, hb, himage, hr, rfl⟩, fun a => ?_, rfl⟩
  exact hget ▸ Memory.read_write s.callerMem (base + n) a (image.getD n 0#8)

/-! ### READ_MSR -/

/-- The bytes PUT32 writes, by their number (R10). -/
theorem put32_getElem? (v : U32) {n : Nat} (hn : n < 4) : (put32 v)[n]? = some (v.extractLsb' (8 * n) 8) := by
  interval_cases n <;> rfl

/-- Byte `n` of the READ_MSR output is byte `n` of `high : low` (R95, R99). -/
theorem readMsrImage_getElem? (lo hi : U32) {n : Nat} (hn : n < 8) :
    (readMsrImage lo hi)[n]? = some ((hi ++ lo : BitVec (32 + 32)).extractLsb' (8 * n) 8) := by
  have hlen : (put32 lo).length = 4 := rfl
  obtain hlow | hhigh := Nat.lt_or_ge n 4
  · rw [readMsrImage, List.getElem?_append_left (by omega), put32_getElem? lo hlow,
      BitVec.extractLsb'_append_eq_of_add_le (by omega)]
  · have hbit : 8 * n - 32 = 8 * (n - 4) := by omega
    rw [readMsrImage, List.getElem?_append_right (by omega), hlen, put32_getElem? hi (by omega),
      BitVec.extractLsb'_append_eq_of_le (by omega), hbit]

/-- Settles O13: the byte put out is the image's, and byte `n` of the image is byte `n` of the MSR value. -/
theorem readMsrWritesItsResult : Obligations.ReadMsrWritesItsResult := by
  unfold Obligations.ReadMsrWritesItsResult
  intro s inLen outCap n base lo hi hp hn hb hlo hhi
  have himage (k : List Byte → Out) : resultImage .readMsr s.inst k = k (readMsrImage lo hi) := by
    rw [resultImage, hlo, hhi, readLatch_some, readLatch_some]
  exact exec_puts_out_byte (.readMsr inLen outCap) hp hn hb himage (readMsrImage_getElem? lo hi hn)

/-! ### QUERY_SEGMENT -/

/-- What PUT64 writes before other bytes, eight bytes read little-endian give back (R10). -/
theorem le64_put64_append (v : U64) (after : List Byte) : le64 (put64 v ++ after) = v := by
  have low : le32 (put64 v ++ after) 0 = v.extractLsb' 0 32 :=
    le32_append_put32_append [] _ (put32 (v.extractLsb' 32 32) ++ after)
  have high : le32 (put64 v ++ after) 4 = v.extractLsb' 32 32 :=
    le32_append_put32_append (put32 (v.extractLsb' 0 32)) _ after
  rw [le64, low, high]
  exact msrValue_msrLow_msrHigh v

/-- Settles O24: the image is its fields put down one behind the other, so each is read back at the sum of the sizes before
it; the fields of one byte stand at their offsets by definition. -/
theorem querySegmentOutputLayout : Obligations.QuerySegmentOutputLayout := by
  unfold Obligations.QuerySegmentOutputLayout
  intro sel r v rawLo rawHi out
  have limit : le32 out 4 = v.limit.setWidth 32 :=
    le32_append_put32_append (put16 sel ++ [r.setWidth 8, v.wide.setWidth 8]) (v.limit.setWidth 32) (out.drop 8)
  have base : le64 (out.drop 8) = v.base := le64_put64_append v.base (out.drop 16)
  have lo : le64 (out.drop 24) = rawLo := le64_put64_append rawLo (out.drop 32)
  have hi : le64 (out.drop 32) = rawHi := le64_put64_append rawHi []
  exact ⟨rfl, le16_put16 sel, rfl, rfl, limit, base, rfl, rfl, rfl, rfl, rfl, rfl, rfl, rfl, lo, hi⟩

end Sys2Proof.Machine
end

section
/-! PROOFS. The primitives as the handlers run them (spec/40_primitives.md R120, R121, R124): the whole next state of the step
in which RDMSR, WRMSR or a byte of a MemRead runs, where it completes and where it faults. -/

namespace Sys2Proof.Machine

/-! ### MSRs -/

/-- An address is invalid exactly where no MSR stands at it (R37). -/
theorem Lp.msrValid_eq_false_iff (l : Lp) (a : U32) : l.msrValid a = false ↔ l.msr a = none := by
  simp [Lp.msrValid]

/-- WRMSR is accepted exactly where the address is valid and the write is not one the processor rejects (R121). -/
theorem Lp.write_accepted_iff (l : Lp) (a : U32) (v : U64) :
    l.msrValid a = true ∧ l.msrWriteOk a v = true ↔ l.msrValid a = true ∧ (a, v) ∉ l.rejects := by
  simp [Lp.msrWriteOk]

/-- After a write of a valid MSR on the processor drawn, that MSR reads as the value written and every other one, of every
processor, as before (R37, R121). -/
theorem State.msr_setMsr (s : State) (a b : U32) (v : U64) {p : Nat} (hv : s.portLp.msrValid a = true)
    (hp : p < s.env.numLp) :
    ((s.env.setLp s.nextLp (s.portLp.setMsr a v)).lp p).msr b =
      if p = s.nextLp ∧ b = a then some v else (s.env.lp p).msr b := by
  rw [Env.lp_setLp _ _ _ _ hp]
  by_cases hdrawn : p = s.nextLp
  · subst hdrawn
    rw [if_pos rfl, Lp.msr_setMsr, hv]
    simp [State.portLp]
  · simp [hdrawn]

/-- A write of an MSR keeps the rejected writes of every processor (R291). -/
theorem State.rejects_setMsr (s : State) (a : U32) (v : U64) {p : Nat} (hp : p < s.env.numLp) :
    ((s.env.setLp s.nextLp (s.portLp.setMsr a v)).lp p).rejects = (s.env.lp p).rejects := by
  rw [Env.lp_setLp _ _ _ _ hp]
  split
  · rename_i hdrawn
    rw [Lp.setMsr_rejects, State.portLp, hdrawn]
  · rfl

/-! ### From the instruction to its execution rule -/

/-- In VALIDATED an instruction takes the step of its handler that comes next (R187, R188). -/
theorem exec_of_validated {s : State} {w : ExecStep} (i : Instr) (hp : s.inst.phase = .validated w) :
    exec i s = executeStep (instrHandler i) (instrHandler i).execution w s := by
  rw [exec_eq_serve]
  unfold serve
  rw [hp]

section
variable {s : State} (inLen outCap : Nat)

/-- READ_MSR has no operand check (R187): its first step is its execution rule. -/
theorem exec_readMsr_of_start (hp : s.inst.phase = .validated .start) :
    exec (.readMsr inLen outCap) s = executeReadMsr s :=
  exec_of_validated _ hp

/-- WRITE_MSR has no operand check (R187): its first step is its execution rule. -/
theorem exec_writeMsr_of_start (hp : s.inst.phase = .validated .start) :
    exec (.writeMsr inLen outCap) s = executeWriteMsr s :=
  exec_of_validated _ hp

/-- In the first MemRead QUERY_SEGMENT reads a byte of it (R237). -/
theorem exec_querySegment_of_readLo {glim : U16} {off : U64} {job : MemJob}
    (hp : s.inst.phase = .validated (.readLo glim off job)) :
    exec (.querySegment inLen outCap) s = .next (queryReadLo glim off job s) :=
  exec_of_validated _ hp

/-- In the second MemRead QUERY_SEGMENT reads a byte of it (R238). -/
theorem exec_querySegment_of_readHi {rawLo : U64} {job : MemJob}
    (hp : s.inst.phase = .validated (.readHi rawLo job)) :
    exec (.querySegment inLen outCap) s = .next (queryReadHi rawLo job s) :=
  exec_of_validated _ hp

end

/-! ### READ_MSR -/

section
variable {s : State} {a : U32}

/-- Where RDMSR completes, the halves of the value are latched (R120, R210). -/
theorem executeReadMsr_of_valid {v : U64} (ha : s.inst.opMsrAddr = some a) (hv : s.portLp.msr a = some v) :
    executeReadMsr s = .next (State.executedAll { s.drawn with
      inst := { s.inst with resLo := some (msrLow v), resHi := some (msrHigh v) } }) := by
  have hread : primRdmsr a s = .ok (msrLow v, msrHigh v) := (primRdmsr_eq_ok _ _ _ _).mpr ⟨v, hv, rfl, rfl⟩
  rw [executeReadMsr, ha, readLatch_some, hread]
  rfl

/-- Where RDMSR faults, the record names it (R120, R264). -/
theorem executeReadMsr_of_invalid (ha : s.inst.opMsrAddr = some a) (hv : s.portLp.msr a = none) :
    executeReadMsr s = .next (s.drawn.raise (.rdmsr a s.nextLp)) := by
  rw [executeReadMsr, ha, readLatch_some, (primRdmsr_eq_error _ _ _).mpr ⟨hv, rfl⟩]

end

/-- Settles O11: RDMSR completes on a valid address, and the processor drawn is below NUM_LP. -/
theorem readMsrExecutes : Obligations.ReadMsrExecutes := by
  unfold Obligations.ReadMsrExecutes
  intro s inLen outCap a v hp ha hv
  refine ⟨s.nextLp_lt, ?_⟩
  rw [exec_readMsr_of_start _ _ hp, executeReadMsr_of_valid ha hv]
  rfl

/-- Settles O12: RDMSR faults on an invalid address. -/
theorem readMsrInvalidFaults : Obligations.ReadMsrInvalidFaults := by
  unfold Obligations.ReadMsrInvalidFaults
  intro s inLen outCap a hp ha hv
  rw [exec_readMsr_of_start _ _ hp, executeReadMsr_of_invalid ha ((Lp.msrValid_eq_false_iff _ _).mp hv)]
  rfl

/-! ### WRITE_MSR -/

section
variable {s : State} {a lo hi : U32}

/-- Where WRMSR is accepted, it writes the value that the halves make up (R121, R212). -/
theorem executeWriteMsr_of_accepted (ha : s.inst.opMsrAddr = some a) (hlo : s.inst.opLo = some lo)
    (hhi : s.inst.opHi = some hi) (hv : s.portLp.msrValid a = true) (hr : (a, msrValue lo hi) ∉ s.portLp.rejects) :
    executeWriteMsr s = .next (State.executedAll { s.drawn with
      env := s.env.setLp s.nextLp (s.portLp.setMsr a (msrValue lo hi)) }) := by
  rw [executeWriteMsr, ha, hlo, hhi]
  simp only [readLatch_some, (primWrmsr_eq_ok _ _ _ _ _).mpr ⟨(Lp.write_accepted_iff _ _ _).mpr ⟨hv, hr⟩, rfl⟩]

/-- Where WRMSR is not accepted, it faults and the record names it (R121, R264). -/
theorem executeWriteMsr_of_rejected (ha : s.inst.opMsrAddr = some a) (hlo : s.inst.opLo = some lo)
    (hhi : s.inst.opHi = some hi) (hr : ¬ (s.portLp.msrValid a = true ∧ (a, msrValue lo hi) ∉ s.portLp.rejects)) :
    executeWriteMsr s = .next (s.drawn.raise (.wrmsr a s.nextLp)) := by
  rw [executeWriteMsr, ha, hlo, hhi]
  simp only [readLatch_some, (primWrmsr_eq_error _ _ _ _ _).mpr ⟨mt (Lp.write_accepted_iff _ _ _).mp hr, rfl⟩]

end

/-- Settles O14: the environment after the step is the old one with one MSR of the processor drawn written. -/
theorem writeMsrExecutes : Obligations.WriteMsrExecutes := by
  unfold Obligations.WriteMsrExecutes
  intro s inLen outCap a lo hi hp ha hlo hhi hv hr
  refine ⟨_, (exec_writeMsr_of_start _ _ hp).trans (executeWriteMsr_of_accepted ha hlo hhi hv hr), rfl,
    Env.numLp_setLp _ _ _, fun p hlt => ?_⟩
  obtain ⟨hseg, hgdtr, hmem, -⟩ := s.setMsr_frame a (msrValue lo hi) p hlt
  exact ⟨fun b => s.msr_setMsr a b (msrValue lo hi) hv hlt, hseg, hgdtr, s.rejects_setMsr a (msrValue lo hi) hlt, hmem⟩

/-- Settles O15: an invalid address and a rejected value each keep WRMSR from being accepted. -/
theorem writeMsrRejectedFaults : Obligations.WriteMsrRejectedFaults := by
  unfold Obligations.WriteMsrRejectedFaults
  intro s inLen outCap a lo hi hp ha hlo hhi hr
  have hrejected : ¬ (s.portLp.msrValid a = true ∧ (a, msrValue lo hi) ∉ s.portLp.rejects) := by
    rintro ⟨hvalid, haccepted⟩
    obtain hinvalid | hmem := hr
    · exact Bool.false_ne_true (hinvalid.symm.trans hvalid)
    · exact haccepted hmem
  rw [exec_writeMsr_of_start _ _ hp, executeWriteMsr_of_rejected ha hlo hhi hrejected]
  rfl

/-! ### A byte of a MemRead -/

/-- The step of a MemRead's byte uses up a draw where it is the first byte, and changes nothing else but where the instance
stands (R40; log 6). -/
theorem State.drawnFor_toPhase (s : State) (job : MemJob) (ph : Phase) :
    (s.drawnFor job).toPhase ph = { s with
      draws := if job.lp.isNone then s.draws.tail else s.draws
      drawCount := if job.lp.isNone then s.drawCount + 1 else s.drawCount
      inst := { s.inst with phase := ph } } := by
  unfold State.drawnFor
  split_ifs <;> rfl

section
variable {s : State} {job : MemJob}

/-- A byte that faults ends the first MemRead (R124, R262). -/
theorem queryReadLo_of_error {r : FaultRecord} (glim : U16) (off : U64) (hr : memReadByte job s = .error r) :
    queryReadLo glim off job s = (s.drawnFor job).toPhase (.faulted r) := by
  rw [queryReadLo, hr]
  rfl

/-- A byte that faults ends the second MemRead (R124, R262). -/
theorem queryReadHi_of_error {r : FaultRecord} (rawLo : U64) (hr : memReadByte job s = .error r) :
    queryReadHi rawLo job s = (s.drawnFor job).toPhase (.faulted r) := by
  rw [queryReadHi, hr]
  rfl

/-- The first MemRead goes on after a byte that is not its eighth (R124, R237). -/
theorem queryReadLo_of_ok {job' : MemJob} (glim : U16) (off : U64) (hr : memReadByte job s = .ok job')
    (hl : job'.got.length < 8) :
    queryReadLo glim off job s = (s.drawnFor job).toPhase (.validated (.readLo glim off job')) := by
  rw [queryReadLo, hr]
  exact if_pos hl

/-- The second MemRead goes on after a byte that is not its eighth (R124, R238). -/
theorem queryReadHi_of_ok {job' : MemJob} (rawLo : U64) (hr : memReadByte job s = .ok job')
    (hl : job'.got.length < 8) :
    queryReadHi rawLo job s = (s.drawnFor job).toPhase (.validated (.readHi rawLo job')) := by
  rw [queryReadHi, hr]
  exact if_pos hl

end

/-- Settles O20: the byte faults or is added, in the half that the phase names. -/
theorem descriptorByteIsRead : Obligations.DescriptorByteIsRead := by
  unfold Obligations.DescriptorByteIsRead
  intro s inLen outCap job glim off rawLo _ hp p read used
  have hused (ph : Phase) : (s.drawnFor job).toPhase ph = used ph := s.drawnFor_toPhase job ph
  refine ⟨fun hnone => ?faults, fun b hsome hl => ?added⟩
  case faults =>
    have herror : memReadByte job s = .error (.memread job.addr p) := (memReadByte_eq_error _ _ _).mpr ⟨hnone, rfl⟩
    obtain hlo | hhi := hp
    · rw [exec_querySegment_of_readLo _ _ hlo, queryReadLo_of_error glim off herror, hused]
    · rw [exec_querySegment_of_readHi _ _ hhi, queryReadHi_of_error rawLo herror, hused]
  case added =>
    intro more
    have hok : memReadByte job s = .ok more := (memReadByte_eq_ok _ _ _).mpr ⟨b, hsome, rfl⟩
    have hmore : more.got.length < 8 := by
      rw [List.length_append, List.length_singleton]
      omega
    refine ⟨fun hlo => ?_, fun hhi => ?_⟩
    · rw [exec_querySegment_of_readLo _ _ hlo, queryReadLo_of_ok glim off hok hmore, hused]
    · rw [exec_querySegment_of_readHi _ _ hhi, queryReadHi_of_ok rawLo hok hmore, hused]

end Sys2Proof.Machine
end

section
/-! PROOFS. The Descriptor Decoder and the Selector Decoder (spec/41_descriptor_decoder.md): a field that is put at some bits
is found there again, and the fields of a word put one behind the other are the word. -/

namespace Sys2Proof.Machine

/-! ### Bits of a field -/

/-- Bit `k` of a field that starts at bit `start` is bit `k + start` of the word. -/
theorem getLsbD_field {w n k : Nat} (x : BitVec w) (start : Nat) (hk : k < n) :
    (x.extractLsb' start n).getLsbD k = x.getLsbD (k + start) := by
  simp [hk, Nat.add_comm]

/-- Where a field of one word is a field of another, so are its bits. -/
theorem getLsbD_of_field_eq {w u s t n k j : Nat} {x : BitVec w} {y : BitVec u}
    (h : x.extractLsb' s n = y.extractLsb' t n) (hlo : s ≤ k) (hhi : k < s + n) (hj : j + s = k + t) :
    x.getLsbD k = y.getLsbD j := by
  obtain ⟨i, rfl⟩ := Nat.exists_eq_add_of_le' hlo
  obtain rfl : j = i + t := by omega
  have hi : i < n := by omega
  rw [← getLsbD_field x s hi, h, getLsbD_field y t hi]

/-- One field put above another, as a number. -/
theorem toNat_append_eq_add {m n : Nat} (x : BitVec m) (y : BitVec n) :
    (x ++ y).toNat = x.toNat * 2 ^ n + y.toNat := by
  rw [BitVec.toNat_append, ← Nat.shiftLeft_add_eq_or_of_lt y.isLt, Nat.shiftLeft_eq]

/-- Four bits are put one behind the other exactly where each is found at its place. -/
theorem eq_four_bits_iff (t : BitVec 4) (b x y z : BitVec 1) :
    t = b ++ x ++ y ++ z ↔
      t.extractLsb' 3 1 = b ∧ t.extractLsb' 2 1 = x ∧ t.extractLsb' 1 1 = y ∧ t.extractLsb' 0 1 = z := by
  constructor
  case mp =>
    rintro rfl
    refine ⟨?top, ?_, ?_, ?_⟩
    case top =>
      repeat rw [BitVec.extractLsb'_append_eq_of_le (by omega)]
      exact BitVec.extractLsb'_eq_self
    all_goals
      repeat rw [BitVec.extractLsb'_append_eq_of_le (by omega)]
      exact BitVec.extractLsb'_append_eq_right
  case mpr =>
    rintro ⟨rfl, rfl, rfl, rfl⟩
    repeat rw [BitVec.extractLsb'_append_extractLsb'_eq_extractLsb' (by omega)]
    exact BitVec.extractLsb'_eq_self.symm

/-! ### The fields of a decoded entry -/

section
variable (rawLo rawHi : U64) (wide : BitVec 1)

/-- Limit bits 15:0 of a decoded entry (R142). -/
theorem decodeDescriptor_limit_low :
    (decodeDescriptor rawLo rawHi wide).limit.extractLsb' 0 16 = rawLo.extractLsb' 0 16 :=
  BitVec.extractLsb'_append_eq_right

/-- Limit bits 19:16 of a decoded entry (R142). -/
theorem decodeDescriptor_limit_high :
    (decodeDescriptor rawLo rawHi wide).limit.extractLsb' 16 4 = rawLo.extractLsb' 48 4 :=
  BitVec.extractLsb'_append_eq_left

/-- Base bits 63:32 of a decoded entry (R144). -/
theorem decodeDescriptor_base_high :
    (decodeDescriptor rawLo rawHi wide).base.extractLsb' 32 32 =
      if wide = 1#1 then rawHi.extractLsb' 0 32 else 0#32 :=
  BitVec.extractLsb'_append_eq_left

/-- The three fields that base bits 31:0 of a decoded entry are put together from (R143). -/
theorem decodeDescriptor_base_fields :
    (decodeDescriptor rawLo rawHi wide).base.extractLsb' 0 16 = rawLo.extractLsb' 16 16 ∧
    (decodeDescriptor rawLo rawHi wide).base.extractLsb' 16 8 = rawLo.extractLsb' 32 8 ∧
    (decodeDescriptor rawLo rawHi wide).base.extractLsb' 24 8 = rawLo.extractLsb' 56 8 := by
  unfold decodeDescriptor
  refine ⟨?_, ?_, ?top⟩
  all_goals rw [BitVec.extractLsb'_append_eq_of_add_le (by omega)]
  case top =>
    repeat rw [BitVec.extractLsb'_append_eq_of_le (by omega)]
    exact BitVec.extractLsb'_eq_self
  all_goals
    repeat rw [BitVec.extractLsb'_append_eq_of_le (by omega)]
    exact BitVec.extractLsb'_append_eq_right

/-- `Encode` puts the fields of a decoded entry back where they were: `raw_lo` is returned whole (R162). -/
theorem encodeLo_decodeDescriptor : encodeLo (decodeDescriptor rawLo rawHi wide) = rawLo := by
  obtain ⟨base0, base16, base24⟩ := decodeDescriptor_base_fields rawLo rawHi wide
  rw [encodeLo, decodeDescriptor_limit_low, decodeDescriptor_limit_high, base0, base16, base24]
  dsimp only [decodeDescriptor]
  repeat rw [BitVec.extractLsb'_append_extractLsb'_eq_extractLsb' (by omega)]
  exact BitVec.extractLsb'_eq_self

/-- Of `raw_hi`, `Encode` of a decoded entry returns the low half if the entry is wide, and 0 if it is narrow (R162). -/
theorem encodeHi_decodeDescriptor :
    encodeHi (decodeDescriptor rawLo rawHi wide) =
      if wide = 1#1 then 0#32 ++ rawHi.extractLsb' 0 32 else 0#64 := by
  rw [encodeHi, decodeDescriptor_base_high]
  change (if wide = 1#1 then _ else _) = _
  split_ifs <;> rfl

end

/-! ### The fields of an encoded view -/

/-- The entry bits at which `raw_lo` of an encoded view holds each field (R160). -/
theorem encodeLo_fields (v : View) :
    (encodeLo v).extractLsb' 0 16 = v.limit.extractLsb' 0 16 ∧
    (encodeLo v).extractLsb' 16 16 = v.base.extractLsb' 0 16 ∧
    (encodeLo v).extractLsb' 32 8 = v.base.extractLsb' 16 8 ∧
    (encodeLo v).extractLsb' 40 4 = v.typ ∧
    (encodeLo v).extractLsb' 44 1 = v.s ∧
    (encodeLo v).extractLsb' 45 2 = v.dpl ∧
    (encodeLo v).extractLsb' 47 1 = v.p ∧
    (encodeLo v).extractLsb' 48 4 = v.limit.extractLsb' 16 4 ∧
    (encodeLo v).extractLsb' 52 1 = v.avl ∧
    (encodeLo v).extractLsb' 53 1 = v.l ∧
    (encodeLo v).extractLsb' 54 1 = v.db ∧
    (encodeLo v).extractLsb' 55 1 = v.g ∧
    (encodeLo v).extractLsb' 56 8 = v.base.extractLsb' 24 8 := by
  unfold encodeLo
  refine ⟨?_, ?_, ?_, ?_, ?_, ?_, ?_, ?_, ?_, ?_, ?_, ?_, ?top⟩
  case top =>
    repeat rw [BitVec.extractLsb'_append_eq_of_le (by omega)]
    exact BitVec.extractLsb'_eq_self
  all_goals
    repeat rw [BitVec.extractLsb'_append_eq_of_le (by omega)]
    exact BitVec.extractLsb'_append_eq_right

/-- The upper base that `Decode` takes from `raw_hi` of an encoded view in Encode's domain is the view's (R160). -/
theorem encodeHi_low {v : View} (hv : v.encodable = true) :
    (if v.wide = 1#1 then (encodeHi v).extractLsb' 0 32 else 0#32) = v.base.extractLsb' 32 32 := by
  split_ifs with hwide
  case pos =>
    rw [encodeHi, if_pos hwide]
    exact BitVec.extractLsb'_append_eq_right
  case neg =>
    have hzero : v.base.extractLsb' 32 32 = 0#32 := by simpa [View.encodable, hwide] using hv
    exact hzero.symm

/-- A limit is put together from its two fields. -/
theorem limit_append (x : BitVec 20) : x.extractLsb' 16 4 ++ x.extractLsb' 0 16 = x :=
  BitVec.extractLsb'_append_extractLsb'

/-- A base is put together from its upper half and its three lower fields. -/
theorem base_append (x : U64) :
    x.extractLsb' 32 32 ++ (x.extractLsb' 24 8 ++ x.extractLsb' 16 8 ++ x.extractLsb' 0 16) = x := by
  repeat rw [BitVec.extractLsb'_append_extractLsb'_eq_extractLsb' (by omega)]
  exact BitVec.extractLsb'_eq_self

/-! ### Decode and Encode -/

/-- Settles O27: each field is decoded from the entry bits at which it was encoded. -/
theorem decodeOfEncodedView : Obligations.DecodeOfEncodedView := by
  unfold Obligations.DecodeOfEncodedView
  intro v hv
  obtain ⟨limit0, base0, base16, typ, s, dpl, p, limit16, avl, l, db, g, base24⟩ := encodeLo_fields v
  rw [decodeDescriptor, encodeHi_low hv, limit0, limit16, limit_append, base0, base16, base24, base_append, typ, s, dpl, p,
    avl, l, db, g]

/-- Settles O28: `raw_lo` is put together again from all its fields, `raw_hi` from the upper base alone. -/
theorem encodeOfDecodedEntry : Obligations.EncodeOfDecodedEntry := by
  unfold Obligations.EncodeOfDecodedEntry
  intro rawLo rawHi wide
  refine ⟨encodeLo_decodeDescriptor rawLo rawHi wide, ?_⟩
  rw [encodeHi_decodeDescriptor]
  split_ifs
  · rw [toNat_append_eq_add]
    simp
  · rfl

/-- Settles O29: `raw_hi` is read in the upper base alone, and `raw_lo` is the encoding of the view. -/
theorem ignoredEntryBits : Obligations.IgnoredEntryBits := by
  unfold Obligations.IgnoredEntryBits
  intro rawLo rawLo' rawHi rawHi'
  refine ⟨rfl, fun hmod => ?wide, fun wide hview => ?same⟩
  case wide =>
    have hlow : rawHi.extractLsb' 0 32 = rawHi'.extractLsb' 0 32 := BitVec.eq_of_toNat_eq hmod
    rw [decodeDescriptor, decodeDescriptor, hlow]
  case same =>
    calc rawLo = encodeLo (decodeDescriptor rawLo rawHi wide) := (encodeLo_decodeDescriptor rawLo rawHi wide).symm
      _ = encodeLo (decodeDescriptor rawLo' rawHi' wide) := congrArg encodeLo hview
      _ = rawLo' := encodeLo_decodeDescriptor rawLo' rawHi' wide

/-- Settles O25: the two fields of the limit, as numbers. -/
theorem limitIsReassembled : Obligations.LimitIsReassembled := by
  unfold Obligations.LimitIsReassembled
  intro rawLo rawHi wide
  have hlow : (rawLo.extractLsb' 0 16).toNat = rawLo.toNat % 2 ^ 16 := BitVec.extractLsb'_toNat 0 16 rawLo
  have hhigh : (rawLo.extractLsb' 48 4).toNat = rawLo.toNat / 2 ^ 48 % 2 ^ 4 := by
    rw [BitVec.extractLsb'_toNat, Nat.shiftRight_eq_div_pow]
  rw [decodeDescriptor, toNat_append_eq_add, hlow, hhigh, Nat.mul_comm, Nat.add_comm]

/-- Settles O26: each bit of a field is the bit of the entry as far above the field's first bit; a bit of the base is looked
for in the part that holds it. -/
theorem fieldsAreDecoded : Obligations.FieldsAreDecoded := by
  unfold Obligations.FieldsAreDecoded
  intro rawLo rawHi wide v
  obtain ⟨base0, base16, base24⟩ := decodeDescriptor_base_fields rawLo rawHi wide
  refine ⟨fun k hk => ?base0, fun k hlo hk => ?base24, fun k hlo hk => ?base32, fun k hk => getLsbD_field rawLo 40 hk,
    getLsbD_field rawLo 44 one_pos, fun k hk => getLsbD_field rawLo 45 hk, getLsbD_field rawLo 47 one_pos,
    getLsbD_field rawLo 52 one_pos, getLsbD_field rawLo 53 one_pos, getLsbD_field rawLo 54 one_pos,
    getLsbD_field rawLo 55 one_pos, rfl⟩
  case base0 =>
    obtain hlow | hhigh := Nat.lt_or_ge k 16
    · exact getLsbD_of_field_eq base0 k.zero_le (by omega) rfl
    · exact getLsbD_of_field_eq base16 hhigh hk (by omega)
  case base24 => exact getLsbD_of_field_eq base24 hlo hk (by omega)
  case base32 =>
    have hbit : v.base.getLsbD k = (if wide = 1#1 then rawHi.extractLsb' 0 32 else 0#32).getLsbD (k - 32) :=
      getLsbD_of_field_eq ((decodeDescriptor_base_high rawLo rawHi wide).trans BitVec.extractLsb'_eq_self.symm) hlo hk
        (by omega)
    rw [hbit]
    split_ifs with hwide
    · rw [getLsbD_field rawHi 0 (by omega), decide_eq_true hwide, Bool.true_and, Nat.add_zero]
    · rw [BitVec.getLsbD_zero, decide_eq_false hwide, Bool.false_and]

/-! ### The selector and the type -/

/-- Settles O30: the fields are the remainders and quotients of the selector. -/
theorem selectorFields : Obligations.SelectorFields := by
  unfold Obligations.SelectorFields
  intro sel
  refine ⟨(selDecode sel).index.isLt, BitVec.eq_zero_or_eq_one _, ?_⟩
  have hsel := sel.isLt
  simp only [selDecode, BitVec.extractLsb'_toNat, Nat.shiftRight_eq_div_pow]
  omega

/-- `type` has no reading exactly where the descriptor is not present or is a system descriptor (R155, R158). -/
theorem View.typeReading_eq_none_iff (v : View) : v.typeReading = none ↔ v.p = 0#1 ∨ v.s = 0#1 := by
  have hone (b : BitVec 1) : b = 0#1 ↔ b ≠ 1#1 :=
    ⟨fun h => h ▸ by decide, (BitVec.eq_zero_or_eq_one b).resolve_right⟩
  rw [hone, hone, ← not_and_or, View.typeReading]
  split_ifs with hps <;> simp [hps]

/-- `type` reads as data exactly where its bit 3 is 0, with its lower bits as the properties (R157). -/
theorem View.typeReading_eq_data_iff (v : View) (e w a : BitVec 1) :
    v.typeReading = some (.data e w a) ↔ v.p = 1#1 ∧ v.s = 1#1 ∧ v.typ = 0#1 ++ e ++ w ++ a := by
  rw [eq_four_bits_iff, View.typeReading, ← and_assoc]
  split_ifs with hps hcode
  · simp [hcode]
  · have hdata : v.typ.extractLsb' 3 1 = 0#1 := (BitVec.eq_zero_or_eq_one _).resolve_right hcode
    simp [hps, hdata]
  · simp [hps]

/-- `type` reads as code exactly where its bit 3 is 1, with its lower bits as the properties (R157). -/
theorem View.typeReading_eq_code_iff (v : View) (c r a : BitVec 1) :
    v.typeReading = some (.code c r a) ↔ v.p = 1#1 ∧ v.s = 1#1 ∧ v.typ = 1#1 ++ c ++ r ++ a := by
  rw [eq_four_bits_iff, View.typeReading, ← and_assoc]
  split_ifs with hps hcode
  · simp [hps, hcode]
  · simp [hcode]
  · simp [hps]

/-- Settles O31: the three outcomes of the reading. -/
theorem typeReadings : Obligations.TypeReadings := by
  unfold Obligations.TypeReadings
  exact fun v => ⟨v.typeReading_eq_none_iff, v.typeReading_eq_data_iff, v.typeReading_eq_code_iff⟩

end Sys2Proof.Machine
end

section
/-! PROOFS. The dispatcher's own steps (spec/42_dispatcher.md R184 to R190): the whole next state of the lookup, the size
gate, the operand latching, the operand check and the response. -/

namespace Sys2Proof.Machine

/-! ### The step of an instance, in focus or by a run -/

/-- With nothing pending the instance in focus takes its step (R74). -/
theorem step_of_nothing_pending {s : State} (ha : s.agenda = []) : step s = stepInst s := by
  rw [step, ha]

/-- With a run pending the instance of its thread takes its step (R74). -/
theorem step_of_run {s : State} {t : Nat} {es : List Event} (ha : s.agenda = .run t :: es) :
    step s = stepInst (State.focus { s with agenda := es } t) := by
  rw [step, ha]
  rfl

/-! ### The step in each dispatcher state -/

section
variable {s : State} {h : Handler}

theorem serve_of_lookup (inLen outCap : Nat) (execute : ExecStep → State → Out)
    (hp : s.inst.phase = .received .lookup) : serve h inLen outCap execute s = .next (s.lookupDone h) := by
  unfold serve
  rw [hp]

theorem serve_of_gate (inLen outCap : Nat) (execute : ExecStep → State → Out)
    (hp : s.inst.phase = .received .gate) : serve h inLen outCap execute s = sizeGate h inLen outCap s := by
  unfold serve
  rw [hp]

theorem serve_of_latch (inLen outCap : Nat) (execute : ExecStep → State → Out)
    (hp : s.inst.phase = .received .latch) : serve h inLen outCap execute s = latchStep h s := by
  unfold serve
  rw [hp]

/-- With every result byte written, the step is the response (R190). -/
theorem serve_of_result_written {n : Nat} (inLen outCap : Nat) (execute : ExecStep → State → Out)
    (hp : s.inst.phase = .executed n) (hl : h.outSize ≤ n) :
    serve h inLen outCap execute s = .next (s.succeed h.outSize) := by
  unfold serve
  rw [hp]
  exact if_neg (Nat.not_lt.mpr hl)

/-- In IDLE and COMPLETED a request of any handler waits for the host (R182, R191). -/
theorem serve_of_waiting (inLen outCap : Nat) (execute : ExecStep → State → Out)
    (hp : s.inst.phase = .idle ∨ s.inst.phase = .completed) : serve h inLen outCap execute s = .next s := by
  unfold serve
  obtain hp | hp := hp <;> rw [hp]

end

/-! ### Lookup -/

/-- A request before its lookup is one of the handler that the dispatch table gives for its selector (R32, R184). -/
theorem Inst.requests_of_lookup {m : Inst} {op inLen outCap : U32} (hp : m.phase = .received .lookup)
    (hop : m.reqOp = some op) (hin : m.reqInLen = some inLen) (hout : m.reqOutCap = some outCap) :
    m.Requests (Handler.ofOp op) inLen outCap :=
  ⟨hin, hout, fun _ => by rw [hop]; rfl, absurd hp⟩

theorem Inst.serving_of_received {m : Inst} {r : RecvStep} (hp : m.phase = .received r) : m.serving :=
  .inl (by rw [Inst.fsm, hp]; rfl)

section
variable {s : State} {op inLen outCap : U32}

/-- A selector of the dispatch table is looked up (R184). -/
theorem stepInst_of_known_op (hp : s.inst.phase = .received .lookup) (hop : s.inst.reqOp = some op)
    (hin : s.inst.reqInLen = some inLen) (hout : s.inst.reqOutCap = some outCap) (hh : Handler.ofOp op ≠ .hNone) :
    stepInst s = .next (s.lookupDone (Handler.ofOp op)) := by
  rw [stepInst_eq_serve (Inst.serving_of_received hp) (Inst.requests_of_lookup hp hop hin hout) hh,
    serve_of_lookup _ _ _ hp]

/-- A selector outside the dispatch table is unsupported (R184). -/
theorem stepInst_of_unknown_op (hp : s.inst.phase = .received .lookup) (hop : s.inst.reqOp = some op)
    (hin : s.inst.reqInLen = some inLen) (hout : s.inst.reqOutCap = some outCap) (hh : Handler.ofOp op = .hNone) :
    stepInst s = .next s.lookupNone :=
  stepInst_eq_lookupNone (Inst.serving_of_received hp) (hh ▸ Inst.requests_of_lookup hp hop hin hout)

end

/-- Settles O6: the row of the dispatch table that the selector names, or none. -/
theorem lookupStep : Obligations.LookupStep := by
  unfold Obligations.LookupStep
  intro s op inLen outCap ha hp hop hin hout
  rw [step_of_nothing_pending ha]
  split_ifs with hread hwrite hquery
  · subst hread
    exact stepInst_of_known_op hp hop hin hout nofun
  · subst hwrite
    exact stepInst_of_known_op hp hop hin hout nofun
  · subst hquery
    exact stepInst_of_known_op hp hop hin hout nofun
  · have hnone : Handler.ofOp op = .hNone := (if_neg hread).trans ((if_neg hwrite).trans (if_neg hquery))
    exact stepInst_of_unknown_op hp hop hin hout hnone

/-! ### Size gate -/

theorem sizesShort_eq_true_iff (h : Handler) (inLen outCap : Nat) :
    sizesShort h inLen outCap = true ↔ inLen < h.inMin ∨ outCap < h.outSize := by
  rw [sizesShort, Bool.or_eq_true, Nat.blt_eq, Nat.blt_eq]

/-- The gate turns a request away or passes it, and writes no more than that (R185). -/
theorem sizeGate_eq (h : Handler) (inLen outCap : Nat) (s : State) :
    sizeGate h inLen outCap s = .next { s with inst :=
      if inLen < h.inMin ∨ outCap < h.outSize then
        { s.inst with status := some .bufferTooSmall, bytesWritten := some 0#32, phase := .completed }
      else { s.inst with phase := .received .latch } } := by
  unfold sizeGate
  simp only [sizesShort_eq_true_iff]
  split_ifs <;> rfl

/-- At the gate an instruction takes the gate's step with its handler's sizes (R181, R185). -/
theorem exec_of_gate {s : State} (i : Instr) (hp : s.inst.phase = .received .gate) :
    exec i s = sizeGate (instrHandler i) i.inLen i.outCap s := by
  rw [exec_eq_serve, serve_of_gate _ _ _ hp]

/-- Settles O7: the gate with each handler's sizes; no capacity is below the 0 bytes of WRITE_MSR. -/
theorem sizeGateStep : Obligations.SizeGateStep := by
  unfold Obligations.SizeGateStep
  intro s inLen outCap hp tooSmall passed
  refine ⟨?read, ?write, ?query⟩
  case read => exact (exec_of_gate _ hp).trans (sizeGate_eq _ _ _ _)
  case query => exact (exec_of_gate _ hp).trans (sizeGate_eq _ _ _ _)
  case write =>
    have hshort : inLen < 12 ↔ inLen < Handler.writeMsr.inMin ∨ outCap < Handler.writeMsr.outSize :=
      (or_iff_left (Nat.not_lt_zero outCap)).symm
    simp only [hshort]
    exact (exec_of_gate _ hp).trans (sizeGate_eq _ _ _ _)

/-! ### Operand latching -/

/-- Bytes that are there one by one are read as a run. -/
theorem Memory.readBytes_of_read {m : Memory} {base n : Nat} {b : Nat → Byte}
    (hb : ∀ k, k < n → m.read (base + k) = some (b k)) : m.readBytes base n = some ((List.range n).map b) := by
  induction n generalizing base b with
  | zero => rfl
  | succ n ih =>
    have hrest : m.readBytes (base + 1) n = some ((List.range n).map fun k => b (k + 1)) :=
      ih fun k hk => by rw [Nat.add_right_comm, Nat.add_assoc, hb (k + 1) (Nat.succ_lt_succ hk)]
    refine (Memory.readBytes_succ m base n _).mpr ⟨b 0, _, hb 0 n.succ_pos, hrest, ?_⟩
    rw [List.range_succ_eq_map, List.map_cons, List.map_map]
    rfl

/-- Where the host provides its input bytes, an instruction latches its operands from them (R186). -/
theorem exec_of_latch {s : State} {base : Nat} {b : Nat → Byte} (i : Instr) (hp : s.inst.phase = .received .latch)
    (hin : s.inst.inBuf = some base)
    (hb : ∀ k, k < (instrHandler i).inMin → s.callerMem.read (base + k) = some (b k)) :
    exec i s = .next (State.toPhase
      { s with inst := latchOperands (instrHandler i) ((List.range (instrHandler i).inMin).map b) s.inst }
      (.validated .start)) := by
  rw [exec_eq_serve, serve_of_latch _ _ _ hp]
  exact (latchStep_eq_next _ _ _).mpr ⟨base, _, hin, Memory.readBytes_of_read hb, rfl⟩

/-- Settles O8: the operands are the fields of the bytes read, which are those that the host provides. -/
theorem operandLatchingStep : Obligations.OperandLatchingStep := by
  unfold Obligations.OperandLatchingStep
  intro s inLen outCap base b hp hin
  exact ⟨fun hb => exec_of_latch (.readMsr inLen outCap) hp hin hb,
    fun hb => exec_of_latch (.writeMsr inLen outCap) hp hin hb,
    fun hb => exec_of_latch (.querySegment inLen outCap) hp hin hb⟩

/-! ### Operand check -/

/-- An index names no segment register exactly from 6 on (R231). -/
theorem segIndex_eq_none_iff (v : U16) : segIndex v = none ↔ 6 ≤ v.toNat := by
  unfold segIndex
  split_ifs with hv
  · simp [hv]
  · simpa using hv

section
variable {s : State} {v : U16} (inLen outCap : Nat)

/-- An index that names no segment register is an invalid operand (R187, R231). -/
theorem exec_querySegment_of_bad_index (hp : s.inst.phase = .validated .start) (hi : s.inst.opSegIdx = some v)
    (hv : segIndex v = none) : exec (.querySegment inLen outCap) s = .next (s.complete .invalidOperand) := by
  rw [exec_of_validated _ hp, executeStep, instrHandler, operandCheck, hi, readLatch_some, hv]
  rfl

/-- An index that names a segment register has its selector read in the step of the check (R187, R232; log 8). -/
theorem exec_querySegment_of_index {r : Fin 6} (hp : s.inst.phase = .validated .start)
    (hi : s.inst.opSegIdx = some v) (hv : segIndex v = some r) :
    exec (.querySegment inLen outCap) s = .next (querySelector (s.params.seg r) s) := by
  rw [exec_of_validated _ hp, executeStep, instrHandler, operandCheck, hi, readLatch_some, hv, Handler.execution,
    executeQuerySegment, hi, readLatch_some, hv]
  rfl

end

/-- The selector read uses up a draw, completes nothing and writes no response (R188, R232). -/
theorem querySelector_frame (r : Config.SegReg) (s : State) :
    (querySelector r s).inst.status = s.inst.status ∧
      (querySelector r s).inst.bytesWritten = s.inst.bytesWritten ∧
      (querySelector r s).inst.phase ≠ .completed ∧ (querySelector r s).drawCount = s.drawCount + 1 := by
  obtain ⟨-, hq⟩ | ⟨-, hq⟩ := querySelector_cases r s
  · rw [hq]
    exact ⟨rfl, rfl, nofun, rfl⟩
  · rw [hq]
    exact ⟨rfl, rfl, nofun, rfl⟩

/-- Settles O17: from 6 on the check fails; below 6 the selector read runs. -/
theorem segmentIndexChecked : Obligations.SegmentIndexChecked := by
  unfold Obligations.SegmentIndexChecked
  intro s inLen outCap v hp hi
  refine ⟨fun hv => exec_querySegment_of_bad_index _ _ hp hi ((segIndex_eq_none_iff v).mpr hv), fun hv => ?_⟩
  have hnamed : segIndex v ≠ none := fun hnone => by
    have := (segIndex_eq_none_iff v).mp hnone
    omega
  obtain ⟨r, hr⟩ := Option.ne_none_iff_exists'.mp hnamed
  exact ⟨_, exec_querySegment_of_index _ _ hp hi hr, querySelector_frame _ s⟩

/-! ### Response -/

/-- With every result byte written, an instruction responds with its handler's size (R190). -/
theorem exec_of_result_written {s : State} (i : Instr) (hp : s.inst.phase = .executed (instrHandler i).outSize) :
    exec i s = .next (s.succeed (instrHandler i).outSize) := by
  rw [exec_eq_serve, serve_of_result_written _ _ _ hp le_rfl]

/-- Settles O10: the response with each handler's size. -/
theorem successResponse : Obligations.SuccessResponse := by
  unfold Obligations.SuccessResponse
  intro s inLen outCap
  exact ⟨exec_of_result_written (.readMsr inLen outCap), exec_of_result_written (.writeMsr inLen outCap),
    exec_of_result_written (.querySegment inLen outCap)⟩

/-! ### Runs -/

/-- A run of one step more reaches what the run from the first step's next state reaches. -/
theorem run_succ_eq_next_iff {M : Host.Core} {k : Nat} {s u : M.State} :
    M.run (k + 1) s = .next u ↔ ∃ t, M.step s = .next t ∧ M.run k t = .next u := by
  rw [Host.Core.run]
  cases M.step s <;> simp

/-- Settles O53: the lookup, then the gate, which turns away a size one below its bound. -/
theorem oneByteShort : Obligations.OneByteShort := by
  unfold Obligations.OneByteShort
  intro s op inLen outCap ha hp hop hin hout hh hshort
  have hlookup : step s = .next (s.lookupDone (Handler.ofOp op)) := by
    rw [step_of_nothing_pending ha, stepInst_of_known_op hp hop hin hout hh]
  have hless : sizesShort (Handler.ofOp op) inLen.toNat outCap.toNat = true :=
    (sizesShort_eq_true_iff _ _ _).mpr (hshort.imp (by omega) (by omega))
  have hgate : step (s.lookupDone (Handler.ofOp op)) =
      .next ((s.lookupDone (Handler.ofOp op)).complete .bufferTooSmall) := by
    have hrequests : (s.lookupDone (Handler.ofOp op)).inst.Requests (Handler.ofOp op) inLen outCap :=
      ⟨hin, hout, nofun, fun _ => rfl⟩
    rw [step_of_nothing_pending (s := s.lookupDone (Handler.ofOp op)) ha, stepInst_eq_serve (.inl rfl) hrequests hh,
      serve_of_gate _ _ _ rfl, sizeGate, if_pos hless]
  exact run_succ_eq_next_iff.mpr ⟨_, hlookup, run_succ_eq_next_iff.mpr ⟨_, hgate, rfl⟩⟩

end Sys2Proof.Machine
end

section
/-! PROOFS. The steps of the host in their turn (spec/42_dispatcher.md R183, R191), and the paths of a request (R180). -/

namespace Sys2Proof.Machine

/-! ### The host -/

/-- The instance of a thread replaced by another one of that thread: nothing else changes. -/
theorem State.focus_replaced (s : State) {t : Nat} {m : Inst} (hm : m.thread = t) :
    let u : State := { s.focus t with inst := m }
    u.instAt t = m ∧ (∀ th, th ≠ t → u.instAt th = s.instAt th) ∧ u.params = s.params ∧ u.env = s.env ∧
      u.callerMem = s.callerMem ∧ u.agenda = s.agenda ∧ u.draws = s.draws ∧ u.drawCount = s.drawCount := by
  intro u
  have hother (th : Nat) (hth : th ≠ t) : u.instAt th = s.instAt th := by
    rw [← State.focus_instAt s t th]
    exact State.instAt_of_others _ _ th (hm.trans (State.focus_thread s t).symm) rfl (by simpa using hth)
  refine ⟨if_pos hm, hother, ?_⟩
  simp [u]

/-- An idle instance of any thread receives the request presented to it (R183). -/
theorem State.focus_present_of_idle {s : State} {t : Nat} (r : Request) (hp : (s.instAt t).phase = .idle) :
    (s.focus t).present r = { s.focus t with inst := Inst.receive t r } := by
  rw [State.present_of_idle _ r (State.focus_inst s t ▸ hp), State.focus_thread]

/-- A completed instance of any thread is idle when its response has been taken (R191). -/
theorem State.focus_ack_of_completed {s : State} {t : Nat} (hp : (s.instAt t).phase = .completed) :
    (s.focus t).ack = { s.focus t with inst := Inst.idle t } := by
  rw [State.ack_of_completed _ (State.focus_inst s t ▸ hp), State.focus_thread]

/-- Settles O34: the instance brought into focus is replaced by the one that receipt leaves. -/
theorem requestIsReceived : Obligations.RequestIsReceived := by
  unfold Obligations.RequestIsReceived
  intro s t r es ha hp
  obtain ⟨-, hframe⟩ := State.focus_replaced { s with agenda := es } (t := t) (m := Inst.receive t r) rfl
  refine ⟨_, ?_, rfl, hframe⟩
  rw [step_of_event s _ es ha nofun, State.apply, State.focus_present_of_idle (s := { s with agenda := es }) r hp]

/-- Settles O36: the instance brought into focus is replaced by the idle one. -/
theorem acknowledgementClearsTheInstance : Obligations.AcknowledgementClearsTheInstance := by
  unfold Obligations.AcknowledgementClearsTheInstance
  intro s t es ha hp
  refine ⟨_, ?_, State.focus_replaced { s with agenda := es } (m := Inst.idle t) rfl⟩
  rw [step_of_event s _ es ha nofun, State.apply, State.focus_ack_of_completed (s := { s with agenda := es }) hp]

/-- What a request presented to a thread does to the instance of any thread (R183, R196). -/
theorem State.present_instAt (s : State) (t : Nat) (r : Request) (th : Nat) :
    ((s.focus t).present r).instAt th = s.instAt th ∨
      th = t ∧ (s.instAt th).phase = .idle ∧ ((s.focus t).present r).instAt th = Inst.receive th r := by
  by_cases hp : (s.instAt t).phase = .idle
  · obtain ⟨hsame, hother, -⟩ := s.focus_replaced (m := Inst.receive t r) rfl
    rw [State.focus_present_of_idle r hp]
    by_cases hth : th = t
    · subst hth
      exact .inr ⟨rfl, hp, hsame⟩
    · exact .inl (hother th hth)
  · rw [State.present_of_not_idle _ r (State.focus_inst s t ▸ hp)]
    exact .inl (State.focus_instAt s t th)

/-- What an acknowledgement to a thread does to the instance of any thread (R191, R196). -/
theorem State.ack_instAt (s : State) (t th : Nat) :
    (s.focus t).ack.instAt th = s.instAt th ∨
      th = t ∧ (s.instAt th).phase = .completed ∧ (s.focus t).ack.instAt th = Inst.idle th := by
  by_cases hp : (s.instAt t).phase = .completed
  · obtain ⟨hsame, hother, -⟩ := s.focus_replaced (m := Inst.idle t) rfl
    rw [State.focus_ack_of_completed hp]
    by_cases hth : th = t
    · subst hth
      exact .inr ⟨rfl, hp, hsame⟩
    · exact .inl (hother th hth)
  · rw [State.ack_of_not_completed _ (State.focus_inst s t ▸ hp)]
    exact .inl (State.focus_instAt s t th)

/-! ### What a step of the instance in focus leaves alone -/

/-- Fetching lets a step go on with some instruction, or with none (R184). -/
theorem exists_of_fetchInstr_eq_next {m : Inst} {k : Option Instr → Out} {t : State}
    (hn : fetchInstr m k = .next t) : ∃ i, k i = .next t := by
  by_cases hp : m.phase = .received .lookup
  · rw [fetchInstr_lookup m k hp, headerOf] at hn
    simp only [readLatch_eq_next] at hn
    obtain ⟨op, -, inLen, -, outCap, -, hk⟩ := hn
    exact ⟨_, hk⟩
  · rw [fetchInstr_looked_up m k hp] at hn
    simp only [readLatch_eq_next] at hn
    obtain ⟨h, -, inLen, -, outCap, -, hk⟩ := hn
    exact ⟨_, hk⟩

/-- In any state, a step of the instance in focus waits, fails the lookup or runs an instruction (R180). -/
theorem stepInst_eq_next_cases {s t : State} (hn : stepInst s = .next t) :
    t = s ∨ t = s.lookupNone ∨ ∃ i, exec i s = .next t := by
  by_cases hserv : s.inst.serving
  · rw [stepInst_of_serving s hserv] at hn
    obtain ⟨i, hi⟩ := exists_of_fetchInstr_eq_next hn
    cases i with
    | none =>
      cases hi
      exact .inr (.inl rfl)
    | some i => exact .inr (.inr ⟨i, hi⟩)
  · obtain ⟨-, hsame⟩ | ⟨r, -, hfault⟩ := stepInst_of_not_serving s hserv
    · rw [hsame] at hn
      cases hn
      exact .inl rfl
    · rw [hfault] at hn
      cases hn

/-- A step of the instance in focus touches no other instance and no pending step (R196). -/
theorem stepInst_frame {s t : State} (hn : stepInst s = .next t) :
    t.inst.thread = s.inst.thread ∧ t.others = s.others ∧ t.agenda = s.agenda := by
  obtain rfl | rfl | ⟨i, hi⟩ := stepInst_eq_next_cases hn
  · exact ⟨rfl, rfl, rfl⟩
  · exact ⟨rfl, rfl, rfl⟩
  · have hs := exec_eq_next i s t hi
    obtain ⟨ho, -, ha⟩ := hs.state_frame
    exact ⟨hs.request_frame.1, ho, ha⟩

/-- A step of the instance in focus leaves the instance of every other thread (R196). -/
theorem stepInst_instAt_other {s t : State} (hn : stepInst s = .next t) {th : Nat} (hth : th ≠ s.inst.thread) :
    t.instAt th = s.instAt th := by
  obtain ⟨ht, ho, -⟩ := stepInst_frame hn
  exact State.instAt_of_others s t th ht ho hth

/-! ### The paths of a request -/

/-- The edges along which the steps of an instance itself lead, with the status after the step: between two dispatcher states
(R180), with the statuses of R184, R185, R187 and R190. -/
inductive RequestEdge : Fsm → Fsm → Option Status → Prop
  | stays {a : Fsm} {st : Option Status} : RequestEdge a a st
  | latched {st : Option Status} : RequestEdge .received .validated st
  | unsupported : RequestEdge .received .completed (some .unsupportedOperation)
  | tooSmall : RequestEdge .received .completed (some .bufferTooSmall)
  | rejected : RequestEdge .validated .completed (some .invalidOperand)
  | executed {st : Option Status} : RequestEdge .validated .executed st
  | faulted {st : Option Status} : RequestEdge .validated .faulted st
  | succeeded : RequestEdge .executed .completed (some .success)

theorem Inst.fsm_of_phase {m : Inst} {p : Phase} (hp : m.phase = p) : m.fsm = p.fsm := congrArg Phase.fsm hp

/-- Where execution leads: the operand check fails at its start, or it goes on, is over, or faults (R187, R188). -/
theorem Executes.outcome {s t : State} {h : Handler} {w : ExecStep} (hx : Executes s h w t) :
    (w = .start ∧ t = s.complete .invalidOperand) ∨ (∃ w', t.inst.phase = .validated w' ∧ w' ≠ .start) ∨
      t.inst.phase = .executed 0 ∨ ∃ r, t.inst.phase = .faulted r := by
  cases hx with
  | indexRejected _ _ => exact .inl ⟨rfl, rfl⟩
  | selectorSeeks _ _ => exact .inr (.inl ⟨_, rfl, nofun⟩)
  | insideTable => exact .inr (.inl ⟨_, rfl, nofun⟩)
  | loByte _ _ => exact .inr (.inl ⟨_, rfl, nofun⟩)
  | wideInside _ => exact .inr (.inl ⟨_, rfl, nofun⟩)
  | hiByte _ _ => exact .inr (.inl ⟨_, rfl, nofun⟩)
  | msrReadFaults _ _ => exact .inr (.inr (.inr ⟨_, rfl⟩))
  | msrWriteFaults _ => exact .inr (.inr (.inr ⟨_, rfl⟩))
  | loFaults _ => exact .inr (.inr (.inr ⟨_, rfl⟩))
  | hiFaults _ => exact .inr (.inr (.inr ⟨_, rfl⟩))
  | _ => exact .inr (.inr (.inl rfl))

/-- A step of a request leads along an edge (R180). -/
theorem Serves.edge {s t : State} {h : Handler} {inLen outCap : Nat} (hs : Serves h inLen outCap s t) :
    RequestEdge s.inst.fsm t.inst.fsm t.inst.status := by
  cases hs with
  | waits _ => exact .stays
  | looksUp hp =>
    rw [Inst.fsm_of_phase hp]
    exact .stays
  | gateFails hp _ =>
    rw [Inst.fsm_of_phase hp]
    exact .tooSmall
  | gatePasses hp _ =>
    rw [Inst.fsm_of_phase hp]
    exact .stays
  | latches hp =>
    rw [Inst.fsm_of_phase hp]
    exact .latched
  | executes hp hx =>
    rw [Inst.fsm_of_phase hp]
    obtain ⟨-, rfl⟩ | ⟨w', hp', -⟩ | hp' | ⟨r, hp'⟩ := hx.outcome
    · exact .rejected
    · rw [Inst.fsm_of_phase hp']
      exact .stays
    · rw [Inst.fsm_of_phase hp']
      exact .executed
    · rw [Inst.fsm_of_phase hp']
      exact .faulted
  | writesByte hp _ =>
    rw [Inst.fsm_of_phase hp]
    exact .stays
  | responds hp =>
    rw [Inst.fsm_of_phase hp]
    exact .succeeded

/-- Under the invariant only a request before its lookup names no handler (R26, R184). -/
theorem Inst.ok.lookup_of_hNone {m : Inst} {c : Params} {numLp : Nat} {inLen outCap : U32} (hok : m.ok c numLp)
    (hs : m.serving) (hm : m.Requests .hNone inLen outCap) : m.phase = .received .lookup := by
  by_contra hl
  exact (hok.handlerNamed hs hl).2 (hm.after_lookup hl)

/-- A step of the instance in focus leads along an edge (R180). -/
theorem stepInst_edge {s t : State} (hok : s.inst.ok s.params s.env.numLp) (hn : stepInst s = .next t) :
    RequestEdge s.inst.fsm t.inst.fsm t.inst.status := by
  obtain ⟨-, rfl⟩ | ⟨hserv, h, inLen, outCap, hm, ⟨rfl, rfl⟩ | ⟨hh, hserve⟩⟩ := stepInst_eq_next hok hn
  · exact .stays
  · rw [Inst.fsm_of_phase (hok.lookup_of_hNone hserv hm)]
    exact .unsupported
  · exact (serves_of_serve_eq_next h _ _ s t hh hserve).edge

/-- In a step of the instance in focus the instance of every thread stays or moves along an edge (R180, R196). -/
theorem stepInst_edge_at {s t : State} (hok : s.inst.ok s.params s.env.numLp) (hn : stepInst s = .next t) (th : Nat) :
    RequestEdge (s.instAt th).fsm (t.instAt th).fsm (t.instAt th).status := by
  by_cases hth : th = s.inst.thread
  · obtain ⟨ht, -⟩ := stepInst_frame hn
    have htarget : t.instAt th = t.inst := if_pos (ht.trans hth.symm)
    rw [htarget, hth, State.instAt_self]
    exact stepInst_edge hok hn
  · rw [stepInst_instAt_other hn hth]
    exact .stays

/-- In a step of any agent but the reset, the instance of a thread moves along an edge of its own steps, receives a request
or is acknowledged (R180, R183, R191). -/
theorem step_edge_at {s t : State} (hs : s.Inv) (hn : step s = .next t) (hreset : ∀ es, s.agenda ≠ .reset :: es)
    (th : Nat) :
    RequestEdge (s.instAt th).fsm (t.instAt th).fsm (t.instAt th).status ∨
      ((s.instAt th).phase = .idle ∧ ∃ r es, t.instAt th = Inst.receive th r ∧ s.agenda = .present th r :: es) ∨
      ((s.instAt th).phase = .completed ∧ t.instAt th = Inst.idle th ∧ ∃ es, s.agenda = .ack th :: es) := by
  have unchanged (h : t.instAt th = s.instAt th) :
      RequestEdge (s.instAt th).fsm (t.instAt th).fsm (t.instAt th).status := by
    rw [h]
    exact .stays
  cases ha : s.agenda with
  | nil => exact .inl (stepInst_edge_at hs.focused (step_of_nothing_pending ha ▸ hn) th)
  | cons e es =>
    cases e with
    | run t' =>
      rw [step_of_run ha] at hn
      have hedge := stepInst_edge_at ((hs.agenda es).focus t').focused hn th
      rw [State.focus_instAt] at hedge
      exact .inl hedge
    | present t' r =>
      rw [step_of_event s _ es ha nofun] at hn
      cases hn
      obtain hsame | ⟨rfl, hp, hu⟩ := State.present_instAt { s with agenda := es } t' r th
      · exact .inl (unchanged hsame)
      · exact .inr (.inl ⟨hp, r, es, hu, rfl⟩)
    | ack t' =>
      rw [step_of_event s _ es ha nofun] at hn
      cases hn
      obtain hsame | ⟨rfl, hp, hu⟩ := State.ack_instAt { s with agenda := es } t' th
      · exact .inl (unchanged hsame)
      · exact .inr (.inr ⟨hp, hu, es, rfl⟩)
    | reset => exact absurd ha (hreset es)
    | _ =>
      rw [step_of_event s _ es ha nofun] at hn
      cases hn
      exact .inl (unchanged rfl)

/-- In IDLE and COMPLETED every instruction waits for the host (R182, R191). -/
theorem exec_of_waiting {s : State} (i : Instr) (hp : s.inst.phase = .idle ∨ s.inst.phase = .completed) :
    exec i s = .next s := by
  rw [exec_eq_serve, serve_of_waiting _ _ _ hp]

/-- Settles O33: each step leads along an edge or is the host's; a step asked of a waiting instance only moves the focus. -/
theorem stepsFollowThePaths : Obligations.StepsFollowThePaths := by
  unfold Obligations.StepsFollowThePaths
  refine ⟨fun s t th hs hn hreset => ?paths, fun s => ⟨fun hp => ⟨fun i => exec_of_waiting i hp, fun ha => ?idle⟩,
    fun t es ha hp => ?run⟩⟩
  case paths =>
    dsimp only
    obtain hedge | ⟨hp, r, es, ht, ha⟩ | ⟨hp, ht, es, ha⟩ := step_edge_at hs hn hreset th
    · generalize (s.instAt th).fsm = a, (t.instAt th).fsm = b, (t.instAt th).status = st at hedge
      cases hedge <;> simp
    · rw [Inst.fsm_of_phase hp, ht]
      exact .inr (.inl ⟨rfl, rfl, r, es, ha⟩)
    · rw [Inst.fsm_of_phase hp, ht]
      exact .inr (.inr (.inr (.inr (.inr (.inr (.inr (.inr ⟨rfl, rfl, es, ha⟩)))))))
  case idle =>
    rw [step_of_nothing_pending ha]
    exact stepInst_of_waiting s hp
  case run =>
    have hwaits : (State.focus { s with agenda := es } t).inst.phase = .idle ∨
        (State.focus { s with agenda := es } t).inst.phase = .completed := by
      rw [State.focus_inst]
      exact hp
    exact ⟨_, (step_of_run ha).trans (stepInst_of_waiting _ hwaits), s.focus_only t es⟩

end Sys2Proof.Machine
end

section
/-! PROOFS. Failure touches nothing (spec/42_dispatcher.md R189, R193): until a request has run its first primitive it has
changed nothing outside its instance, and from then on it can end in no other status than SUCCESS. -/

namespace Sys2Proof.Machine

/-! ### Runs -/

/-- What every step keeps, a run keeps. -/
theorem run_keeps {M : Host.Core} {P : M.State → Prop} (hstep : ∀ s t, P s → M.step s = .next t → P t) {k : Nat}
    {s t : M.State} (hs : P s) (hn : M.run k s = .next t) : P t := by
  induction k generalizing s with
  | zero =>
    cases hn
    exact hs
  | succ k ih =>
    obtain ⟨u, hu, hn⟩ := run_succ_eq_next_iff.mp hn
    exact ih (hstep s u hs hu) hn

/-! ### Committed requests -/

/-- A primitive of the request has run (R188): execution is past its start, is over or has faulted, or the response is a
success. -/
def Inst.committed (m : Inst) : Prop :=
  (∃ w, m.phase = .validated w ∧ w ≠ .start) ∨ (∃ n, m.phase = .executed n) ∨ (∃ r, m.phase = .faulted r) ∨
    m.phase = .completed ∧ m.status = some .success

/-- Nothing that R193 protects differs between two states: the environment, the caller's memory and the draws. -/
def State.sameOutside (s t : State) : Prop :=
  t.env = s.env ∧ t.callerMem = s.callerMem ∧ t.draws = s.draws ∧ t.drawCount = s.drawCount

theorem Inst.committed_of_validated {m : Inst} {w : ExecStep} (hp : m.phase = .validated w) :
    m.committed ↔ w ≠ .start := by
  simp [Inst.committed, hp]

theorem Inst.not_committed_of_received {m : Inst} {r : RecvStep} (hp : m.phase = .received r) : ¬ m.committed := by
  simp [Inst.committed, hp]

/-- The operand check fails with nothing touched; every other step of execution commits the request (R187, R188). -/
theorem Executes.rejects_or_commits {s t : State} {h : Handler} {w : ExecStep} (hx : Executes s h w t) :
    (w = .start ∧ s.sameOutside t) ∨ t.inst.committed := by
  obtain ⟨rfl, rfl⟩ | ⟨w', hp, hw⟩ | hp | ⟨r, hp⟩ := hx.outcome
  · exact .inl ⟨rfl, rfl, rfl, rfl, rfl⟩
  · exact .inr (.inl ⟨w', hp, hw⟩)
  · exact .inr (.inr (.inl ⟨0, hp⟩))
  · exact .inr (.inr (.inr (.inl ⟨r, hp⟩)))

/-- A step of a request touches nothing outside its instance, or leaves it committed (R193). -/
theorem Serves.touches_or_commits {s t : State} {h : Handler} {inLen outCap : Nat} (hs : Serves h inLen outCap s t) :
    s.sameOutside t ∨ t.inst.committed := by
  cases hs with
  | executes _ hx => exact hx.rejects_or_commits.imp_left And.right
  | writesByte _ _ => exact .inr (.inr (.inl ⟨_, rfl⟩))
  | _ => exact .inl ⟨rfl, rfl, rfl, rfl⟩

/-- A committed request stays committed (R188, R190). -/
theorem Serves.keeps_committed {s t : State} {h : Handler} {inLen outCap : Nat} (hs : Serves h inLen outCap s t)
    (hc : s.inst.committed) : t.inst.committed := by
  cases hs with
  | waits _ => exact hc
  | looksUp hp => exact absurd hc (Inst.not_committed_of_received hp)
  | gateFails hp _ => exact absurd hc (Inst.not_committed_of_received hp)
  | gatePasses hp _ => exact absurd hc (Inst.not_committed_of_received hp)
  | latches hp => exact absurd hc (Inst.not_committed_of_received hp)
  | executes hp hx =>
    obtain ⟨rfl, -⟩ | ht := hx.rejects_or_commits
    · exact absurd rfl ((Inst.committed_of_validated hp).mp hc)
    · exact ht
  | writesByte _ _ => exact .inr (.inl ⟨_, rfl⟩)
  | responds _ => exact .inr (.inr (.inr ⟨rfl, rfl⟩))

/-- A step of the instance in focus touches nothing outside it, or leaves it committed; a committed one stays so (R193). -/
theorem stepInst_commits {s t : State} (hok : s.inst.ok s.params s.env.numLp) (hn : stepInst s = .next t) :
    (s.sameOutside t ∨ t.inst.committed) ∧ (s.inst.committed → t.inst.committed) := by
  obtain ⟨-, rfl⟩ | ⟨hserv, h, inLen, outCap, hm, ⟨rfl, rfl⟩ | ⟨hh, hserve⟩⟩ := stepInst_eq_next hok hn
  · exact ⟨.inl ⟨rfl, rfl, rfl, rfl⟩, id⟩
  · exact ⟨.inl ⟨rfl, rfl, rfl, rfl⟩,
      fun hc => absurd hc (Inst.not_committed_of_received (hok.lookup_of_hNone hserv hm))⟩
  · have hs := serves_of_serve_eq_next h _ _ s t hh hserve
    exact ⟨hs.touches_or_commits, hs.keeps_committed⟩

/-! ### The statement -/

/-- Where a run from `s` has come: the invariant holds, nothing is pending, and the request is committed or nothing outside
its instance has changed since `s`. -/
structure State.Undisturbed (s u : State) : Prop where
  inv : u.Inv
  agenda : u.agenda = []
  untouched : s.sameOutside u ∨ u.inst.committed

theorem State.Undisturbed.step {s u v : State} (hu : s.Undisturbed u) (hn : step u = .next v) : s.Undisturbed v := by
  have hstep : stepInst u = .next v := step_of_nothing_pending hu.agenda ▸ hn
  obtain ⟨-, -, ha⟩ := stepInst_frame hstep
  obtain ⟨hnew, hkeep⟩ := stepInst_commits hu.inv.focused hstep
  refine ⟨stepKeepsTheInvariant u v hu.inv hn, ha.trans hu.agenda, ?_⟩
  obtain ⟨he, hm, hd, hc⟩ | hold := hu.untouched
  · obtain ⟨he', hm', hd', hc'⟩ | hnew := hnew
    · exact .inl ⟨he'.trans he, hm'.trans hm, hd'.trans hd, hc'.trans hc⟩
    · exact .inr hnew
  · exact .inr (hkeep hold)

/-- Under the invariant every response but a success has written no byte (R189). -/
theorem Inst.ok.bytesWritten_of_failure {m : Inst} {c : Params} {numLp : Nat} (hok : m.ok c numLp)
    (hp : m.phase = .completed) (hs : m.status ≠ some .success) : m.bytesWritten = some 0#32 := by
  obtain ⟨-, -, hresp⟩ := (Inst.ok_completed_iff hp).mp hok
  cases hst : m.status with
  | none => simp [Inst.responseHeld, hst] at hresp
  | some st =>
    cases st with
    | success => exact absurd hst hs
    | bufferTooSmall =>
      obtain ⟨-, -, hb, -⟩ := (Inst.responseHeld_tooSmall_iff hst).mp hresp
      exact hb
    | invalidOperand =>
      obtain ⟨-, -, -, -, hb, -⟩ := (Inst.responseHeld_invalid_iff hst).mp hresp
      exact hb
    | unsupportedOperation =>
      obtain ⟨-, hb, -⟩ := (Inst.responseHeld_unsupported_iff hst).mp hresp
      exact hb

theorem Inst.phase_of_completed {m : Inst} (hf : m.fsm = .completed) : m.phase = .completed := by
  cases hp : m.phase with
  | completed => rfl
  | _ => simp [Inst.fsm, hp, Phase.fsm] at hf

/-- Settles O54: a request that ends in another status was never committed. -/
theorem failureTouchesNothing : Obligations.FailureTouchesNothing := by
  unfold Obligations.FailureTouchesNothing
  intro s t k hs ha _ hn hf hstatus
  have hp : t.inst.phase = .completed := Inst.phase_of_completed hf
  have hstart : s.Undisturbed s := ⟨hs, ha, .inl ⟨rfl, rfl, rfl, rfl⟩⟩
  have hend : s.Undisturbed t := run_keeps (M := core) (P := s.Undisturbed) (fun _ _ => State.Undisturbed.step) hstart hn
  have hfree : ¬ t.inst.committed := by
    simp [Inst.committed, hp, hstatus]
  exact ⟨hend.inv.focused.bytesWritten_of_failure hp hstatus, hend.untouched.resolve_right hfree⟩

end Sys2Proof.Machine
end

section
/-! PROOFS. The instances are independent (spec/42_dispatcher.md R196): no step of an instruction reads another instance, so
each of its parts commutes with a replacement of the others. -/

namespace Sys2Proof.Machine

/-- A choice whose branches commute with a function commutes with it. -/
theorem ite_eq_apply_ite {α β : Type} (f : α → β) {c : Prop} {_ : Decidable c} {x y : α} {x' y' : β} (hx : x' = f x)
    (hy : y' = f y) : (if c then x' else y') = f (if c then x else y) := by
  rw [hx, hy, apply_ite f]

/-- The state with the other instances replaced. -/
def State.withOthers (ms : List Inst) (s : State) : State := { s with others := ms }

/-- An answer with the other instances replaced in the next state, if there is one. -/
def answerWithOthers (ms : List Inst) : Out → Out
  | .next t => .next (t.withOthers ms)
  | .fault r => .fault r
  | .refused r => .refused r

theorem answerWithOthers_readLatch {α : Type} (ms : List Inst) (l : Latch) (held : Option α) (k : α → Out) :
    answerWithOthers ms (readLatch l held k) = readLatch l held fun a => answerWithOthers ms (k a) := by
  cases held <;> rfl

/-- Where what follows each value of a latch commutes with the replacement, so does the read of the latch. -/
theorem readLatch_withOthers {α : Type} {ms : List Inst} {l : Latch} {held : Option α} {k k' : α → Out}
    (hk : ∀ a, k' a = answerWithOthers ms (k a)) : readLatch l held k' = answerWithOthers ms (readLatch l held k) := by
  rw [answerWithOthers_readLatch, funext hk]

section

variable (ms : List Inst) (s : State)

/-! ### QUERY_SEGMENT -/

theorem State.drawnFor_withOthers (job : MemJob) :
    (s.withOthers ms).drawnFor job = (s.drawnFor job).withOthers ms :=
  ite_eq_apply_ite (State.withOthers ms) rfl rfl

theorem querySelector_withOthers (r : Config.SegReg) :
    querySelector r (s.withOthers ms) = (querySelector r s).withOthers ms :=
  ite_eq_apply_ite (State.withOthers ms) rfl rfl

theorem queryTable_withOthers (sel : U16) : queryTable sel (s.withOthers ms) = (queryTable sel s).withOthers ms :=
  ite_eq_apply_ite (State.withOthers ms) rfl rfl

theorem queryWidth_withOthers (glim : U16) (off ea rawLo : U64) :
    queryWidth glim off ea rawLo (s.withOthers ms) = (queryWidth glim off ea rawLo s).withOthers ms :=
  ite_eq_apply_ite (State.withOthers ms) (ite_eq_apply_ite (State.withOthers ms) rfl rfl) rfl

theorem queryReadLo_withOthers (glim : U16) (off : U64) (job : MemJob) :
    queryReadLo glim off job (s.withOthers ms) = (queryReadLo glim off job s).withOthers ms := by
  have hread : memReadByte job (s.withOthers ms) = memReadByte job s := rfl
  rw [queryReadLo, queryReadLo, hread, State.drawnFor_withOthers]
  cases memReadByte job s with
  | error r => rfl
  | ok job' => exact ite_eq_apply_ite (State.withOthers ms) rfl (queryWidth_withOthers ms _ _ _ _ _)

theorem queryReadHi_withOthers (rawLo : U64) (job : MemJob) :
    queryReadHi rawLo job (s.withOthers ms) = (queryReadHi rawLo job s).withOthers ms := by
  have hread : memReadByte job (s.withOthers ms) = memReadByte job s := rfl
  rw [queryReadHi, queryReadHi, hread, State.drawnFor_withOthers]
  cases memReadByte job s with
  | error r => rfl
  | ok job' => exact ite_eq_apply_ite (State.withOthers ms) rfl rfl

theorem executeQuerySegment_withOthers (w : ExecStep) :
    executeQuerySegment w (s.withOthers ms) = answerWithOthers ms (executeQuerySegment w s) := by
  cases w with
  | start =>
    refine readLatch_withOthers fun v => ?_
    cases segIndex v with
    | none => rfl
    | some i => exact congrArg Host.Outcome.next (querySelector_withOthers ms s _)
  | sgdt => exact readLatch_withOthers fun sel => congrArg Host.Outcome.next (queryTable_withOthers ms s sel)
  | readLo glim off job => exact congrArg Host.Outcome.next (queryReadLo_withOthers ms s glim off job)
  | readHi rawLo job => exact congrArg Host.Outcome.next (queryReadHi_withOthers ms s rawLo job)

/-! ### READ_MSR and WRITE_MSR -/

theorem executeReadMsr_withOthers :
    executeReadMsr (s.withOthers ms) = answerWithOthers ms (executeReadMsr s) := by
  refine readLatch_withOthers fun a => ?_
  have hread : primRdmsr a (s.withOthers ms) = primRdmsr a s := rfl
  rw [hread]
  cases primRdmsr a s <;> rfl

theorem executeWriteMsr_withOthers :
    executeWriteMsr (s.withOthers ms) = answerWithOthers ms (executeWriteMsr s) := by
  refine readLatch_withOthers fun a => readLatch_withOthers fun lo => readLatch_withOthers fun hi => ?_
  have hwrite : primWrmsr a lo hi (s.withOthers ms) = primWrmsr a lo hi s := rfl
  rw [hwrite]
  cases primWrmsr a lo hi s <;> rfl

/-! ### Every step of a request -/

/-- The execution of a handler does the same whatever the other instances hold (R196). -/
theorem execution_withOthers (h : Handler) (w : ExecStep) :
    h.execution w (s.withOthers ms) = answerWithOthers ms (h.execution w s) := by
  cases h with
  | readMsr => exact executeReadMsr_withOthers ms s
  | writeMsr => exact executeWriteMsr_withOthers ms s
  | querySegment => exact executeQuerySegment_withOthers ms s w
  | hNone => rfl

theorem executeStep_withOthers (h : Handler) (w : ExecStep) :
    executeStep h h.execution w (s.withOthers ms) = answerWithOthers ms (executeStep h h.execution w s) := by
  cases w with
  | start =>
    cases h with
    | querySegment =>
      exact readLatch_withOthers fun v =>
        ite_eq_apply_ite (answerWithOthers ms) (execution_withOthers ms s .querySegment .start) rfl
    | readMsr => exact execution_withOthers ms s .readMsr .start
    | writeMsr => exact execution_withOthers ms s .writeMsr .start
    | hNone => rfl
  | _ => exact execution_withOthers ms s h _

theorem latchStep_withOthers (h : Handler) :
    latchStep h (s.withOthers ms) = answerWithOthers ms (latchStep h s) := by
  refine readLatch_withOthers fun base => ?_
  have hmem : (s.withOthers ms).callerMem = s.callerMem := rfl
  rw [hmem]
  cases s.callerMem.readBytes base h.inMin <;> rfl

theorem resultImage_withOthers {h : Handler} {m : Inst} {k k' : List Byte → Out}
    (hk : ∀ image, k' image = answerWithOthers ms (k image)) :
    resultImage h m k' = answerWithOthers ms (resultImage h m k) := by
  cases h with
  | readMsr => exact readLatch_withOthers fun lo => readLatch_withOthers fun hi => hk _
  | querySegment =>
    exact readLatch_withOthers fun sel => readLatch_withOthers fun r => readLatch_withOthers fun v =>
      readLatch_withOthers fun lo => readLatch_withOthers fun hi => hk _
  | writeMsr => exact hk []
  | hNone => exact hk []

theorem outputByte_withOthers (h : Handler) (n : Nat) :
    outputByte h n (s.withOthers ms) = answerWithOthers ms (outputByte h n s) := by
  refine readLatch_withOthers fun base => resultImage_withOthers ms fun image => ?_
  have hmem : (s.withOthers ms).callerMem = s.callerMem := rfl
  rw [hmem]
  cases s.callerMem.read (base + n) <;> rfl

/-- A step of a request does the same whatever the other instances hold (R196). -/
theorem serve_withOthers (h : Handler) (inLen outCap : Nat) :
    serve h inLen outCap h.execution (s.withOthers ms) = answerWithOthers ms (serve h inLen outCap h.execution s) := by
  have hinst : (s.withOthers ms).inst = s.inst := rfl
  unfold serve
  rw [hinst]
  cases s.inst.phase with
  | received r =>
    cases r with
    | lookup => rfl
    | gate => exact ite_eq_apply_ite (answerWithOthers ms) rfl rfl
    | latch => exact latchStep_withOthers ms s h
  | validated w => exact executeStep_withOthers ms s h w
  | executed n => exact ite_eq_apply_ite (answerWithOthers ms) (outputByte_withOthers ms s h n) rfl
  | _ => rfl

end

/-! ### The statement -/

/-- Settles O46: a step of an instance keeps the list of the others, which no instruction reads. -/
theorem instancesAreIndependent : Obligations.InstancesAreIndependent := by
  unfold Obligations.InstancesAreIndependent
  refine ⟨fun s u t es ha hn th hth => ?_, fun i s t ms hn => ?_⟩
  · rw [step_of_run ha] at hn
    rw [stepInst_instAt_other hn (by simpa using hth)]
    exact State.focus_instAt _ t th
  · rw [exec_eq_serve] at hn
    have hsame := serve_withOthers ms s (instrHandler i) i.inLen i.outCap
    rw [hn] at hsame
    exact (exec_eq_serve i _).trans hsame

end Sys2Proof.Machine
end

section
/-! PROOFS. Whole requests, undisturbed (spec/43_msr_commands.md R210 to R213; spec/70_reset_and_hazards.md R302): the run from
receipt to the latched operands, the run that puts out the result and responds, and between them the execution of the
handler. The first and the last are said once for the three instructions. -/

namespace Sys2Proof.Machine

/-! ### Runs of bytes -/

/-- Put bytes down from an address on, lowest address first. -/
def Memory.writeBytes : Memory → Nat → List Byte → Memory
  | m, _, [] => m
  | m, base, b :: bs => (m.write base b).writeBytes (base + 1) bs

/-- Bytes put down leave every address outside their run as it was. -/
theorem Memory.read_writeBytes_outside (m : Memory) {base a : Nat} {bs : List Byte}
    (ha : a < base ∨ base + bs.length ≤ a) : (m.writeBytes base bs).read a = m.read a := by
  induction bs generalizing m base with
  | nil => rfl
  | cons b bs ih =>
    rw [List.length_cons] at ha
    rw [Memory.writeBytes, ih (m.write base b) (by omega), Memory.read_write_other _ _ _ _ (by omega)]

/-- Bytes put down are read back by their number. -/
theorem Memory.read_writeBytes_inside (m : Memory) (base : Nat) {bs : List Byte} {k : Nat} (hk : k < bs.length) :
    (m.writeBytes base bs).read (base + k) = bs[k]? := by
  induction bs generalizing m base k with
  | nil => exact absurd hk (Nat.not_lt_zero k)
  | cons b bs ih =>
    cases k with
    | zero =>
      exact (Memory.read_writeBytes_outside _ (.inl base.lt_add_one)).trans (Memory.read_write_same m base b)
    | succ k =>
      rw [Memory.writeBytes, Nat.add_comm k 1, ← Nat.add_assoc, ih _ _ (Nat.lt_of_succ_lt_succ hk), Nat.add_comm 1 k,
        List.getElem?_cons_succ]

/-- Two runs of bytes, the second behind the first, are one. -/
theorem Memory.readBytes_append {m : Memory} {base j k : Nat} {bs cs : List Byte} (hb : m.readBytes base j = some bs)
    (hc : m.readBytes (base + j) k = some cs) : m.readBytes base (j + k) = some (bs ++ cs) := by
  induction j generalizing base bs with
  | zero =>
    cases hb
    rwa [Nat.zero_add]
  | succ j ih =>
    obtain ⟨b, rest, hfirst, hrest, rfl⟩ := (Memory.readBytes_succ _ _ _ _).mp hb
    rw [Nat.succ_add]
    exact (Memory.readBytes_succ _ _ _ _).mpr
      ⟨b, rest ++ cs, hfirst, ih hrest (by rwa [Nat.succ_add_eq_add_succ]), List.cons_append.symm⟩

/-- The four bytes of a word, where they are there one by one, are what PUT32 writes (R10). -/
theorem Memory.readBytes_word {m : Memory} {base : Nat} {v : U32}
    (hv : ∀ k, k < 4 → m.read (base + k) = some (v.extractLsb' (8 * k) 8)) : m.readBytes base 4 = some (put32 v) :=
  Memory.readBytes_of_read hv

/-! ### Joining runs -/

/-- A run goes on from where its first part has come. -/
theorem run_add {M : Host.Core} {j k : Nat} {s t u : M.State} (hs : M.run j s = .next t) (ht : M.run k t = .next u) :
    M.run (j + k) s = .next u := by
  induction j generalizing s with
  | zero =>
    cases hs
    rwa [Nat.zero_add]
  | succ j ih =>
    obtain ⟨v, hv, hs⟩ := run_succ_eq_next_iff.mp hs
    rw [Nat.succ_add]
    exact run_succ_eq_next_iff.mpr ⟨v, hv, ih hs⟩

/-! ### The request after its lookup -/

/-- Nothing is pending, and the latches of the instance in focus say that instruction `i` is its request's (R26, R74). -/
structure State.LookedUp (s : State) (i : Instr) : Prop where
  nothing_pending : s.agenda = []
  handler_held : s.inst.h = some (instrHandler i)
  sizes_held : ∃ inLen outCap : U32, s.inst.reqInLen = some inLen ∧ s.inst.reqOutCap = some outCap ∧
    inLen.toNat = i.inLen ∧ outCap.toNat = i.outCap

/-- A change that leaves the agenda, the handler latch and the declared sizes alone is none of the request's instruction. -/
theorem State.LookedUp.of_frame {s t : State} {i : Instr} (hs : s.LookedUp i) (ha : t.agenda = s.agenda)
    (hh : t.inst.h = s.inst.h) (hin : t.inst.reqInLen = s.inst.reqInLen) (hout : t.inst.reqOutCap = s.inst.reqOutCap) :
    t.LookedUp i :=
  ⟨ha.trans hs.nothing_pending, hh.trans hs.handler_held, by rw [hin, hout]; exact hs.sizes_held⟩

theorem instr_instrHandler (i : Instr) : (instrHandler i).instr i.inLen i.outCap = some i := by
  cases i <;> rfl

/-- Past the lookup the machine runs the instruction whose handler is latched (R180). -/
theorem State.LookedUp.step_eq_exec {s : State} {i : Instr} (hs : s.LookedUp i) (hserv : s.inst.serving)
    (hp : s.inst.phase ≠ .received .lookup) : step s = exec i s := by
  obtain ⟨inLen, outCap, hin, hout, hi, ho⟩ := hs.sizes_held
  exact stepRunsTheInstructionServed.1 s i hs.nothing_pending
    ⟨hserv, inLen, outCap, hin, hout, .inr ⟨hp, _, hs.handler_held, by rw [hi, ho, instr_instrHandler]⟩⟩

/-! ### From receipt to the latched operands -/

/-- Request `r` has just been received by the instance in focus (R183) with nothing pending; it asks for instruction `i`, with
sizes that pass the gate (R185). -/
structure State.HasReceived (s : State) (r : Request) (i : Instr) : Prop where
  nothing_pending : s.agenda = []
  received : s.inst = Inst.receive s.inst.thread r
  decodes : decode [r.op, r.inLen, r.outCap] = .ok i
  inLen_suffices : (instrHandler i).inMin ≤ r.inLen.toNat
  outCap_suffices : (instrHandler i).outSize ≤ r.outCap.toNat

/-- `s` once the handler is looked up and its operands are latched from the input bytes (R184, R186). -/
def State.operandsLatched (s : State) (h : Handler) (bytes : List Byte) : State :=
  { s with inst := { latchOperands h bytes s.inst with h := some h, phase := .validated .start } }

section
variable {s : State} {r : Request} {i : Instr}

/-- The lookup latches the handler of the instruction that the header decodes to (R184). -/
theorem State.HasReceived.step_lookup (hs : s.HasReceived r i) : step s = .next (s.lookupDone (instrHandler i)) := by
  have hp : s.inst.phase = .received .lookup := congrArg Inst.phase hs.received
  have hserving : s.inst.servingInstr i :=
    ⟨Inst.serving_of_received hp, r.inLen, r.outCap, congrArg Inst.reqInLen hs.received,
      congrArg Inst.reqOutCap hs.received, .inl ⟨hp, r.op, congrArg Inst.reqOp hs.received, hs.decodes⟩⟩
  rw [stepRunsTheInstructionServed.1 s i hs.nothing_pending hserving, exec_eq_serve, serve_of_lookup _ _ _ hp]

theorem State.HasReceived.lookupDone_lookedUp (hs : s.HasReceived r i) : (s.lookupDone (instrHandler i)).LookedUp i := by
  obtain ⟨-, hin, hout⟩ := (decode_eq_ok_iff _ _ _ _).mp hs.decodes
  exact ⟨hs.nothing_pending, rfl, r.inLen, r.outCap, congrArg Inst.reqInLen hs.received,
    congrArg Inst.reqOutCap hs.received, hin, hout⟩

/-- Operand latching writes no latch of the request header (R186). -/
theorem State.HasReceived.operandsLatched_lookedUp (hs : s.HasReceived r i) (bytes : List Byte) :
    (s.operandsLatched (instrHandler i) bytes).LookedUp i := by
  cases i <;> exact hs.lookupDone_lookedUp.of_frame rfl rfl rfl rfl

/-- Three steps after receipt the operands are latched: the lookup, the size gate and the latching (R184 to R186). -/
theorem State.HasReceived.run_to_validated (hs : s.HasReceived r i) {bytes : List Byte}
    (hread : s.callerMem.readBytes r.inBase (instrHandler i).inMin = some bytes) :
    core.run 3 s = .next (s.operandsLatched (instrHandler i) bytes) := by
  obtain ⟨-, hin, hout⟩ := (decode_eq_ok_iff _ _ _ _).mp hs.decodes
  have hfits : sizesShort (instrHandler i) i.inLen i.outCap = false :=
    (sizesShort_eq_false_iff _ _ _).mpr ⟨hin ▸ hs.inLen_suffices, hout ▸ hs.outCap_suffices⟩
  let looked := s.lookupDone (instrHandler i)
  let gated := looked.toPhase (.received .latch)
  have hlooked : looked.LookedUp i := hs.lookupDone_lookedUp
  have hgated : gated.LookedUp i := hlooked.of_frame rfl rfl rfl rfl
  have hgate : step looked = .next gated := by
    rw [hlooked.step_eq_exec (.inl rfl) nofun, exec_of_gate i rfl, sizeGate, hfits]
    rfl
  have hlatch : step gated = .next (s.operandsLatched (instrHandler i) bytes) := by
    rw [hgated.step_eq_exec (.inl rfl) nofun, exec_eq_serve, serve_of_latch _ _ _ rfl]
    refine (latchStep_eq_next _ _ _).mpr ⟨r.inBase, bytes, congrArg Inst.inBuf hs.received, hread, ?_⟩
    cases i <;> rfl
  exact run_succ_eq_next_iff.mpr ⟨_, hs.step_lookup, run_succ_eq_next_iff.mpr ⟨_, hgate,
    run_succ_eq_next_iff.mpr ⟨_, hlatch, rfl⟩⟩⟩

end

/-! ### From the executed handler to the response -/

/-- The instance in focus has executed `i` with the result `image`, of which the first `n` bytes are put out (R190). -/
structure State.PutsOut (s : State) (i : Instr) (base : Nat) (image : List Byte) (n : Nat) : Prop where
  lookedUp : s.LookedUp i
  reached : s.inst.phase = .executed n
  outBuf_held : s.inst.outBuf = some base
  result : ∀ k, resultImage (instrHandler i) s.inst k = k image
  result_length : image.length = (instrHandler i).outSize
  provided : s.provides base (instrHandler i).outSize

section
variable {s : State} {i : Instr} {base n : Nat} {image : List Byte}

theorem State.PutsOut.step_eq_exec (hs : s.PutsOut i base image n) : step s = exec i s := by
  have hserving : s.inst.serving := .inr (.inr (Inst.fsm_of_phase hs.reached))
  exact hs.lookedUp.step_eq_exec hserving (by rw [hs.reached]; nofun)

/-- `s` with byte `n` of the result put out (R62, R190). -/
def State.bytePut (s : State) (base n : Nat) (b : Byte) : State :=
  State.toPhase { s with callerMem := s.callerMem.write (base + n) b } (.executed (n + 1))

theorem resultImage_phase (h : Handler) (m : Inst) (p : Phase) (k : List Byte → Out) :
    resultImage h { m with phase := p } k = resultImage h m k := by
  cases h <;> rfl

/-- Putting out a byte leaves the rest of the result to put out. -/
theorem State.PutsOut.bytePut (hs : s.PutsOut i base image n) (b : Byte) :
    (s.bytePut base n b).PutsOut i base image (n + 1) where
  lookedUp := hs.lookedUp.of_frame rfl rfl rfl rfl
  reached := rfl
  outBuf_held := hs.outBuf_held
  result k := (resultImage_phase _ _ _ k).trans (hs.result k)
  result_length := hs.result_length
  provided k hk := by
    show ((s.callerMem.write (base + n) b).read (base + k)).isSome = true
    rw [Memory.read_write]
    split
    · rfl
    · exact hs.provided k hk

/-- The step puts out the byte of the result that comes next (R190). -/
theorem State.PutsOut.step_byte (hs : s.PutsOut i base image n) {b : Byte} (hb : image[n]? = some b) :
    step s = .next (s.bytePut base n b) := by
  have hlt : n < (instrHandler i).outSize := hs.result_length ▸ (List.getElem?_eq_some_iff.mp hb).1
  rw [hs.step_eq_exec, exec_of_output hs.reached hlt]
  refine (outputByte_eq_next_iff _ _ _ _).mpr ⟨base, image, hs.outBuf_held, hs.result, hs.provided n hlt, ?_⟩
  rw [List.getD_eq_getElem?_getD, hb]
  rfl

/-- The rest of the result is put out in as many steps as it has bytes, and nothing else changes. -/
theorem State.PutsOut.run_rest {rest : List Byte} (hs : s.PutsOut i base image n) (hrest : image.drop n = rest) :
    core.run rest.length s = .next (State.toPhase
      { s with callerMem := s.callerMem.writeBytes (base + n) rest } (.executed (n + rest.length))) := by
  induction rest generalizing s n with
  | nil =>
    have hsame : s.toPhase (.executed n) = s := by rw [← hs.reached]; rfl
    exact congrArg Host.Outcome.next hsame.symm
  | cons b rest ih =>
    have hb : image[n]? = some b := by rw [← Nat.add_zero n, ← List.getElem?_drop, hrest]; rfl
    have htail : image.drop (n + 1) = rest := by rw [← List.drop_drop, hrest]; rfl
    refine run_succ_eq_next_iff.mpr ⟨_, hs.step_byte hb, (ih (hs.bytePut b) htail).trans ?_⟩
    rw [List.length_cons, ← Nat.add_assoc, Nat.add_right_comm n]
    rfl

/-- Once a handler is executed, the steps that put out its result and one more bring the response (R190). -/
theorem State.PutsOut.run_to_response (hs : s.PutsOut i base image 0) :
    core.run ((instrHandler i).outSize + 1) s =
      .next (State.succeed { s with callerMem := s.callerMem.writeBytes base image } (instrHandler i).outSize) := by
  let written := State.toPhase { s with callerMem := s.callerMem.writeBytes base image }
    (.executed (instrHandler i).outSize)
  have hput : core.run (instrHandler i).outSize s = .next written := by
    have hrest := hs.run_rest List.drop_zero
    rwa [hs.result_length, Nat.add_zero, Nat.zero_add] at hrest
  have hwritten : written.LookedUp i := hs.lookedUp.of_frame rfl rfl rfl rfl
  have hlast : step written = .next (written.succeed (instrHandler i).outSize) :=
    (hwritten.step_eq_exec (.inr (.inr rfl)) nofun).trans (exec_of_result_written i rfl)
  exact run_add hput (run_succ_eq_next_iff.mpr ⟨_, hlast, rfl⟩)

end

/-- A whole request, undisturbed: where execution takes `j` steps from the latched operands to the result, the response comes
four steps and one for each byte of the result later (R302; log 8). -/
theorem State.HasReceived.run_to_response {s t : State} {r : Request} {i : Instr} {bytes image : List Byte} {j : Nat}
    (hs : s.HasReceived r i) (hread : s.callerMem.readBytes r.inBase (instrHandler i).inMin = some bytes)
    (hx : core.run j (s.operandsLatched (instrHandler i) bytes) = .next t) (ht : t.PutsOut i r.outBase image 0) :
    core.run (3 + (j + ((instrHandler i).outSize + 1))) s =
      .next (State.succeed { t with callerMem := t.callerMem.writeBytes r.outBase image } (instrHandler i).outSize) :=
  run_add (hs.run_to_validated hread) (run_add hx ht.run_to_response)

/-! ### READ_MSR and WRITE_MSR -/

/-- A whole request that is executed in one step, as both MSR commands are (R210, R212, R302; log 8). -/
theorem State.HasReceived.run_of_one_step {s t : State} {r : Request} {i : Instr} {bytes image : List Byte}
    (hs : s.HasReceived r i) (hread : s.callerMem.readBytes r.inBase (instrHandler i).inMin = some bytes)
    (hx : exec i (s.operandsLatched (instrHandler i) bytes) = .next t) (ht : t.PutsOut i r.outBase image 0) :
    core.run (3 + (1 + ((instrHandler i).outSize + 1))) s =
      .next (State.succeed { t with callerMem := t.callerMem.writeBytes r.outBase image } (instrHandler i).outSize) :=
  have hstep := ((hs.operandsLatched_lookedUp bytes).step_eq_exec (.inr (.inl rfl)) nofun).trans hx
  hs.run_to_response hread (run_succ_eq_next_iff.mpr ⟨t, hstep, rfl⟩) ht

/-- Settles O56: one step executes RDMSR on the address latched; the eight bytes put out are those of the halves, which make
up the value. -/
theorem readMsrRequest : Obligations.ReadMsrRequest := by
  unfold Obligations.ReadMsrRequest
  intro s inBase outBase inLen outCap a v ha hs hin hout hprov hinput hv
  have hrec : s.HasReceived ⟨0x00000001#32, inLen, outCap, inBase, outBase⟩ (.readMsr inLen.toNat outCap.toNat) :=
    ⟨ha, hs, (threeSelectorsDecode inLen outCap).1, hin, hout⟩
  let validated := s.operandsLatched .readMsr (put32 a)
  have haddr : validated.inst.opMsrAddr = some a := congrArg some (le32_append_put32_append [] a [])
  have hexec := (exec_readMsr_of_start inLen.toNat outCap.toNat rfl).trans (executeReadMsr_of_valid haddr hv)
  have hrun := hrec.run_of_one_step (image := readMsrImage (msrLow v) (msrHigh v)) (Memory.readBytes_word hinput) hexec
    { lookedUp := (hrec.operandsLatched_lookedUp (put32 a)).of_frame rfl rfl rfl rfl
      reached := rfl
      outBuf_held := congrArg Inst.outBuf hs
      result := fun _ => rfl
      result_length := rfl
      provided := hprov }
  refine ⟨_, hrun, rfl, rfl, rfl, rfl, fun k hk => ?_, fun b hb => Memory.read_writeBytes_outside _ hb⟩
  have hbyte := readMsrImage_getElem? (msrLow v) (msrHigh v) hk
  rw [← msrValue, msrValue_msrLow_msrHigh] at hbyte
  exact (Memory.read_writeBytes_inside _ _ hk).trans hbyte

/-- Settles O57: one step executes WRMSR on the three words latched; no byte is put out. -/
theorem writeMsrRequest : Obligations.WriteMsrRequest := by
  unfold Obligations.WriteMsrRequest
  intro s inBase outBase inLen outCap a lo hi ha hs hin hinput hv
  have hrec : s.HasReceived ⟨0x00000002#32, inLen, outCap, inBase, outBase⟩ (.writeMsr inLen.toNat outCap.toNat) :=
    ⟨ha, hs, (threeSelectorsDecode inLen outCap).2.1, hin, Nat.zero_le _⟩
  let bytes := put32 a ++ put32 lo ++ put32 hi
  have hread : s.callerMem.readBytes inBase 12 = some bytes :=
    Memory.readBytes_append
      (Memory.readBytes_append (Memory.readBytes_word fun k hk => (hinput k hk).1)
        (Memory.readBytes_word fun k hk => (hinput k hk).2.1))
      (Memory.readBytes_word fun k hk => (hinput k hk).2.2)
  have hvalid : s.portLp.msrValid a = true := (Bool.and_eq_true_iff.mp hv).1
  obtain ⟨-, haccepted⟩ := (Lp.write_accepted_iff _ _ _).mp ⟨hvalid, hv⟩
  obtain ⟨haddr, hlow, hhigh⟩ := le32_three_words a lo hi
  let validated := s.operandsLatched .writeMsr bytes
  have hexec := (exec_writeMsr_of_start (s := validated) inLen.toNat outCap.toNat rfl).trans
    (executeWriteMsr_of_accepted (congrArg some haddr) (congrArg some hlow) (congrArg some hhigh) hvalid haccepted)
  have hrun := hrec.run_of_one_step (image := []) hread hexec
    { lookedUp := (hrec.operandsLatched_lookedUp bytes).of_frame rfl rfl rfl rfl
      reached := rfl
      outBuf_held := congrArg Inst.outBuf hs
      result := fun _ => rfl
      result_length := rfl
      provided := nofun }
  refine ⟨_, hrun, rfl, ?_, rfl, rfl, rfl⟩
  exact (s.msr_setMsr a a (msrValue lo hi) hvalid s.nextLp_lt).trans (if_pos ⟨rfl, rfl⟩)

end Sys2Proof.Machine
end

section
/-! PROOFS. The steps of QUERY_SEGMENT (spec/44_query_segment.md R232 to R241): the whole next state of the selector read, of the
table lookup, of the last byte of either half of the entry, and of the step that puts out a byte. -/

namespace Sys2Proof.Machine

/-! ### The tests -/

/-- A selector is not looked up exactly where resolution is off, TI is 1 or the index is 0 (R233 to R235). -/
theorem noLookup_iff (c : Params) (sel : U16) :
    noLookup c sel = true ↔
      c.resolveDescriptor = false ∨ sel.extractLsb' 2 1 = 1#1 ∨ sel.extractLsb' 3 13 = 0#13 := by
  simp [noLookup, selDecode, or_assoc]

/-- An entry is wide exactly where LONG_MODE is 1 and S is 0 (R237). -/
theorem entryWide_iff (c : Params) (rawLo : U64) :
    entryWide c rawLo = true ↔ c.longMode = true ∧ rawLo.extractLsb' 44 1 = 0#1 := by
  simp [entryWide]

/-- Where the sum of the offsets does not wrap, the test of the limit compares them as numbers (R236, R238). -/
theorem pastLimit_iff (glim : U16) {off n : U64} (hsum : off.toNat + n.toNat < 2 ^ 64) :
    pastLimit glim off n = true ↔ off.toNat + n.toNat > glim.toNat := by
  have hglim : (glim.setWidth 64).toNat = glim.toNat := BitVec.toNat_setWidth_of_le (by omega)
  rw [pastLimit, BitVec.ult_iff_lt, BitVec.lt_def, hglim, BitVec.toNat_add, Nat.mod_eq_of_lt hsum]

/-- The offset at which the entry of a selector is sought (R236). -/
theorem tableOffset_eq (sel : U16) : tableOffset (selDecode sel).index = BitVec.ofNat 64 (entryOffset sel) := by
  apply BitVec.eq_of_toNat_eq
  have hindex := (selDecode sel).index.isLt
  have hoff : entryOffset sel = 8 * (selDecode sel).index.toNat := rfl
  rw [tableOffset, BitVec.toNat_mul, BitVec.toNat_setWidth_of_le (by omega), BitVec.toNat_ofNat, BitVec.toNat_ofNat]
  omega

/-- The test of the limit at the offset of a table entry, which does not wrap (R236, R238). -/
theorem pastLimit_entryOffset_iff (glim sel : U16) {n : U64} (hn : n.toNat < 2 ^ 16) :
    pastLimit glim (BitVec.ofNat 64 (entryOffset sel)) n = true ↔ entryOffset sel + n.toNat > glim.toNat := by
  have hindex := (sel.extractLsb' 3 13).isLt
  have hoff : (BitVec.ofNat 64 (entryOffset sel)).toNat = entryOffset sel := by
    rw [BitVec.toNat_ofNat, entryOffset]
    omega
  rw [pastLimit_iff glim (by rw [hoff, entryOffset]; omega), hoff]

/-! ### The selector read and the table lookup -/

/-- An index below six names a segment register (R231). -/
theorem segIndex_of_lt {v : U16} (hv : v.toNat < 6) : segIndex v = some ⟨v.toNat, hv⟩ := dif_pos hv

/-- Settles O18: the selector of the register that SEG_MAP gives, unresolved where it is not looked up. -/
theorem selectorIsRead : Obligations.SelectorIsRead := by
  unfold Obligations.SelectorIsRead
  intro s inLen outCap v hv hp hi sel
  rw [exec_querySegment_of_index inLen outCap hp hi (segIndex_of_lt hv)]
  obtain ⟨hno, hq⟩ | ⟨hno, hq⟩ := querySelector_cases (s.params.seg ⟨v.toNat, hv⟩) s
  · rw [hq, if_pos ((noLookup_iff s.params sel).mp hno)]
    rfl
  · have hseeks := mt (noLookup_iff s.params sel).mpr (Bool.eq_false_iff.mp hno)
    rw [hq, if_neg hseeks]
    rfl

section
variable {s : State} {sel : U16}

/-- With SGDT next QUERY_SEGMENT looks in the table (R236). -/
theorem exec_querySegment_of_sgdt (inLen outCap : Nat) (hp : s.inst.phase = .validated .sgdt)
    (hsel : s.inst.resSel = some sel) : exec (.querySegment inLen outCap) s = .next (queryTable sel s) := by
  rw [exec_of_validated _ hp, executeStep, instrHandler, Handler.execution, executeQuerySegment, hsel, readLatch_some]

/-- An entry not wholly inside the table is unresolved (R236, R240). -/
theorem queryTable_of_outside (hpast : entryOffset sel + 7 > s.portLp.gdtr.limit.toNat) :
    queryTable sel s = s.drawn.unresolved := by
  have htest := (pastLimit_entryOffset_iff s.portLp.gdtr.limit sel (n := 7#64) (by decide)).mpr hpast
  rw [← tableOffset_eq] at htest
  exact if_pos htest

/-- An entry inside the table is sought at its offset from the table's base (R236, R237). -/
theorem queryTable_of_inside (hpast : ¬ entryOffset sel + 7 > s.portLp.gdtr.limit.toNat) :
    queryTable sel s = s.drawn.toPhase (.validated (.readLo s.portLp.gdtr.limit (BitVec.ofNat 64 (entryOffset sel))
      (MemJob.at (s.portLp.gdtr.base + BitVec.ofNat 64 (entryOffset sel))))) := by
  have htest := mt (pastLimit_entryOffset_iff s.portLp.gdtr.limit sel (n := 7#64) (by decide)).mp hpast
  rw [← tableOffset_eq] at htest ⊢
  exact if_neg htest

end

/-- Settles O19: the lookup in the table of the processor drawn, the entry's offset taken as a number. -/
theorem tableBoundsAreChecked : Obligations.TableBoundsAreChecked := by
  unfold Obligations.TableBoundsAreChecked
  intro s inLen outCap sel hp hsel g off
  rw [exec_querySegment_of_sgdt inLen outCap hp hsel]
  split_ifs with hpast
  · rw [queryTable_of_outside hpast]
    rfl
  · rw [queryTable_of_inside hpast]
    rfl

/-! ### The last byte of a half -/

/-- Eight bytes read little-endian are the bytes put one above the other (R10). -/
theorem le64_eq_append (b0 b1 b2 b3 b4 b5 b6 b7 : Byte) :
    le64 [b0, b1, b2, b3, b4, b5, b6, b7] = b7 ++ b6 ++ b5 ++ b4 ++ b3 ++ b2 ++ b1 ++ b0 := by
  have hassoc (x : U32) {k : Nat} (y : BitVec k) (z : Byte) :
      x ++ (y ++ z) = BitVec.cast (Nat.add_assoc 32 k 8) (x ++ y ++ z) := by
    rw [BitVec.append_assoc]
    rfl
  show (b7 ++ b6 ++ b5 ++ b4) ++ (b3 ++ b2 ++ b1 ++ b0) = b7 ++ b6 ++ b5 ++ b4 ++ b3 ++ b2 ++ b1 ++ b0
  generalize b7 ++ b6 ++ b5 ++ b4 = top
  calc top ++ (b3 ++ b2 ++ b1 ++ b0)
    _ = top ++ (b3 ++ b2 ++ b1) ++ b0 := hassoc top (b3 ++ b2 ++ b1) b0
    _ = top ++ (b3 ++ b2) ++ b1 ++ b0 := congrArg (· ++ b0) (hassoc top (b3 ++ b2) b1)
    _ = top ++ b3 ++ b2 ++ b1 ++ b0 := congrArg (· ++ b1 ++ b0) (hassoc top b3 b2)

/-- The draw of a MemRead is used up where it has none yet, and nothing else changes (R40; log 6). -/
theorem State.drawnFor_eq (s : State) (job : MemJob) :
    s.drawnFor job = { s with
      draws := if job.lp.isNone then s.draws.tail else s.draws
      drawCount := if job.lp.isNone then s.drawCount + 1 else s.drawCount } := by
  unfold State.drawnFor
  split_ifs <;> rfl

section
variable {s : State} {job job' : MemJob}

/-- The eighth byte ends the first MemRead (R124, R237). -/
theorem queryReadLo_of_last (glim : U16) (off : U64) (hr : memReadByte job s = .ok job') (hl : 8 ≤ job'.got.length) :
    queryReadLo glim off job s = queryWidth glim off job.addr (le64 job'.got) (s.drawnFor job) := by
  rw [queryReadLo, hr]
  exact if_neg (Nat.not_lt.mpr hl)

/-- The eighth byte ends the second MemRead, and the wide entry is decoded (R124, R238, R239). -/
theorem queryReadHi_of_last (rawLo : U64) (hr : memReadByte job s = .ok job') (hl : 8 ≤ job'.got.length) :
    queryReadHi rawLo job s = (s.drawnFor job).resolved rawLo (le64 job'.got) 1#1 := by
  rw [queryReadHi, hr]
  exact if_neg (Nat.not_lt.mpr hl)

/-- The byte read after seven others makes them eight (R124; log 20). -/
theorem memReadByte_of_eighth {b0 b1 b2 b3 b4 b5 b6 b : Byte} (hgot : job.got = [b0, b1, b2, b3, b4, b5, b6])
    (hb : (s.env.lp (job.lp.getD s.nextLp)).mem.read (job.addr + 7#64).toNat = some b) :
    memReadByte job s =
      .ok { job with lp := some (job.server s), got := [b0, b1, b2, b3, b4, b5, b6, b] } := by
  have haddr : job.nextAddr = job.addr + 7#64 := by rw [MemJob.nextAddr, hgot]; rfl
  exact (memReadByte_eq_ok _ _ _).mpr ⟨b, haddr ▸ hb, by rw [hgot]; rfl⟩

end

section
variable {glim : U16} {off ea rawLo : U64} {s : State}

/-- A narrow entry is decoded without a second half (R237, R239). -/
theorem queryWidth_of_narrow (hw : ¬ entryWide s.params rawLo = true) :
    queryWidth glim off ea rawLo s = s.resolved rawLo 0#64 0#1 :=
  if_neg hw

/-- A wide entry whose second half lies past the limit is unresolved (R238, R240). -/
theorem queryWidth_of_outside (hw : entryWide s.params rawLo = true) (hpast : pastLimit glim off 15#64 = true) :
    queryWidth glim off ea rawLo s = s.unresolved :=
  (if_pos hw).trans (if_pos hpast)

/-- Any other wide entry has its second half read, eight bytes further on (R238). -/
theorem queryWidth_of_inside (hw : entryWide s.params rawLo = true) (hpast : ¬ pastLimit glim off 15#64 = true) :
    queryWidth glim off ea rawLo s = s.toPhase (.validated (.readHi rawLo (MemJob.at (ea + 8#64)))) :=
  (if_pos hw).trans (if_neg hpast)

end

/-- Settles O21: the three cases of the width, with the draw of the MemRead used up. -/
theorem firstHalfIsFinished : Obligations.FirstHalfIsFinished := by
  unfold Obligations.FirstHalfIsFinished
  intro s inLen outCap job glim off b0 b1 b2 b3 b4 b5 b6 b hgot hoff hp hb rawLo
  have hraw : le64 [b0, b1, b2, b3, b4, b5, b6, b] = rawLo := le64_eq_append b0 b1 b2 b3 b4 b5 b6 b
  have hlimit : pastLimit glim off 15#64 = true ↔ off.toNat + 15 > glim.toNat :=
    pastLimit_iff glim (by simp; omega)
  have hwidth : entryWide (s.drawnFor job).params rawLo = true ↔
      s.params.longMode = true ∧ rawLo.extractLsb' 44 1 = 0#1 :=
    State.drawnFor_params s job ▸ entryWide_iff _ _
  rw [exec_querySegment_of_readLo _ _ hp, queryReadLo_of_last glim off (memReadByte_of_eighth hgot hb) le_rfl, hraw]
  by_cases hwide : s.params.longMode = true ∧ rawLo.extractLsb' 44 1 = 0#1
  · by_cases hpast : off.toNat + 15 > glim.toNat
    · rw [if_pos hwide, if_pos hpast, queryWidth_of_outside (hwidth.mpr hwide) (hlimit.mpr hpast), State.drawnFor_eq]
      rfl
    · rw [if_pos hwide, if_neg hpast, queryWidth_of_inside (hwidth.mpr hwide) (mt hlimit.mp hpast), State.drawnFor_eq]
      rfl
  · rw [if_neg hwide, queryWidth_of_narrow (mt hwidth.mp hwide), State.drawnFor_eq]
    rfl

/-- Settles O22: the second MemRead ends with the wide decode, its draw used up. -/
theorem secondHalfIsFinished : Obligations.SecondHalfIsFinished := by
  unfold Obligations.SecondHalfIsFinished
  intro s inLen outCap job rawLo b0 b1 b2 b3 b4 b5 b6 b hgot hp hb rawHi
  have hraw : le64 [b0, b1, b2, b3, b4, b5, b6, b] = rawHi := le64_eq_append b0 b1 b2 b3 b4 b5 b6 b
  rw [exec_querySegment_of_readHi _ _ hp, queryReadHi_of_last rawLo (memReadByte_of_eighth hgot hb) le_rfl, hraw,
    State.drawnFor_eq]
  rfl

/-! ### The result -/

/-- With all five of its result latches written, QUERY_SEGMENT has a result to put out (R190, R241). -/
theorem resultImage_querySegment {m : Inst} {sel : U16} {r : BitVec 1} {v : View} {rawLo rawHi : U64}
    (hsel : m.resSel = some sel) (hr : m.resResolved = some r) (hv : m.resView = some v) (hlo : m.resRawLo = some rawLo)
    (hhi : m.resRawHi = some rawHi) (k : List Byte → Out) :
    resultImage .querySegment m k = k (querySegmentImage sel r v rawLo rawHi) := by
  rw [resultImage, hsel, hr, hv, hlo, hhi]
  rfl

/-- Settles O23: the byte put out is the image's, which has forty. -/
theorem querySegmentWritesItsResult : Obligations.QuerySegmentWritesItsResult := by
  unfold Obligations.QuerySegmentWritesItsResult
  intro s inLen outCap n base sel r v rawLo rawHi hp hn hb hsel hr hv hlo hhi
  have himage := resultImage_querySegment hsel hr hv hlo hhi
  have hlength : n < (querySegmentImage sel r v rawLo rawHi).length := hn
  have hbyte := List.getElem?_eq_getElem hlength
  obtain ⟨hput, hmissing⟩ := exec_puts_out_byte (.querySegment inLen outCap) hp hn hb himage hbyte
  refine ⟨fun hread => ?_, hmissing⟩
  obtain ⟨t, ht⟩ := hput hread
  exact ⟨t, _, hbyte, ht⟩

end Sys2Proof.Machine
end

section
/-! PROOFS. Whole QUERY_SEGMENT requests, undisturbed (spec/44_query_segment.md R230 to R242; spec/70_reset_and_hazards.md
R302): the run of a MemRead, said once for both halves of an entry; the run to the decision of the width; and from every end
of the execution the run to the response. -/

namespace Sys2Proof.Machine

/-! ### The draws -/

/-- A processor at the head of the draws is the one drawn (R40; log 5). -/
theorem State.nextLp_of_draws {s : State} {p : Nat} (hd : ∃ ds, s.draws = p :: ds) (hp : p < s.env.numLp) :
    s.nextLp = p := by
  obtain ⟨ds, hd⟩ := hd
  rw [State.nextLp, hd, List.headD_cons, Nat.mod_eq_of_lt hp]

/-! ### Steps in VALIDATED -/

/-- The width is decided alike wherever the instance stands (R237). -/
theorem queryWidth_toPhase (glim : U16) (off ea rawLo : U64) (s : State) (p : Phase) :
    queryWidth glim off ea rawLo (s.toPhase p) = queryWidth glim off ea rawLo s := by
  rw [queryWidth, queryWidth, State.toPhase_params]
  split_ifs <;> rfl

/-- Moved on to a step of execution, a request past its lookup is still one (R180). -/
theorem State.LookedUp.toPhase {s : State} {i : Instr} (hs : s.LookedUp i) (p : Phase) : (s.toPhase p).LookedUp i :=
  hs.of_frame rfl rfl rfl rfl

theorem State.LookedUp.drawn {s : State} {i : Instr} (hs : s.LookedUp i) : s.drawn.LookedUp i :=
  hs.of_frame rfl rfl rfl rfl

/-- In VALIDATED the machine takes the step that the instruction's execution comes to next. -/
theorem State.LookedUp.run_one {s t : State} {i : Instr} {w : ExecStep} (hs : s.LookedUp i)
    (hp : s.inst.phase = .validated w) (hx : exec i s = .next t) : core.run 1 s = .next t := by
  have hstep : step s = .next t := (hs.step_eq_exec (.inr (.inl (Inst.fsm_of_phase hp))) (by rw [hp]; nofun)).trans hx
  exact run_succ_eq_next_iff.mpr ⟨t, hstep, rfl⟩

/-! ### A MemRead -/

/-- The two MemReads of an execution, each with what it keeps beside the MemRead's place (R237, R238). -/
inductive EntryHalf where
  | lo (glim : U16) (off : U64)
  | hi (rawLo : U64)

/-- The step of execution in which the next byte of a half is read. -/
def EntryHalf.reading : EntryHalf → MemJob → ExecStep
  | .lo glim off, job => .readLo glim off job
  | .hi rawLo, job => .readHi rawLo job

/-- The MemRead of `raw` at `addr` on processor `p` when `n` of its bytes have been read (R124; log 20). -/
def MemJob.partway (addr : U64) (p : Nat) (raw : U64) (n : Nat) : MemJob where
  addr := addr
  lp := some p
  got := (List.range n).map fun k => raw.extractLsb' (8 * k) 8

theorem MemJob.partway_length (addr : U64) (p : Nat) (raw : U64) (n : Nat) :
    (MemJob.partway addr p raw n).got.length = n := by
  rw [MemJob.partway, List.length_map, List.length_range]

/-- The eight bytes of a value, read little-endian, are the value (R10). -/
theorem le64_partway (addr : U64) (p : Nat) (raw : U64) : le64 (MemJob.partway addr p raw 8).got = raw := by
  refine (le64_eq_append _ _ _ _ _ _ _ _).trans ?_
  dsimp only
  repeat rw [BitVec.extractLsb'_append_extractLsb'_eq_extractLsb' (by omega)]
  exact BitVec.extractLsb'_eq_self

section
variable {s : State} {addr raw : U64}

/-- The first byte of a MemRead draws the processor that serves it (R40, R124). -/
theorem memReadByte_at (hheld : (s.env.lp s.nextLp).holds addr raw) :
    memReadByte (MemJob.at addr) s = .ok (MemJob.partway addr s.nextLp raw 1) :=
  (memReadByte_eq_ok _ _ _).mpr ⟨_, hheld 0 (by decide), rfl⟩

/-- Each further byte comes from the same processor (R124; log 6). -/
theorem memReadByte_partway {p n : Nat} (hheld : (s.env.lp p).holds addr raw) (hn : n < 8) :
    memReadByte (MemJob.partway addr p raw n) s = .ok (MemJob.partway addr p raw (n + 1)) := by
  refine (memReadByte_eq_ok _ _ _).mpr ⟨raw.extractLsb' (8 * n) 8, ?_, ?_⟩
  · rw [MemJob.nextAddr, MemJob.partway_length]
    exact hheld n hn
  · rw [MemJob.partway, MemJob.partway, List.range_succ, List.map_append]
    rfl

end

section
variable {s : State} {inLen outCap : Nat} {addr raw : U64} {half : EntryHalf}

/-- A byte of either half that is not the eighth (R124). -/
theorem exec_reads_byte {job job' : MemJob} (hp : s.inst.phase = .validated (half.reading job))
    (hr : memReadByte job s = .ok job') (hl : job'.got.length < 8) :
    exec (.querySegment inLen outCap) s = .next ((s.drawnFor job).toPhase (.validated (half.reading job'))) := by
  cases half with
  | lo glim off => rw [exec_querySegment_of_readLo _ _ hp, queryReadLo_of_ok glim off hr hl]; rfl
  | hi rawLo => rw [exec_querySegment_of_readHi _ _ hp, queryReadHi_of_ok rawLo hr hl]; rfl

/-- A MemRead comes to any byte but its last in as many steps as it has read bytes, with one draw used up (R124, R302). -/
theorem State.LookedUp.run_memRead (hs : s.LookedUp (.querySegment inLen outCap))
    (hp : s.inst.phase = .validated (half.reading (MemJob.at addr)))
    (hheld : (s.env.lp s.nextLp).holds addr raw) {n : Nat} (hn : n < 7) :
    core.run (n + 1) s =
      .next (s.drawn.toPhase (.validated (half.reading (MemJob.partway addr s.nextLp raw (n + 1))))) := by
  induction n with
  | zero => exact hs.run_one hp (exec_reads_byte hp (memReadByte_at hheld) (by rw [MemJob.partway_length]; omega))
  | succ n ih =>
    have hnext := memReadByte_partway (s := s.drawn.toPhase
      (.validated (half.reading (MemJob.partway addr s.nextLp raw (n + 1))))) hheld (by omega : n + 1 < 8)
    have hbyte := (hs.drawn.toPhase _).run_one rfl
      (exec_reads_byte rfl hnext (by rw [MemJob.partway_length]; omega))
    exact run_add (ih (by omega)) hbyte

/-- The first MemRead takes eight steps, the last of which decides the width (R237). -/
theorem State.LookedUp.run_readLo {glim : U16} {off : U64} (hs : s.LookedUp (.querySegment inLen outCap))
    (hp : s.inst.phase = .validated (.readLo glim off (MemJob.at addr)))
    (hheld : (s.env.lp s.nextLp).holds addr raw) :
    core.run 8 s = .next (queryWidth glim off addr raw s.drawn) := by
  have hseven := hs.run_memRead (half := .lo glim off) hp hheld (n := 6) (by decide)
  let seven := s.drawn.toPhase (.validated (.readLo glim off (MemJob.partway addr s.nextLp raw 7)))
  have hlast : queryReadLo glim off (MemJob.partway addr s.nextLp raw 7) seven =
      queryWidth glim off addr (le64 (MemJob.partway addr s.nextLp raw 8).got) seven :=
    queryReadLo_of_last glim off (memReadByte_partway hheld (by decide)) (MemJob.partway_length _ _ _ _).ge
  rw [le64_partway, queryWidth_toPhase] at hlast
  have heighth := (exec_querySegment_of_readLo inLen outCap rfl).trans (congrArg Host.Outcome.next hlast)
  exact run_add hseven ((hs.drawn.toPhase _).run_one rfl heighth)

/-- The second MemRead takes eight steps and ends execution (R238, R239). -/
theorem State.LookedUp.run_readHi {rawLo : U64} (hs : s.LookedUp (.querySegment inLen outCap))
    (hp : s.inst.phase = .validated (.readHi rawLo (MemJob.at addr)))
    (hheld : (s.env.lp s.nextLp).holds addr raw) :
    core.run 8 s = .next (s.drawn.resolved rawLo raw 1#1) := by
  have hseven := hs.run_memRead (half := .hi rawLo) hp hheld (n := 6) (by decide)
  let seven := s.drawn.toPhase (.validated (.readHi rawLo (MemJob.partway addr s.nextLp raw 7)))
  have hlast : queryReadHi rawLo (MemJob.partway addr s.nextLp raw 7) seven =
      seven.resolved rawLo (le64 (MemJob.partway addr s.nextLp raw 8).got) 1#1 :=
    queryReadHi_of_last rawLo (memReadByte_partway hheld (by decide)) (MemJob.partway_length _ _ _ _).ge
  rw [le64_partway] at hlast
  have heighth := (exec_querySegment_of_readHi inLen outCap rfl).trans (congrArg Host.Outcome.next hlast)
  exact run_add hseven ((hs.drawn.toPhase _).run_one rfl heighth)

end

/-! ### From receipt to the selector -/

/-- `s` once its QUERY_SEGMENT is looked up and the index `v` is latched (R184, R186). -/
def State.queryLatched (s : State) (v : U16) : State := s.operandsLatched .querySegment (put16 v)

/-- `s` once a processor is drawn and the selector `sel` is latched (R232). -/
def State.selectorLatched (s : State) (sel : U16) : State :=
  { s.drawn with inst := { s.inst with resSel := some sel } }

/-- Where the QUERY_SEGMENT that stood in `s` has come in its execution: `sel` is latched, and outside the instance only the
draws have changed since `s` (R230). -/
structure State.Selected (s : State) (outBase : Nat) (sel : U16) (x : State) : Prop where
  lookedUp : ∃ inLen outCap, x.LookedUp (.querySegment inLen outCap)
  outBuf_held : x.inst.outBuf = some outBase
  selector_held : x.inst.resSel = some sel
  params_same : x.params = s.params
  env_same : x.env = s.env
  others_same : x.others = s.others
  callerMem_same : x.callerMem = s.callerMem

section
variable {s x : State} {inBase outBase : Nat} {v sel : U16}

theorem State.Selected.toPhase (hx : s.Selected outBase sel x) (p : Phase) : s.Selected outBase sel (x.toPhase p) :=
  { hx with lookedUp := let ⟨_, _, hl⟩ := hx.lookedUp; ⟨_, _, hl.toPhase p⟩ }

theorem State.Selected.drawn (hx : s.Selected outBase sel x) : s.Selected outBase sel x.drawn :=
  { hx with lookedUp := let ⟨_, _, hl⟩ := hx.lookedUp; ⟨_, _, hl.drawn⟩ }

/-- A query just received is a request with sizes that pass the gate (R185). -/
theorem State.hasQuery.exists_received (hq : s.hasQuery inBase outBase v) :
    ∃ inLen outCap, s.HasReceived ⟨Config.opcQuerySegment, inLen, outCap, inBase, outBase⟩
      (.querySegment inLen.toNat outCap.toNat) := by
  obtain ⟨ha, ⟨inLen, outCap, hs, hin, hout⟩, -, -⟩ := hq
  exact ⟨inLen, outCap, ha, hs, (threeSelectorsDecode inLen outCap).2.2, hin, hout⟩

/-- Three steps after receipt the index is latched (R184 to R186). -/
theorem State.hasQuery.run_to_latched (hq : s.hasQuery inBase outBase v) : core.run 3 s = .next (s.queryLatched v) := by
  obtain ⟨inLen, outCap, hrec⟩ := hq.exists_received
  obtain ⟨-, -, -, hinput⟩ := hq
  exact hrec.run_to_validated (Memory.readBytes_of_read hinput)

/-- With the index latched, the first step of the execution reads the selector (R232). -/
theorem State.hasQuery.run_selector (hq : s.hasQuery inBase outBase v) (hv : v.toNat < 6) :
    core.run 1 (s.queryLatched v) = .next (querySelector (s.params.seg ⟨v.toNat, hv⟩) (s.queryLatched v)) := by
  obtain ⟨inLen, outCap, hrec⟩ := hq.exists_received
  have hlatched : (s.queryLatched v).inst.opSegIdx = some v := congrArg some (le16_put16 v)
  exact (hrec.operandsLatched_lookedUp (put16 v)).run_one rfl
    (exec_querySegment_of_index _ _ rfl hlatched (segIndex_of_lt hv))

theorem State.hasQuery.selected (hq : s.hasQuery inBase outBase v) (sel : U16) :
    s.Selected outBase sel ((s.queryLatched v).selectorLatched sel) := by
  obtain ⟨inLen, outCap, hrec⟩ := hq.exists_received
  exact
    { lookedUp := ⟨_, _, (hrec.operandsLatched_lookedUp (put16 v)).of_frame rfl rfl rfl rfl⟩
      outBuf_held := congrArg Inst.outBuf hrec.received
      selector_held := rfl
      params_same := rfl
      env_same := rfl
      others_same := rfl
      callerMem_same := rfl }

/-! ### From the executed query to the response -/

/-- From the end of an execution of `j` steps the response comes in R302's count (R190, R241). -/
theorem State.hasQuery.answered {t : State} {i : Instr} {image : List Byte} {j : Nat} (hq : s.hasQuery inBase outBase v)
    (hx : core.run j (s.queryLatched v) = .next t) (hput : t.PutsOut i outBase image 0)
    (hi : instrHandler i = .querySegment) (ht : s.Selected outBase sel t) :
    ∃ u, core.run (3 + (j + 41)) s = .next u ∧ s.queryAnswered u outBase image := by
  have hlength : image.length = 40 := by rw [hput.result_length, hi]; rfl
  have hresponse := hput.run_to_response
  rw [hi] at hresponse
  refine ⟨_, run_add hq.run_to_latched (run_add hx hresponse), rfl, ht.env_same, ht.others_same,
    fun k hk => ?inside, fun b hb => ?outside⟩
  case inside => exact Memory.read_writeBytes_inside t.callerMem outBase (hlength ▸ hk)
  case outside =>
    rw [← ht.callerMem_same]
    exact Memory.read_writeBytes_outside t.callerMem (hlength ▸ hb)

/-- A query whose result latches are written has the forty bytes of R97 to put out (R241). -/
theorem State.hasQuery.exists_putsOut {t : State} {r : BitVec 1} {view : View} {rawLo rawHi : U64}
    (hq : s.hasQuery inBase outBase v) (ht : s.Selected outBase sel t) (hp : t.inst.phase = .executed 0)
    (hr : t.inst.resResolved = some r) (hview : t.inst.resView = some view) (hlo : t.inst.resRawLo = some rawLo)
    (hhi : t.inst.resRawHi = some rawHi) :
    ∃ inLen outCap, t.PutsOut (.querySegment inLen outCap) outBase (querySegmentImage sel r view rawLo rawHi) 0 := by
  obtain ⟨-, -, hprov, -⟩ := hq
  obtain ⟨inLen, outCap, hl⟩ := ht.lookedUp
  exact ⟨inLen, outCap,
    { lookedUp := hl
      reached := hp
      outBuf_held := ht.outBuf_held
      result := resultImage_querySegment ht.selector_held hr hview hlo hhi
      result_length := rfl
      provided := by rw [State.provides, ht.callerMem_same]; exact hprov }⟩

theorem querySegmentImage_unresolved (sel : U16) :
    querySegmentImage sel 0#1 View.zero 0#64 0#64 = put16 sel ++ List.replicate 38 0#8 := rfl

/-- The response to a query left unresolved: the selector and zeros (R240, R241). -/
theorem State.hasQuery.answered_unresolved {j : Nat} (hq : s.hasQuery inBase outBase v)
    (hx : core.run j (s.queryLatched v) = .next x.unresolved) (hsel : s.Selected outBase sel x) :
    ∃ u, core.run (3 + (j + 41)) s = .next u ∧
      s.queryAnswered u outBase (put16 sel ++ List.replicate 38 0#8) := by
  obtain ⟨inLen, outCap, hl⟩ := hsel.lookedUp
  have ht : s.Selected outBase sel x.unresolved := { hsel with lookedUp := ⟨_, _, hl.of_frame rfl rfl rfl rfl⟩ }
  obtain ⟨_, _, hput⟩ := hq.exists_putsOut ht rfl rfl rfl rfl rfl
  exact querySegmentImage_unresolved sel ▸ hq.answered hx hput rfl ht

/-- The response to a query resolved: the selector, the decode and the raw entry (R239, R241). -/
theorem State.hasQuery.answered_resolved {j : Nat} {rawLo rawHi : U64} {wide : BitVec 1}
    (hq : s.hasQuery inBase outBase v) (hx : core.run j (s.queryLatched v) = .next (x.resolved rawLo rawHi wide))
    (hsel : s.Selected outBase sel x) :
    ∃ u, core.run (3 + (j + 41)) s = .next u ∧ s.queryAnswered u outBase
      (querySegmentImage sel 1#1 (decodeDescriptor rawLo rawHi wide) rawLo rawHi) := by
  obtain ⟨inLen, outCap, hl⟩ := hsel.lookedUp
  have ht : s.Selected outBase sel (x.resolved rawLo rawHi wide) :=
    { hsel with lookedUp := ⟨_, _, hl.of_frame rfl rfl rfl rfl⟩ }
  obtain ⟨_, _, hput⟩ := hq.exists_putsOut ht rfl rfl rfl rfl rfl
  exact hq.answered hx hput rfl ht

/-! ### The execution -/

/-- A selector sought is none that goes unresolved without a look at the table (R233 to R235). -/
theorem State.seeks.noLookup_eq_false (hs : s.seeks sel) : noLookup s.params sel = false := by
  obtain ⟨hresolve, hti, hindex⟩ := hs
  refine Bool.eq_false_iff.mpr (mt (noLookup_iff _ _).mp ?_)
  rw [hresolve, hti]
  simp [hindex]

/-- A selector that is not looked up ends execution in its first step (R233 to R235, R240). -/
theorem State.hasQuery.run_without_lookup (hq : s.hasQuery inBase outBase v) (hv : v.toNat < 6)
    (hsel : (s.env.lp s.nextLp).seg (s.params.segMap[v.toNat]'hv) = sel) (hno : noLookup s.params sel = true) :
    core.run 1 (s.queryLatched v) = .next ((s.queryLatched v).selectorLatched sel).unresolved := by
  rw [hq.run_selector hv]
  subst hsel
  exact congrArg Host.Outcome.next (if_pos hno)

/-- A selector that is looked up leaves SGDT next (R236). -/
theorem State.hasQuery.run_to_table (hq : s.hasQuery inBase outBase v) (hv : v.toNat < 6)
    (hsel : (s.env.lp s.nextLp).seg (s.params.segMap[v.toNat]'hv) = sel) (hseeks : s.seeks sel) :
    core.run 1 (s.queryLatched v) =
      .next (((s.queryLatched v).selectorLatched sel).toPhase (.validated .sgdt)) := by
  rw [hq.run_selector hv]
  have hno := hseeks.noLookup_eq_false
  subst hsel
  exact congrArg Host.Outcome.next (if_neg (Bool.eq_false_iff.mp hno))

/-- With SGDT next, the step of the execution is the table lookup (R236). -/
theorem State.Selected.run_table (hx : s.Selected outBase sel x) (hp : x.inst.phase = .validated .sgdt) :
    core.run 1 x = .next (queryTable sel x) := by
  obtain ⟨inLen, outCap, hl⟩ := hx.lookedUp
  exact hl.run_one hp (exec_querySegment_of_sgdt inLen outCap hp hx.selector_held)

/-- Two steps bring the table lookup of a selector sought, run on the processor drawn second (R236, R242). -/
theorem State.hasQuery.run_table {p1 p2 : Nat} (hq : s.hasQuery inBase outBase v) (hv : v.toNat < 6)
    (hd : ∃ ds, s.draws = p1 :: p2 :: ds) (hp1 : p1 < s.env.numLp) (hp2 : p2 < s.env.numLp)
    (hsel : (s.env.lp p1).seg (s.params.segMap[v.toNat]'hv) = sel) (hseeks : s.seeks sel) :
    ∃ x, s.Selected outBase sel x ∧ x.portLp = s.env.lp p2 ∧ x.draws = s.draws.tail ∧
      core.run 2 (s.queryLatched v) = .next (queryTable sel x) := by
  obtain ⟨ds, hd⟩ := hd
  have hfirst : s.nextLp = p1 := State.nextLp_of_draws ⟨_, hd⟩ hp1
  rw [← hfirst] at hsel
  let x := ((s.queryLatched v).selectorLatched sel).toPhase (.validated .sgdt)
  have hx : s.Selected outBase sel x := (hq.selected sel).toPhase _
  have hsecond : x.nextLp = p2 := State.nextLp_of_draws ⟨ds, congrArg List.tail hd⟩ hp2
  exact ⟨x, hx, congrArg x.env.lp hsecond, rfl, run_add (hq.run_to_table hv hsel hseeks) (hx.run_table rfl)⟩

/-- Ten steps bring an entry inside the table to the decision of its width, its first half read on the processor drawn third
(R236, R237, R242). -/
theorem State.hasQuery.run_to_width {p1 p2 p3 : Nat} {rawLo : U64} (hq : s.hasQuery inBase outBase v)
    (hv : v.toNat < 6) (hd : ∃ ds, s.draws = p1 :: p2 :: p3 :: ds) (hp1 : p1 < s.env.numLp) (hp2 : p2 < s.env.numLp)
    (hp3 : p3 < s.env.numLp) (hsel : (s.env.lp p1).seg (s.params.segMap[v.toNat]'hv) = sel) (hseeks : s.seeks sel)
    (hlimit : entryOffset sel + 7 ≤ (s.env.lp p2).gdtr.limit.toNat)
    (hheld : (s.env.lp p3).holds ((s.env.lp p2).gdtr.base + BitVec.ofNat 64 (entryOffset sel)) rawLo) :
    ∃ y, s.Selected outBase sel y ∧ y.draws = s.draws.tail.tail.tail ∧
      core.run 10 (s.queryLatched v) = .next (queryWidth (s.env.lp p2).gdtr.limit (BitVec.ofNat 64 (entryOffset sel))
        ((s.env.lp p2).gdtr.base + BitVec.ofNat 64 (entryOffset sel)) rawLo y) := by
  obtain ⟨ds, hd⟩ := hd
  obtain ⟨x, hx, hport, hdraws, hrun⟩ := hq.run_table hv ⟨_, hd⟩ hp1 hp2 hsel hseeks
  rw [queryTable_of_inside (by rw [hport]; exact Nat.not_lt.mpr hlimit), hport] at hrun
  let z := x.drawn.toPhase (.validated (.readLo (s.env.lp p2).gdtr.limit (BitVec.ofNat 64 (entryOffset sel))
    (MemJob.at ((s.env.lp p2).gdtr.base + BitVec.ofNat 64 (entryOffset sel)))))
  have hz : s.Selected outBase sel z := hx.drawn.toPhase _
  have hzdraws : z.draws = s.draws.tail.tail := congrArg List.tail hdraws
  have hthird : z.nextLp = p3 := State.nextLp_of_draws ⟨ds, by rw [hzdraws, hd]; rfl⟩ (hz.env_same ▸ hp3)
  obtain ⟨inLen, outCap, hl⟩ := hz.lookedUp
  have hhalf := hl.run_readLo rfl (by rw [hz.env_same, hthird]; exact hheld)
  exact ⟨z.drawn, hz.drawn, congrArg List.tail hzdraws, run_add hrun hhalf⟩

end

/-! ### The statements -/

/-- Settles O58: execution ends unresolved at the selector, at the table or at the width. -/
theorem unresolvedQueryRequest : Obligations.UnresolvedQueryRequest := by
  unfold Obligations.UnresolvedQueryRequest
  intro s inBase outBase p1 p2 p3 v sel hv hq hp1 hp2 hp3 hsel limit zeros
  refine ⟨fun hdraw hno => ?selector, fun hd hseeks hpast => ?table,
    fun rawLo hd hseeks hlimit hpast hheld hlong hs => ?width⟩
  case selector =>
    have hrun := hq.run_without_lookup hv (hdraw ▸ hsel) ((noLookup_iff _ _).mpr hno)
    exact hq.answered_unresolved (j := 1) hrun (hq.selected sel)
  case table =>
    obtain ⟨x, hx, hport, -, hrun⟩ := hq.run_table hv hd hp1 hp2 hsel hseeks
    rw [queryTable_of_outside (by rw [hport]; exact hpast)] at hrun
    exact hq.answered_unresolved (j := 2) hrun hx.drawn
  case width =>
    obtain ⟨y, hy, -, hrun⟩ := hq.run_to_width hv hd hp1 hp2 hp3 hsel hseeks hlimit hheld
    have hwide : entryWide y.params rawLo = true := (entryWide_iff _ _).mpr ⟨hy.params_same ▸ hlong, hs⟩
    rw [queryWidth_of_outside hwide ((pastLimit_entryOffset_iff _ sel (by decide)).mpr hpast)] at hrun
    exact hq.answered_unresolved (j := 10) hrun hy

/-- Settles O59: execution ends with the narrow decode when the first half is read. -/
theorem narrowQueryRequest : Obligations.NarrowQueryRequest := by
  unfold Obligations.NarrowQueryRequest
  intro s inBase outBase p1 p2 p3 v sel hv rawLo hq hp1 hp2 hp3 hd hsel hseeks hlimit hheld hnarrow
  obtain ⟨y, hy, -, hrun⟩ := hq.run_to_width hv hd hp1 hp2 hp3 hsel hseeks hlimit hheld
  have hwide : ¬ entryWide y.params rawLo = true := by
    rw [entryWide_iff, hy.params_same]
    rintro ⟨hlong, hs⟩
    obtain hlong' | hs' := hnarrow
    · exact absurd (hlong'.symm.trans hlong) (by decide)
    · exact absurd (hs'.symm.trans hs) (by decide)
  rw [queryWidth_of_narrow hwide] at hrun
  exact hq.answered_resolved (j := 10) hrun hy

/-- Settles O60: execution ends with the wide decode when both halves are read. -/
theorem wideQueryRequest : Obligations.WideQueryRequest := by
  unfold Obligations.WideQueryRequest
  intro s inBase outBase p1 p2 p3 p4 v sel hv rawLo rawHi hq hp1 hp2 hp3 hp4 hd hsel hseeks hlimit hlo hhi hlong hs
  obtain ⟨ds, hd⟩ := hd
  obtain ⟨y, hy, hdraws, hrun⟩ := hq.run_to_width hv ⟨_, hd⟩ hp1 hp2 hp3 hsel hseeks (by omega) hlo
  have hwide : entryWide y.params rawLo = true := (entryWide_iff _ _).mpr ⟨hy.params_same ▸ hlong, hs⟩
  have hinside := mt (pastLimit_entryOffset_iff (s.env.lp p2).gdtr.limit sel (n := 15#64) (by decide)).mp
    (Nat.not_lt.mpr hlimit)
  rw [queryWidth_of_inside hwide hinside] at hrun
  have hz := hy.toPhase (.validated (.readHi rawLo
    (MemJob.at ((s.env.lp p2).gdtr.base + BitVec.ofNat 64 (entryOffset sel) + 8#64))))
  have hfourth : y.nextLp = p4 := State.nextLp_of_draws ⟨ds, by rw [hdraws, hd]; rfl⟩ (hy.env_same ▸ hp4)
  obtain ⟨inLen, outCap, hl⟩ := hz.lookedUp
  have hhalf := hl.run_readHi (raw := rawHi) rfl (by rw [hz.env_same]; exact hfourth.symm ▸ hhi)
  exact hq.answered_resolved (j := 18) (run_add hrun hhalf) hz.drawn

end Sys2Proof.Machine
end

section
/-! PROOFS. The fault state (spec/60_exceptions.md R262, R269): a faulted instance has no step, and no step of any agent but the
reset touches it. -/

namespace Sys2Proof.Machine

/-! ### A faulted instance has no step -/

/-- A request of any handler at a faulted instance answers the fault (R262). -/
theorem serve_of_faulted {s : State} {h : Handler} {r : FaultRecord} (inLen outCap : Nat)
    (execute : ExecStep → State → Out) (hp : s.inst.phase = .faulted r) :
    serve h inLen outCap execute s = .fault (.hwFault r) := by
  unfold serve
  rw [hp]

/-- Every instruction at a faulted instance answers the fault (R262, R269). -/
theorem exec_of_faulted {s : State} {r : FaultRecord} (i : Instr) (hp : s.inst.phase = .faulted r) :
    exec i s = .fault (.hwFault r) := by
  rw [exec_eq_serve, serve_of_faulted _ _ _ hp]

/-- A step asked of a faulted instance answers the fault (R262, R269). -/
theorem stepInst_of_faulted {s : State} {r : FaultRecord} (hp : s.inst.phase = .faulted r) :
    stepInst s = .fault (.hwFault r) := by
  unfold stepInst
  rw [hp]

/-- Settles O41: in focus and by a run, the instance asked for a step is the faulted one. -/
theorem faultedInstanceHasNoStep : Obligations.FaultedInstanceHasNoStep := by
  unfold Obligations.FaultedInstanceHasNoStep
  refine fun s r => ⟨fun hp => ⟨fun i => exec_of_faulted i hp, fun ha => ?focused⟩, fun t es ha hp => ?run⟩
  case focused =>
    rw [step_of_nothing_pending ha]
    exact stepInst_of_faulted hp
  case run =>
    rw [step_of_run ha]
    exact stepInst_of_faulted ((congrArg Inst.phase (State.focus_inst _ t)).trans hp)

/-! ### Only the reset leaves FAULTED -/

/-- A step of the instance in focus leaves a faulted instance as it is: it is another thread's, since a faulted one in focus
has no step (R196, R269). -/
theorem stepInst_instAt_of_faulted {s u : State} {t : Nat} {r : FaultRecord} (hp : (s.instAt t).phase = .faulted r)
    (hn : stepInst s = .next u) : u.instAt t = s.instAt t := by
  by_cases ht : t = s.inst.thread
  · rw [ht, State.instAt_self] at hp
    rw [stepInst_of_faulted hp] at hn
    exact nomatch hn
  · exact stepInst_instAt_other hn ht

/-- A pending step that is not a reset leaves a faulted instance as it is: the host's steps act on idle and completed ones
only (R21, R269), and the environment's on none (R37). -/
theorem State.apply_instAt_of_faulted (s : State) {e : Event} {t : Nat} {r : FaultRecord}
    (hp : (s.instAt t).phase = .faulted r) (he : e ≠ .reset) : (s.apply e).instAt t = s.instAt t := by
  cases e with
  | run th => exact State.focus_instAt s th t
  | present th req =>
    obtain hsame | ⟨-, hidle, -⟩ := State.present_instAt s th req t
    · exact hsame
    · exact nomatch hp.symm.trans hidle
  | ack th =>
    obtain hsame | ⟨-, hcompleted, -⟩ := State.ack_instAt s th t
    · exact hsame
    · exact nomatch hp.symm.trans hcompleted
  | poke | setMsr | setSeg | setGdtr | setMem => rfl
  | reset => exact absurd rfl he

/-- Settles O42: whatever a step other than the reset applies or runs leaves the faulted instance; the reset makes every
instance idle. -/
theorem onlyResetLeavesFaulted : Obligations.OnlyResetLeavesFaulted := by
  unfold Obligations.OnlyResetLeavesFaulted
  refine fun s u t r hp hn => ⟨fun hreset => ?other, fun es ha => ?reset⟩
  case other =>
    obtain hstep | ⟨e, es, ha, hstep⟩ := step_cases s
    · exact stepInst_instAt_of_faulted hp (hstep ▸ hn)
    · have hkept : (State.apply { s with agenda := es } e).instAt t = s.instAt t :=
        State.apply_instAt_of_faulted { s with agenda := es } hp fun he => hreset es (he ▸ ha)
      obtain hstep | hstep := hstep <;> rw [hstep] at hn
      · cases hn
        exact hkept
      · exact (stepInst_instAt_of_faulted ((congrArg Inst.phase hkept).trans hp) hn).trans hkept
  case reset =>
    rw [step_of_event s _ es ha nofun] at hn
    cases hn
    exact State.blockReset_instAt _ t

end Sys2Proof.Machine
end

section
/-! PROOFS. Missing input bytes, the reset event, and the parameters (spec/70_reset_and_hazards.md R290 to R294, R300). -/

namespace Sys2Proof.Machine

/-! ### Missing input bytes -/

/-- Where an input byte is missing, latching is refused by the address of a missing one (R294; log 4). -/
theorem latchStep_of_missing {h : Handler} {s : State} {base : Nat} (hin : s.inst.inBuf = some base)
    (hmissing : ∃ k, k < h.inMin ∧ s.callerMem.read (base + k) = none) :
    ∃ k, k < h.inMin ∧ s.callerMem.read (base + k) = none ∧
      latchStep h s = .refused (.bufferNotProvided (base + k)) := by
  obtain ⟨hnone, k, hk, hread, hfirst⟩ := Memory.firstMissing_of_missing s.callerMem base h.inMin hmissing
  refine ⟨k, hk, hread, ?_⟩
  rw [latchStep, hin, readLatch_some, hnone, hfirst]

/-- Settles O9: an instruction at operand latching takes the step that is refused. -/
theorem missingInputIsRefused : Obligations.MissingInputIsRefused := by
  unfold Obligations.MissingInputIsRefused
  intro s i base hp hin hmissing
  rw [exec_eq_serve, serve_of_latch _ _ _ hp]
  exact latchStep_of_missing hin hmissing

/-! ### The reset event -/

/-- Settles O39: the reset replaces every instance by an idle one and writes nothing else. -/
theorem resetEvent : Obligations.ResetEvent := by
  unfold Obligations.ResetEvent
  intro s es ha
  exact ⟨_, step_of_event s _ es ha nofun, State.blockReset_instAt _, rfl, rfl, rfl⟩

/-! ### The parameters -/

/-- Two processors accept the same MSR reads and writes: the same addresses are valid and the same writes are rejected
(R7, R291). -/
def Lp.sameRules (l l' : Lp) : Prop := (∀ a, l'.msrValid a = l.msrValid a) ∧ l'.rejects = l.rejects

theorem Lp.sameRules.msrWriteOk {l l' : Lp} (hl : l.sameRules l') (a : U32) (v : U64) :
    l'.msrWriteOk a v = l.msrWriteOk a v := by
  obtain ⟨hvalid, hrejects⟩ := hl
  rw [Lp.msrWriteOk, Lp.msrWriteOk, hvalid, hrejects]

theorem Lp.sameRules_setMsr (l : Lp) (a : U32) (v : U64) : l.sameRules (l.setMsr a v) :=
  ⟨fun b => l.msrValid_setMsr a b v, l.setMsr_rejects a v⟩

/-- Which reads and writes are accepted depends on the list of MSRs and on that of the rejected writes only. -/
theorem Lp.sameRules_of_eq {l l' : Lp} (hmsrs : l'.msrs = l.msrs) (hrejects : l'.rejects = l.rejects) :
    l.sameRules l' :=
  ⟨fun a => by rw [Lp.msrValid, Lp.msrValid, Lp.msr, Lp.msr, hmsrs], hrejects⟩

/-- Two states have the same parameters (R7): those held in `params`, NUM_LP, MsrValid and MsrWriteOk. -/
structure State.SameParameters (s t : State) : Prop where
  params : t.params = s.params
  numLp : t.env.numLp = s.env.numLp
  rules : ∀ p, p < s.env.numLp → (s.env.lp p).sameRules (t.env.lp p)

section
variable {s t u : State}

theorem State.SameParameters.of_env_eq (hc : t.params = s.params) (he : t.env = s.env) : s.SameParameters t where
  params := hc
  numLp := by rw [he]
  rules := fun p _ => by
    rw [he]
    exact Lp.sameRules_of_eq rfl rfl

/-- Replacing a processor by one with the same rules changes no parameter. -/
theorem State.SameParameters.of_setLp {p : Nat} {l : Lp} (hc : t.params = s.params) (he : t.env = s.env.setLp p l)
    (hl : (s.env.lp p).sameRules l) : s.SameParameters t where
  params := hc
  numLp := by rw [he, Env.numLp_setLp]
  rules := fun q hq => by
    rw [he, Env.lp_setLp _ _ _ _ hq]
    split
    · rename_i h
      rwa [h]
    · exact Lp.sameRules_of_eq rfl rfl

theorem State.SameParameters.trans (hst : s.SameParameters t) (htu : t.SameParameters u) : s.SameParameters u where
  params := htu.params.trans hst.params
  numLp := htu.numLp.trans hst.numLp
  rules := fun p hp => by
    obtain ⟨hvalid, hrejects⟩ := hst.rules p hp
    obtain ⟨hvalid', hrejects'⟩ := htu.rules p (hst.numLp ▸ hp)
    exact ⟨fun a => (hvalid' a).trans (hvalid a), hrejects'.trans hrejects⟩

/-- A step of a request changes no parameter: at most it writes an MSR, whose address stays valid (R291). -/
theorem Serves.sameParameters {h : Handler} {inLen outCap : Nat} (hs : Serves h inLen outCap s t) :
    s.SameParameters t := by
  obtain ⟨-, hc, -⟩ := hs.state_frame
  obtain he | ⟨-, -, a, v, -, he⟩ := hs.env_eq
  · exact .of_env_eq hc he
  · exact .of_setLp hc he (Lp.sameRules_setMsr _ a v)

theorem stepInst_sameParameters (hn : stepInst s = .next t) : s.SameParameters t := by
  obtain rfl | rfl | ⟨i, hi⟩ := stepInst_eq_next_cases hn
  · exact .of_env_eq rfl rfl
  · exact .of_env_eq rfl rfl
  · exact (exec_eq_next i s t hi).sameParameters

end

theorem State.present_sameParameters (s : State) (r : Request) : s.SameParameters (s.present r) := by
  by_cases hp : s.inst.phase = .idle
  · rw [State.present_of_idle s r hp]
    exact .of_env_eq rfl rfl
  · rw [State.present_of_not_idle s r hp]
    exact .of_env_eq rfl rfl

theorem State.ack_sameParameters (s : State) : s.SameParameters s.ack := by
  by_cases hp : s.inst.phase = .completed
  · rw [State.ack_of_completed s hp]
    exact .of_env_eq rfl rfl
  · rw [State.ack_of_not_completed s hp]
    exact .of_env_eq rfl rfl

/-- No step of the host, of the environment or the reset changes a parameter (R291): the environment changes the value of
an MSR, and never whether its address is valid (log 11). -/
theorem State.apply_sameParameters (s : State) (e : Event) : s.SameParameters (s.apply e) := by
  have hfocus (t : Nat) : s.SameParameters (s.focus t) := .of_env_eq (s.focus_params t) (s.focus_env t)
  cases e with
  | run t => exact hfocus t
  | present t r => exact (hfocus t).trans ((s.focus t).present_sameParameters r)
  | ack t => exact (hfocus t).trans (s.focus t).ack_sameParameters
  | poke a b => exact .of_env_eq rfl rfl
  | setMsr p a v => exact .of_setLp rfl rfl (Lp.sameRules_setMsr _ a v)
  | setSeg p r v => exact .of_setLp rfl rfl (Lp.sameRules_of_eq (Lp.setSeg_msrs _ r v) (Lp.setSeg_rejects _ r v))
  | setGdtr p g => exact .of_setLp rfl rfl (Lp.sameRules_of_eq rfl rfl)
  | setMem p a b => exact .of_setLp rfl rfl (Lp.sameRules_of_eq rfl rfl)
  | reset => exact .of_env_eq rfl rfl

theorem step_sameParameters {s u : State} (hn : step s = .next u) : s.SameParameters u := by
  obtain hstep | ⟨e, es, -, hstep⟩ := step_cases s
  · exact stepInst_sameParameters (hstep ▸ hn)
  · have hpopped : s.SameParameters { s with agenda := es } := .of_env_eq rfl rfl
    have happlied : s.SameParameters (State.apply { s with agenda := es } e) :=
      hpopped.trans (State.apply_sameParameters _ e)
    obtain hstep | hstep := hstep <;> rw [hstep] at hn
    · cases hn
      exact happlied
    · exact happlied.trans (stepInst_sameParameters hn)

/-- Settles O47: the rules of a processor say which addresses are valid and, with its rejected writes, which writes are
accepted. -/
theorem parametersAreFixed : Obligations.ParametersAreFixed := by
  unfold Obligations.ParametersAreFixed
  intro s u hn
  obtain ⟨hc, hnum, hrules⟩ := step_sameParameters hn
  exact ⟨hc, hnum, fun p hp a => ⟨(hrules p hp).1 a, (hrules p hp).msrWriteOk a⟩⟩

/-! ### The buffers in VALIDATED -/

/-- Settles O48: only the latching and the output bytes reach the caller's memory, and neither is a step in VALIDATED. -/
theorem executionIgnoresTheBuffers : Obligations.ExecutionIgnoresTheBuffers := by
  unfold Obligations.ExecutionIgnoresTheBuffers
  intro i s t m hf hn
  have hlatch : s.inst.phase ≠ .received .latch := fun hp => nomatch hf.symm.trans (Inst.fsm_of_phase hp)
  have houtput (n : Nat) : s.inst.phase ≠ .executed n := fun hp => nomatch hf.symm.trans (Inst.fsm_of_phase hp)
  rw [exec_eq_serve] at hn
  exact (exec_eq_serve i _).trans
    (serve_withCallerMem hn (fun hp => absurd hp hlatch) fun n hp => absurd hp (houtput n))

end Sys2Proof.Machine
end

section
/-! PROOFS. Every request ends (spec/70_reset_and_hazards.md R302, R303): a step of a request whose buffers are provided
answers a next state, and brings the request nearer to its end. -/

namespace Sys2Proof.Machine

/-! ### What a step can stop for -/

/-- A step's answer is a next state, unless it is the fault of a read of an unwritten latch (R30). -/
def StopsUnwrittenOnly (o : Out) : Prop := (∃ t, o = .next t) ∨ ∃ l : Latch, o = .fault (.unwrittenLatch l)

theorem stopsUnwrittenOnly_next (t : State) : StopsUnwrittenOnly (.next t) := .inl ⟨t, rfl⟩

/-- An answer that stops for no other reason than an unwritten latch, and not for that one, is a next state. -/
theorem StopsUnwrittenOnly.exists_next {o : Out} (ho : StopsUnwrittenOnly o) (hr : ReadsWritten o) :
    ∃ t, o = .next t :=
  ho.resolve_right fun ⟨l, hl⟩ => hr l hl

/-- Reading a latch, written or not, leaves the question to what follows its value. -/
theorem stopsUnwrittenOnly_readLatch {α : Type} {l : Latch} {held : Option α} {k : α → Out}
    (hk : ∀ a, held = some a → StopsUnwrittenOnly (k a)) : StopsUnwrittenOnly (readLatch l held k) := by
  cases held with
  | none => exact .inr ⟨l, rfl⟩
  | some a => exact hk a rfl

section
variable {s : State}

theorem executeReadMsr_stopsUnwrittenOnly : StopsUnwrittenOnly (executeReadMsr s) := by
  refine stopsUnwrittenOnly_readLatch fun a _ => ?_
  split <;> exact stopsUnwrittenOnly_next _

theorem executeWriteMsr_stopsUnwrittenOnly : StopsUnwrittenOnly (executeWriteMsr s) := by
  refine stopsUnwrittenOnly_readLatch fun a _ => stopsUnwrittenOnly_readLatch fun lo _ =>
    stopsUnwrittenOnly_readLatch fun hi _ => ?_
  split <;> exact stopsUnwrittenOnly_next _

theorem executeQuerySegment_stopsUnwrittenOnly (w : ExecStep) : StopsUnwrittenOnly (executeQuerySegment w s) := by
  cases w with
  | start =>
    refine stopsUnwrittenOnly_readLatch fun v _ => ?_
    split <;> exact stopsUnwrittenOnly_next _
  | sgdt => exact stopsUnwrittenOnly_readLatch fun sel _ => stopsUnwrittenOnly_next _
  | readLo glim off job => exact stopsUnwrittenOnly_next _
  | readHi rawLo job => exact stopsUnwrittenOnly_next _

theorem execution_stopsUnwrittenOnly (h : Handler) (w : ExecStep) : StopsUnwrittenOnly (h.execution w s) := by
  cases h with
  | readMsr => exact executeReadMsr_stopsUnwrittenOnly
  | writeMsr => exact executeWriteMsr_stopsUnwrittenOnly
  | querySegment => exact executeQuerySegment_stopsUnwrittenOnly w
  | hNone => exact stopsUnwrittenOnly_next s

theorem operandCheck_stopsUnwrittenOnly {h : Handler} {k : Bool → Out} (hk : ∀ b, StopsUnwrittenOnly (k b)) :
    StopsUnwrittenOnly (operandCheck h s k) := by
  cases h with
  | querySegment => exact stopsUnwrittenOnly_readLatch fun v _ => hk _
  | readMsr => exact hk true
  | writeMsr => exact hk true
  | hNone => exact hk true

/-- No execution rule refuses, and a fault of a primitive is a next state (R262). -/
theorem executeStep_stopsUnwrittenOnly (h : Handler) (w : ExecStep) :
    StopsUnwrittenOnly (executeStep h h.execution w s) := by
  cases w with
  | start =>
    unfold executeStep
    refine operandCheck_stopsUnwrittenOnly fun b => ?_
    split
    · exact execution_stopsUnwrittenOnly h .start
    · exact stopsUnwrittenOnly_next _
  | _ => exact execution_stopsUnwrittenOnly h _

/-- Bytes that the host provides are read as a run. -/
theorem State.provides.exists_readBytes {base n : Nat} (hp : s.provides base n) :
    ∃ bs, s.callerMem.readBytes base n = some bs :=
  ⟨_, Memory.readBytes_of_read (b := fun k => (s.callerMem.read (base + k)).getD 0#8) fun k hk => by
    obtain ⟨b, hb⟩ := Option.isSome_iff_exists.mp (hp k hk)
    rw [hb, Option.getD_some]⟩

theorem latchStep_stopsUnwrittenOnly {h : Handler} (hin : ∀ base, s.inst.inBuf = some base → s.provides base h.inMin) :
    StopsUnwrittenOnly (latchStep h s) := by
  refine stopsUnwrittenOnly_readLatch fun base hb => ?_
  obtain ⟨bs, hbs⟩ := (hin base hb).exists_readBytes
  rw [hbs]
  exact stopsUnwrittenOnly_next _

theorem resultImage_stopsUnwrittenOnly {h : Handler} {m : Inst} {k : List Byte → Out}
    (hk : ∀ image, StopsUnwrittenOnly (k image)) : StopsUnwrittenOnly (resultImage h m k) := by
  cases h with
  | readMsr => exact stopsUnwrittenOnly_readLatch fun lo _ => stopsUnwrittenOnly_readLatch fun hi _ => hk _
  | querySegment =>
    exact stopsUnwrittenOnly_readLatch fun sel _ => stopsUnwrittenOnly_readLatch fun r _ =>
      stopsUnwrittenOnly_readLatch fun v _ => stopsUnwrittenOnly_readLatch fun lo _ =>
      stopsUnwrittenOnly_readLatch fun hi _ => hk _
  | writeMsr => exact hk []
  | hNone => exact hk []

theorem outputByte_stopsUnwrittenOnly {h : Handler} {n : Nat}
    (hout : ∀ base, s.inst.outBuf = some base → (s.callerMem.read (base + n)).isSome = true) :
    StopsUnwrittenOnly (outputByte h n s) := by
  refine stopsUnwrittenOnly_readLatch fun base hb => resultImage_stopsUnwrittenOnly fun image => ?_
  obtain ⟨b, hr⟩ := Option.isSome_iff_exists.mp (hout base hb)
  rw [hr]
  exact stopsUnwrittenOnly_next _

/-- Where the host provides the bytes that a handler reads and writes, a step of a request not faulted refuses nothing
(R294). -/
theorem serve_stopsUnwrittenOnly {h : Handler} {inLen outCap : Nat} (hf : s.inst.fsm ≠ .faulted)
    (hin : s.inst.phase = .received .latch → ∀ base, s.inst.inBuf = some base → s.provides base h.inMin)
    (hout : ∀ n, s.inst.phase = .executed n → ∀ base, s.inst.outBuf = some base → s.provides base h.outSize) :
    StopsUnwrittenOnly (serve h inLen outCap h.execution s) := by
  unfold serve
  split
  case h_1 => exact stopsUnwrittenOnly_next _
  case h_2 => exact stopsUnwrittenOnly_next _
  case h_3 =>
    rw [sizeGate_eq]
    exact stopsUnwrittenOnly_next _
  case h_4 hp => exact latchStep_stopsUnwrittenOnly (hin hp)
  case h_5 w _ => exact executeStep_stopsUnwrittenOnly h w
  case h_6 n hp =>
    unfold resultStep
    split
    · rename_i hl
      exact outputByte_stopsUnwrittenOnly fun base hb => hout n hp base hb n hl
    · exact stopsUnwrittenOnly_next _
  case h_7 => exact stopsUnwrittenOnly_next _
  case h_8 hp => exact absurd (Inst.fsm_of_phase hp) hf

end

/-! ### The steps a request still has to take -/

/-- How many steps a request at a given phase takes at most, as R302 counts them (log 8): one each for lookup, gate,
latching, selector read and SGDT, one for each of the 16 bytes of two MemReads, one for each of the 40 bytes of the largest
result, and one for the response. -/
def Phase.stepsLeft : Phase → Nat
  | .received .lookup => 62
  | .received .gate => 61
  | .received .latch => 60
  | .validated .start => 59
  | .validated .sgdt => 58
  | .validated (.readLo _ _ job) => 57 - job.got.length
  | .validated (.readHi _ job) => 49 - job.got.length
  | .executed n => 41 - n
  | .idle => 0
  | .completed => 0
  | .faulted _ => 0

theorem Phase.stepsLeft_le (p : Phase) : p.stepsLeft ≤ 62 := by
  cases p with
  | received r => cases r <;> simp [Phase.stepsLeft]
  | validated w => cases w <;> simp only [Phase.stepsLeft] <;> omega
  | executed n => exact (Nat.sub_le 41 n).trans (by decide)
  | _ => simp [Phase.stepsLeft]

theorem Handler.outSize_le (h : Handler) : h.outSize ≤ 40 := by
  cases h <;> decide

/-- While a request executes, the whole of its result is still to be put out. -/
theorem Inst.executing.stepsLeft_gt {m : Inst} {c : Params} {numLp : Nat} {w : ExecStep}
    (hx : m.executing c numLp w) : 41 < (Phase.validated w).stepsLeft := by
  cases w with
  | start => decide
  | sgdt => decide
  | readLo glim off job =>
    obtain ⟨-, -, -, -, -, hlen, -⟩ := hx
    simp only [Phase.stepsLeft]
    omega
  | readHi rawLo job =>
    obtain ⟨-, -, -, -, -, ⟨hlen, -⟩, -⟩ := hx
    simp only [Phase.stepsLeft]
    omega

theorem length_of_memReadByte {job job' : MemJob} {s : State} (hr : memReadByte job s = .ok job') :
    job'.got.length = job.got.length + 1 := by
  obtain ⟨b, -, rfl⟩ := (memReadByte_eq_ok job job' s).mp hr
  exact List.length_append

/-- Every step of execution brings its end nearer (R302). -/
theorem Executes.stepsLeft_lt {s t : State} {h : Handler} {w : ExecStep} (hx : Executes s h w t) {c : Params}
    {numLp : Nat} (hexec : s.inst.executing c numLp w) :
    t.inst.phase.stepsLeft < (Phase.validated w).stepsLeft := by
  have hgt := hexec.stepsLeft_gt
  cases hx with
  | selectorSeeks _ _ => exact Nat.lt_add_one 58
  | insideTable => exact Nat.lt_add_one 57
  | loByte hr hl =>
    have hlen := length_of_memReadByte hr
    simp only [State.toPhase_inst, Phase.stepsLeft]
    omega
  | wideInside _ =>
    obtain ⟨-, -, -, -, -, hlen, -⟩ := hexec
    simp only [State.toPhase_inst, Phase.stepsLeft, MemJob.at, List.length_nil]
    omega
  | hiByte hr hl =>
    have hlen := length_of_memReadByte hr
    simp only [State.toPhase_inst, Phase.stepsLeft]
    omega
  | indexRejected _ _ => exact Nat.zero_lt_of_lt hgt
  | msrReadFaults _ _ => exact Nat.zero_lt_of_lt hgt
  | msrWriteFaults _ => exact Nat.zero_lt_of_lt hgt
  | loFaults _ => exact Nat.zero_lt_of_lt hgt
  | hiFaults _ => exact Nat.zero_lt_of_lt hgt
  | _ => exact hgt

/-- Every step of a request being served brings its end nearer (R302). -/
theorem Serves.stepsLeft_lt {s t : State} {h : Handler} {inLen outCap : Nat} (hs : Serves h inLen outCap s t)
    (hserv : s.inst.serving) (hok : s.inst.ok s.params s.env.numLp) :
    t.inst.phase.stepsLeft < s.inst.phase.stepsLeft := by
  cases hs with
  | waits hp =>
    unfold Inst.serving at hserv
    obtain hp | hp := hp <;> simp [Inst.fsm_of_phase hp, Phase.fsm] at hserv
  | looksUp hp =>
    rw [hp]
    exact Nat.lt_add_one 61
  | gateFails hp _ =>
    rw [hp]
    exact Nat.zero_lt_succ 60
  | gatePasses hp _ =>
    rw [hp]
    exact Nat.lt_add_one 60
  | latches hp =>
    rw [hp]
    exact Nat.lt_add_one 59
  | executes hp hx =>
    obtain ⟨-, -, -, -, hexec, -⟩ := (Inst.ok_validated_iff hp).mp hok
    rw [hp]
    exact hx.stepsLeft_lt hexec
  | writesByte hp hl =>
    have hsize := h.outSize_le
    rw [hp]
    simp only [State.toPhase_inst, Phase.stepsLeft]
    omega
  | responds hp =>
    obtain ⟨-, -, -, -, -, -, h', -, hn⟩ := (Inst.ok_executed_iff hp).mp hok
    have hsize := h'.outSize_le
    rw [hp]
    simp only [State.succeed_inst, Phase.stepsLeft]
    omega

theorem stepInst_stepsLeft_lt {s t : State} (hserv : s.inst.serving) (hok : s.inst.ok s.params s.env.numLp)
    (hn : stepInst s = .next t) : t.inst.phase.stepsLeft < s.inst.phase.stepsLeft := by
  obtain ⟨h, inLen, outCap, hm⟩ := hok.exists_requests hserv
  by_cases hh : h = .hNone
  · subst hh
    rw [stepInst_eq_lookupNone hserv hm] at hn
    cases hn
    rw [hok.lookup_of_hNone hserv hm]
    exact Nat.zero_lt_succ 61
  · rw [stepInst_eq_serve hserv hm hh] at hn
    exact (serves_of_serve_eq_next h _ _ s t hh hn).stepsLeft_lt hserv hok

/-! ### A request whose buffers are provided -/

/-- The instance in focus holds a request with the given buffers and declared sizes, the host provides what it declares
(R294), nothing is pending and the invariant holds. -/
structure State.Supplied (s : State) (inBase outBase : Nat) (inLen outCap : U32) : Prop where
  inv : s.Inv
  nothing_pending : s.agenda = []
  inBuf_held : s.inst.inBuf = some inBase
  outBuf_held : s.inst.outBuf = some outBase
  inLen_held : s.inst.reqInLen = some inLen
  outCap_held : s.inst.reqOutCap = some outCap
  input_provided : s.provides inBase inLen.toNat
  output_provided : s.provides outBase outCap.toNat

/-- A step of a request takes no byte of the caller's memory away. -/
theorem Serves.keeps_provides {s t : State} {h : Handler} {inLen outCap base n : Nat} (hs : Serves h inLen outCap s t)
    (hp : s.provides base n) : t.provides base n := by
  cases hs with
  | writesByte _ _ =>
    intro k hk
    simp only [State.toPhase_callerMem, Memory.read_write]
    split
    · rfl
    · exact hp k hk
  | executes _ hx =>
    obtain ⟨-, -, -, hmem⟩ := hx.state_frame
    unfold State.provides
    rwa [hmem]
  | _ => exact hp

/-- The step of an instance keeps its request latches, and every byte that the host provides is still there (R25). -/
theorem stepInst_keeps_request {s t : State} (hn : stepInst s = .next t) :
    (t.inst.reqInLen = s.inst.reqInLen ∧ t.inst.reqOutCap = s.inst.reqOutCap ∧ t.inst.inBuf = s.inst.inBuf ∧
      t.inst.outBuf = s.inst.outBuf) ∧ ∀ base n, s.provides base n → t.provides base n := by
  obtain rfl | rfl | ⟨i, hi⟩ := stepInst_eq_next_cases hn
  · exact ⟨⟨rfl, rfl, rfl, rfl⟩, fun _ _ => id⟩
  · exact ⟨⟨rfl, rfl, rfl, rfl⟩, fun _ _ => id⟩
  · have hs := exec_eq_next i s t hi
    obtain ⟨-, -, hrequest⟩ := hs.request_frame
    exact ⟨hrequest, fun _ _ => hs.keeps_provides⟩

section
variable {s t : State} {inBase outBase : Nat} {inLen outCap : U32}

theorem State.Supplied.of_step (hs : s.Supplied inBase outBase inLen outCap) (hn : step s = .next t) :
    t.Supplied inBase outBase inLen outCap := by
  have hstep : stepInst s = .next t := step_of_nothing_pending hs.nothing_pending ▸ hn
  obtain ⟨-, -, hagenda⟩ := stepInst_frame hstep
  obtain ⟨⟨hinLen, houtCap, hinBuf, houtBuf⟩, hprovides⟩ := stepInst_keeps_request hstep
  exact
    { inv := stepKeepsTheInvariant s t hs.inv hn
      nothing_pending := hagenda.trans hs.nothing_pending
      inBuf_held := hinBuf.trans hs.inBuf_held
      outBuf_held := houtBuf.trans hs.outBuf_held
      inLen_held := hinLen.trans hs.inLen_held
      outCap_held := houtCap.trans hs.outCap_held
      input_provided := hprovides _ _ hs.input_provided
      output_provided := hprovides _ _ hs.output_provided }

/-- An instance that holds a request is serving it or has ended it: an idle one would hold none (R42). -/
theorem State.Supplied.serving_or_ended (hs : s.Supplied inBase outBase inLen outCap) :
    s.inst.serving ∨ s.inst.ended := by
  cases hp : s.inst.phase with
  | idle =>
    have hidle := (Inst.ok_idle_iff hp).mp hs.inv.focused
    exact nomatch hs.inLen_held.symm.trans (congrArg Inst.reqInLen hidle)
  | received r => exact .inl (.inl (Inst.fsm_of_phase hp))
  | validated w => exact .inl (.inr (.inl (Inst.fsm_of_phase hp)))
  | executed n => exact .inl (.inr (.inr (Inst.fsm_of_phase hp)))
  | completed => exact .inr (.inl hp)
  | faulted r => exact .inr (.inr ⟨r, hp⟩)

/-- A request being served has a next step: the latches that it reads are written, and the sizes passed by the gate are
those of bytes that the host provides (R30, R185, R294). -/
theorem State.Supplied.exists_step (hs : s.Supplied inBase outBase inLen outCap) (hserv : s.inst.serving) :
    ∃ t, step s = .next t := by
  have hok := hs.inv.focused
  have hreads := stepInst_readsWritten hok
  rw [step_of_nothing_pending hs.nothing_pending]
  obtain ⟨h, inLen', outCap', hm⟩ := hok.exists_requests hserv
  cases hs.inLen_held.symm.trans hm.inLen_held
  cases hs.outCap_held.symm.trans hm.outCap_held
  by_cases hh : h = .hNone
  · subst hh
    exact ⟨_, stepInst_eq_lookupNone hserv hm⟩
  · rw [stepInst_eq_serve hserv hm hh] at hreads ⊢
    refine (serve_stopsUnwrittenOnly ?notFaulted ?input ?output).exists_next hreads
    case notFaulted =>
      intro hf
      simp [Inst.serving, hf] at hserv
    case input =>
      intro hp base hb
      cases hs.inBuf_held.symm.trans hb
      obtain ⟨hsize, -⟩ := hok.sizes_suffice hm (.inl hp)
      exact fun k hk => hs.input_provided k (hk.trans_le hsize)
    case output =>
      intro n hp base hb
      cases hs.outBuf_held.symm.trans hb
      obtain ⟨-, hsize⟩ := hok.sizes_suffice hm (.inr ⟨n, hp⟩)
      exact fun k hk => hs.output_provided k (hk.trans_le hsize)

/-- A request whose buffers are provided ends within the steps it has left, by induction on their number. -/
theorem State.Supplied.exists_run_ended (hs : s.Supplied inBase outBase inLen outCap) :
    ∃ k t, k ≤ s.inst.phase.stepsLeft ∧ core.run k s = .next t ∧ t.inst.ended := by
  induction hleft : s.inst.phase.stepsLeft using Nat.strong_induction_on generalizing s with
  | _ n ih =>
    subst hleft
    obtain hserv | hended := hs.serving_or_ended
    · obtain ⟨u, hu⟩ := hs.exists_step hserv
      have hlt : u.inst.phase.stepsLeft < s.inst.phase.stepsLeft :=
        stepInst_stepsLeft_lt hserv hs.inv.focused (step_of_nothing_pending hs.nothing_pending ▸ hu)
      obtain ⟨k, t, hk, hrun, hended⟩ := ih _ hlt (hs.of_step hu) rfl
      exact ⟨k + 1, t, by omega, run_succ_eq_next_iff.mpr ⟨u, hu, hrun⟩, hended⟩
    · exact ⟨0, s, Nat.zero_le _, rfl, hended⟩

end

/-- Settles O55: no phase has more than 62 steps left. -/
theorem everyRequestEnds : Obligations.EveryRequestEnds := by
  unfold Obligations.EveryRequestEnds
  intro s inBase outBase inLen outCap hinv ha _ hin hout hinLen houtCap hinput houtput
  have hs : s.Supplied inBase outBase inLen outCap := ⟨hinv, ha, hin, hout, hinLen, houtCap, hinput, houtput⟩
  obtain ⟨k, t, hk, hrun, hended⟩ := hs.exists_run_ended
  exact ⟨k, t, hk.trans (Phase.stepsLeft_le _), hrun, hended⟩

end Sys2Proof.Machine
end
